-- ==== Sys2Proof/Word.lean ====
section
/-! DEFINITION. The word types of the SPI-FLASH CORE (spec 00_scope.md R10, R11; 10_state.md R30 to R33). -/

namespace Sys2Proof

/-- One byte: bits 7 down to 0 (R11). Every unit moved on the wire is one byte (R65). -/
abbrev Byte := BitVec 8

/-- A flash address, an unsigned 16-bit offset (R61). -/
abbrev Addr := BitVec 16

/-- A byte count, 17 bits: 0 to 0x1FFFF (R30, R31). -/
abbrev Count := BitVec 17

/-- `ARRAY_SIZE`: bytes of addressable flash (R9). -/
abbrev arraySize : Nat := 0x10000

end Sys2Proof
end

