-- ==== Sys2Proof/Config.lean ====
section
/-! DEFINITION. What an implementation fixes (00_scope.md R9) and the free values the spec leaves open. -/

namespace Sys2Proof

namespace Config

/-- The implementation parameters of R9. A state carries its parameters, so a claim about every state is a claim about
every value of them. `windowLog` is the base-2 logarithm of W: W is a power of two with 1 ≤ W ≤ 0x10000 (R9, D20). -/
structure Params where
  /-- base-2 logarithm of the erase window size W -/
  windowLog : Fin 17
  /-- `DUMMY`: the don't-care byte driven while reading (R106) -/
  dummy : Byte
  /-- `CS_ACTIVE_LEVEL`: the electrical level of an asserted chip-select -/
  csActiveLevel : Bool
  /-- `HOLD_ACTIVE_LEVEL`: the electrical level of an active hold line -/
  holdActiveLevel : Bool
  /-- `MANUFACTURER_CODE`: the configured code of the target chip family (R171 b); the block never compares it -/
  manufacturerCode : Byte
  /-- `HALF_PERIOD_INIT`, microseconds -/
  halfPeriodInit : BitVec 16
  /-- `T_SECTOR_ERASE`, milliseconds -/
  tSectorErase : BitVec 32
  /-- `T_CHIP_ERASE`, milliseconds -/
  tChipErase : BitVec 32
  /-- `T_BYTE_PROGRAM`, microseconds per byte -/
  tByteProgram : BitVec 32
  /-- `ERASED` (environment): the chip's erased-cell value -/
  erased : Byte
  /-- `S_CHIP` (environment): the chip's true erase granule in bytes -/
  sectorSize : Nat
  /-- `BUSY_BIT` (environment): the position of the busy bit in the status byte -/
  busyBit : Fin 8
  /-- `WEL_BIT` (environment): the position of the write-enable-latch bit in the status byte -/
  welBit : Fin 8
deriving DecidableEq, Repr

/-- W: the erase window size in bytes. -/
def Params.window (p : Params) : Nat := 2 ^ p.windowLog.val

/-- The parameters of `State.reset`. DESIGN CHOICE (log 14): the defaults of R9 and 95_test_vectors.md where they give
one (W = S_CHIP = 32, DUMMY = ERASED = 0xFF, HALF_PERIOD_INIT = 1, levels 0, BUSY_BIT 0, WEL_BIT 1, code 0x1F);
the three latencies have no value anywhere in the spec. -/
def reference : Params where
  windowLog := 5
  dummy := 0xFF#8
  csActiveLevel := false
  holdActiveLevel := false
  manufacturerCode := 0x1F#8
  halfPeriodInit := 1#16
  tSectorErase := 20#32
  tChipErase := 200#32
  tByteProgram := 30#32
  erased := 0xFF#8
  sectorSize := 32
  busyBit := 0
  welBit := 1

/-- Free value (log 5, log 7): a byte of the chip that the spec does not determine, by the chip's draw number. -/
opaque chipByte : Nat → Byte

/-- Free value (log 5, log 7): a bit of the chip, or of an undriven data-in line, that the spec does not determine. -/
opaque chipBit : Nat → Bool

/-- Free value (log 6): the contents of an array cell nothing has written since the array last became unspecified; the
first argument numbers that moment, the second is the cell's address. -/
opaque chipCell : Nat → Nat → Byte

/-- Free value (log 9): the chip-defined function WRSR applies to the old status bits and the written byte (R85). -/
opaque wrsrStatus : Byte → Byte → Byte

/-- Free value (log 19): byte `k` of the erase window buffer outside a `program` operation (R35). -/
opaque bufByte : Nat → Nat → Byte

/-- Free value (log 19): byte `j` of a data stream that does not hold one. -/
opaque dinByte : Nat → Nat → Byte

end Config

end Sys2Proof
end

