-- ==== Sys2Proof/Syntax.lean ====
section
/-! DEFINITION. The instructions: every row of spec/opcode_table.json a constructor (30_encoding.md R102, R110, R112),
and the form in which an operation is handed over. -/

namespace Sys2Proof

/-- The nine wire opcodes: a closed set (R102). -/
inductive Opcode where
  | wren | wrdi | rdsr | wrsr | read | program | sectorErase | chipErase | rdid
deriving DecidableEq, Repr

/-- The operand ports beside `cmd_op` (10_state.md R42). An operation latches only the ports R112 lists for it. -/
structure HostPorts where
  addr : Addr := 0#16
  len  : Count := 0#17
  byte : Byte := 0#8
  cont : Bool := false
  khz  : BitVec 16 := 0#16
  /-- the data stream of `program`, first byte first -/
  din  : List Byte := []
deriving DecidableEq, Repr

/-- One instruction as it is handed over. `host`: the command port (R42, R112). `wire`: the header bytes of a wire frame
in wire order (R100, R104; log 16). `internal`: the three bytes of the address frame (R103; log 17). `hostWait`: no
operation at all; the host lets time pass until the chip has finished what it is doing (70_reset_and_hazards.md R273;
log 8). -/
inductive Request where
  | host (op : BitVec 5) (ports : HostPorts)
  | wire (header : List Byte)
  | internal (bytes : List Byte)
  | hostWait
deriving DecidableEq, Repr

/-- The instructions. First the nine wire transactions, then the eighteen host operations, then the internal helper. -/
inductive Instr where
  /-- WREN: format OP -/
  | wrenFrame
  /-- WRDI: format OP -/
  | wrdiFrame
  /-- RDSR: format OP_R1 -/
  | rdsrFrame
  /-- WRSR: format OP_W1 with the value byte -/
  | wrsrFrame (v : Byte)
  /-- READ: format OPA_Rn -/
  | readFrame (a : Addr)
  /-- PROGRAM: format OPA_WW -/
  | programFrame (a : Addr)
  /-- SECTOR_ERASE: format OPA -/
  | sectorEraseFrame (a : Addr)
  /-- CHIP_ERASE: format OP -/
  | chipEraseFrame
  /-- RDID: format OP_R2 -/
  | rdidFrame
  | init
  | configureClockPeriod (k : BitVec 16)
  | select
  | release
  | transferByte (b : Byte)
  | readByte (c : Bool)
  | sendCommand (op : Byte)
  | writeEnable
  | writeDisable
  | readStatus
  | readProductId
  | writeStatusRegister (v : Byte)
  | read (a : Addr) (len : Count)
  | sectorErase (a : Addr)
  | chipErase
  | program (a : Addr) (len : Count) (data : List Byte)
  | hold
  | resume
  | frameAddress (a : Addr)
deriving DecidableEq, Repr

end Sys2Proof
end

