-- ==== Sys2Proof/WellFormed.lean ====
section
/-! DEFINITION. Which instructions are well formed (30_encoding.md R110). -/

namespace Sys2Proof

/-- The data of `program` has exactly `length` bytes: `data: u8[length]` (R110). Every other operand is legal at every
value of its width. The machine runs a `program` with another number of bytes too (log 20). -/
def Instr.wellFormed : Instr → Bool
  | .program _ len data => data.length == len.toNat
  | .wrenFrame | .wrdiFrame | .rdsrFrame | .wrsrFrame _ | .readFrame _ | .programFrame _ | .sectorEraseFrame _
  | .chipEraseFrame | .rdidFrame | .init | .configureClockPeriod _ | .select | .release | .transferByte _ | .readByte _
  | .sendCommand _ | .writeEnable | .writeDisable | .readStatus | .readProductId | .writeStatusRegister _ | .read _ _
  | .sectorErase _ | .chipErase | .hold | .resume | .frameAddress _ => true

end Sys2Proof
end

