-- ==== Sys2Proof/Decode.lean ====
section
/-! DEFINITION. Decoding and encoding (30_encoding.md R100 to R113), and the byte helpers both use. -/

namespace Sys2Proof

/-- `a[15:8]`. -/
def hiByte (a : Addr) : Byte := a.extractLsb' 8 8

/-- `a[7:0]`. -/
def loByte (a : Addr) : Byte := a.extractLsb' 0 8

/-- `h ‖ l` with `h` in the high bits: big-endian (20_memory.md R63). -/
def joinBytes (h l : Byte) : BitVec 16 := h ++ l

/-- `v` with bit `k` set to `b`. -/
def setBit (v : Byte) (k : Nat) (b : Bool) : Byte :=
  if b then v ||| (1#8 <<< k) else v &&& ~~~(1#8 <<< k)

/-- `v` moved up one place with `b` as its new bit 0: how a receiver takes bits, most significant first (R62). -/
def shiftIn (v : Byte) (b : Bool) : Byte := (v <<< 1) ||| (BitVec.ofBool b).setWidth 8

/-- The opcode values, exact (R102). -/
def Opcode.byte : Opcode → Byte
  | .wren => 0x06#8
  | .wrdi => 0x04#8
  | .rdsr => 0x05#8
  | .wrsr => 0x01#8
  | .read => 0x03#8
  | .program => 0x02#8
  | .sectorErase => 0x52#8
  | .chipErase => 0x62#8
  | .rdid => 0x15#8

/-- The opcode a byte stands for; the other 247 values are none (R107). -/
def Opcode.ofByte (b : Byte) : Option Opcode :=
  match b.toNat with
  | 0x06 => some .wren
  | 0x04 => some .wrdi
  | 0x05 => some .rdsr
  | 0x01 => some .wrsr
  | 0x03 => some .read
  | 0x02 => some .program
  | 0x52 => some .sectorErase
  | 0x62 => some .chipErase
  | 0x15 => some .rdid
  | _ => none

/-- Why a request is no instruction. -/
inductive DecodeError where
  /-- a host code that R112 does not assign (R113) -/
  | reservedHostCode (op : BitVec 5)
  /-- a wire header whose first byte is none of the nine opcodes (R107) -/
  | notAnOpcode (b : Byte)
  /-- a header with too few or too many bytes for its opcode (R100) -/
  | headerLength
  /-- a reserved address byte other than 0x00 (R103, R108) -/
  | reservedAddressByte (b : Byte)
  /-- the host only lets time pass (R273) -/
  | noOperation
deriving DecidableEq, Repr

/-- The host operation codes (R112). A data stream that does not have `length` bytes is taken as it is (log 20). -/
def decodeHost (op : BitVec 5) (p : HostPorts) : Except DecodeError Instr :=
  match op.toNat with
  | 0x00 => .ok .init
  | 0x01 => .ok (.configureClockPeriod p.khz)
  | 0x02 => .ok .select
  | 0x03 => .ok .release
  | 0x04 => .ok (.transferByte p.byte)
  | 0x05 => .ok (.readByte p.cont)
  | 0x08 => .ok (.sendCommand p.byte)
  | 0x09 => .ok .writeEnable
  | 0x0A => .ok .writeDisable
  | 0x0B => .ok .readStatus
  | 0x0C => .ok .readProductId
  | 0x0D => .ok (.writeStatusRegister p.byte)
  | 0x0E => .ok (.read p.addr p.len)
  | 0x0F => .ok (.sectorErase p.addr)
  | 0x10 => .ok .chipErase
  | 0x11 => .ok (.program p.addr p.len p.din)
  | 0x12 => .ok .hold
  | 0x13 => .ok .resume
  | _ => .error (.reservedHostCode op)

/-- The three bytes after an addressed opcode: 0x00, high byte, low byte (R103). -/
def decodeAddressFrame : List Byte → Except DecodeError Addr
  | [z, h, l] => if z = 0x00#8 then .ok (joinBytes h l) else .error (.reservedAddressByte z)
  | _ => .error .headerLength

/-- Wire headers by format (R100, R104). -/
def decodeWire : List Byte → Except DecodeError Instr
  | [] => .error .headerLength
  | o :: rest =>
    match Opcode.ofByte o with
    | none => .error (.notAnOpcode o)
    | some .wren => if rest = [] then .ok .wrenFrame else .error .headerLength
    | some .wrdi => if rest = [] then .ok .wrdiFrame else .error .headerLength
    | some .rdsr => if rest = [] then .ok .rdsrFrame else .error .headerLength
    | some .chipErase => if rest = [] then .ok .chipEraseFrame else .error .headerLength
    | some .rdid => if rest = [] then .ok .rdidFrame else .error .headerLength
    | some .wrsr =>
      match rest with
      | [v] => .ok (.wrsrFrame v)
      | _ => .error .headerLength
    | some .read => (decodeAddressFrame rest).map .readFrame
    | some .program => (decodeAddressFrame rest).map .programFrame
    | some .sectorErase => (decodeAddressFrame rest).map .sectorEraseFrame

/-- The decoder: total, and rejecting by name. -/
def decode : Request → Except DecodeError Instr
  | .host op p => decodeHost op p
  | .wire header => decodeWire header
  | .internal bytes => (decodeAddressFrame bytes).map .frameAddress
  | .hostWait => .error .noOperation

/-- The address frame of R103. -/
def addressFrame (a : Addr) : List Byte := [0x00#8, hiByte a, loByte a]

/-- The encoder, from the tables R102, R104 and R112. Ports an operation does not latch are zero. -/
def encode : Instr → Request
  | .wrenFrame => .wire [0x06#8]
  | .wrdiFrame => .wire [0x04#8]
  | .rdsrFrame => .wire [0x05#8]
  | .wrsrFrame v => .wire [0x01#8, v]
  | .readFrame a => .wire (0x03#8 :: addressFrame a)
  | .programFrame a => .wire (0x02#8 :: addressFrame a)
  | .sectorEraseFrame a => .wire (0x52#8 :: addressFrame a)
  | .chipEraseFrame => .wire [0x62#8]
  | .rdidFrame => .wire [0x15#8]
  | .init => .host 0x00#5 {}
  | .configureClockPeriod k => .host 0x01#5 { khz := k }
  | .select => .host 0x02#5 {}
  | .release => .host 0x03#5 {}
  | .transferByte b => .host 0x04#5 { byte := b }
  | .readByte c => .host 0x05#5 { cont := c }
  | .sendCommand op => .host 0x08#5 { byte := op }
  | .writeEnable => .host 0x09#5 {}
  | .writeDisable => .host 0x0A#5 {}
  | .readStatus => .host 0x0B#5 {}
  | .readProductId => .host 0x0C#5 {}
  | .writeStatusRegister v => .host 0x0D#5 { byte := v }
  | .read a len => .host 0x0E#5 { addr := a, len := len }
  | .sectorErase a => .host 0x0F#5 { addr := a }
  | .chipErase => .host 0x10#5 {}
  | .program a len data => .host 0x11#5 { addr := a, len := len, din := data }
  | .hold => .host 0x12#5 {}
  | .resume => .host 0x13#5 {}
  | .frameAddress a => .internal (addressFrame a)

/-- The `n` bytes of a table word, the byte sent first in the highest bits, as R104 numbers a header. -/
def wordBytes : Nat → Nat → List Byte
  | 0, _ => []
  | n + 1, w => BitVec.ofNat 8 (w >>> (8 * n)) :: wordBytes n w

/-- Whether R112 assigns the host code `w`. -/
def hostCodeAssigned (w : Nat) : Bool :=
  w ≤ 0x05 || (0x08 ≤ w && w ≤ 0x13)

/-- The request that a word of spec/opcode_table.json stands for: 16 and 32 bits are wire headers, 24 bits the address
frame, up to 8 bits a host code where R112 assigns it and a one-byte wire header otherwise. The table gives WRDI and
`transferByte` the same word 0x04, and RDSR and `readByte` the same word 0x05; both are read as host codes (log 18). -/
def tableRequest (nbits w : Nat) : Option Request :=
  if nbits = 5 then some (.host (BitVec.ofNat 5 w) {})
  else if nbits = 8 then
    if hostCodeAssigned w then some (.host (BitVec.ofNat 5 w) {}) else some (.wire (wordBytes 1 w))
  else if nbits = 16 then some (.wire (wordBytes 2 w))
  else if nbits = 24 then some (.internal (wordBytes 3 w))
  else if nbits = 32 then some (.wire (wordBytes 4 w))
  else none

/-- The instruction the decoder reads from a table word. -/
def decodeTableWord (nbits w : Nat) : Option Instr :=
  match tableRequest nbits w with
  | none => none
  | some r =>
    match decode r with
    | .ok i => some i
    | .error _ => none

end Sys2Proof
end

