-- ==== Sys2Proof/Machine/State.lean ====
section
/-! DEFINITION. The machine's state as plain data (10_state.md; the chip as environment, 20_memory.md section 8). -/

namespace Sys2Proof.Machine

open Sys2Proof

/-- The chip-select flag (R22). -/
inductive ChipSelect where
  | released | asserted
deriving DecidableEq, Repr

/-- The hold/pause line (R25). -/
inductive HoldLine where
  | inactive | active
deriving DecidableEq, Repr

/-- The direction of the data-in line (R27, R40). -/
inductive MisoDirection where
  | unconfigured | input
deriving DecidableEq, Repr

/-- The unit of a wait: `delayMicros` or `delayMillis` (R245). -/
inductive DelayUnit where
  | us | ms
deriving DecidableEq, Repr

/-- One event of the wire trace (00_scope.md R12, R13). `true` is the high level, `false` the low level. -/
inductive Event where
  | sck (v : Bool)
  | mosi (v : Bool)
  | cs (v : ChipSelect)
  | hold (v : HoldLine)
  | sample (b : Bool)
  | wait (u : DelayUnit) (n : BitVec 32)
deriving DecidableEq, Repr

/-- The output pins with their stored levels, and the direction of the input (R22 to R27). -/
structure Pins where
  sck : Bool
  mosi : Bool
  cs : ChipSelect
  hold : HoldLine
  misoDir : MisoDirection
deriving DecidableEq, Repr

/-- The operand registers (R30). -/
structure OperandRegs where
  a : Addr
  l : Count
  b : Byte
  c : Bool
  k : BitVec 16
  din : List Byte
deriving DecidableEq, Repr

/-- The result registers (R31). -/
structure ResultRegs where
  rb : Byte
  rw : BitVec 16
  rn : Count
  dout : List Byte
deriving DecidableEq, Repr

/-- The timing registers (R32, R33): half period in microseconds, erase waits in milliseconds, byte-program wait in
microseconds. -/
structure TimingRegs where
  halfPeriod : BitVec 16
  tSe : BitVec 32
  tCe : BitVec 32
  tBp : BitVec 32
deriving DecidableEq, Repr

/-- The scratch registers of `transferByte` (R34): `sh_out`, `sh_in`, `bitcnt`. -/
structure ShiftRegs where
  out : Byte
  inp : Byte
  cnt : BitVec 3
deriving DecidableEq, Repr

/-- The conditions under which an operation is refused by the block itself (60_exceptions.md R231, X7 to X9). -/
inductive OpRefusal where
  /-- X9: a host code R112 does not assign -/
  | reservedCode (op : BitVec 5)
  /-- X8: an operation other than `init` and `configureClockPeriod` before `init` -/
  | notInitialised
  /-- X7: `configureClockPeriod(0)` -/
  | zeroFrequency
deriving DecidableEq, Repr

/-- The flash array: the cells something has written since the array last became unspecified, in rising order of
address, and the number of that moment. An unlisted address holds no value of the model's: it reads as the free value
`Config.chipCell epoch address` (log 6). -/
structure Memory where
  cells : List Host.Cell
  epoch : Nat
deriving DecidableEq, Repr

/-- The addressed commands (R103). -/
inductive AddressedCommand where
  | read | program | sectorErase
deriving DecidableEq, Repr

/-- The chip's command parser position (R75, R78, R90), following the formats of R100. -/
inductive Parser where
  /-- chip-select is released: no transaction is open -/
  | closed
  /-- a transaction has begun: the next byte is the opcode -/
  | opcode
  /-- WREN, WRDI or CHIP_ERASE received: the frame is complete -/
  | command (o : Opcode)
  /-- RDSR received: the chip supplies the status byte; `answered` once one byte has been supplied -/
  | status (answered : Bool)
  /-- RDID received: `given` of the two ID bytes have been supplied -/
  | ident (given : Nat)
  /-- WRSR received, and its value byte if it has come -/
  | statusWrite (v : Option Byte)
  /-- an addressed command received: the reserved address byte is next -/
  | address0 (cmd : AddressedCommand)
  /-- the high address byte is next -/
  | address1 (cmd : AddressedCommand)
  /-- the low address byte is next -/
  | address2 (cmd : AddressedCommand) (high : Byte)
  /-- READ and its address received: the chip supplies the byte at `next` -/
  | reading (next : Nat)
  /-- SECTOR_ERASE and its address received: the frame is complete -/
  | eraseReady (a : Addr)
  /-- PROGRAM and its address received, and data bytes, newest first -/
  | programming (a : Addr) (dataRev : List Byte)
  /-- desynchronised until the next release and select -/
  | desync
deriving DecidableEq, Repr

/-- What may keep the chip busy: an erase or a PROGRAM for a chip-defined time (R83, R84), a status write whose time the
spec does not give (R85, R86, R273), or something unknown in a chip whose state is unspecified (R233; log 7, 8). -/
inductive Mutation where
  | sectorErase | chipErase | program | statusWrite | unknown
deriving DecidableEq, Repr

/-- The flash chip as environment (R75, R90). It is no part of the block (R8); the block's rules never read it, and it
reaches the block only as sampled bits (R39). -/
structure Chip where
  array : Memory
  /-- the write-enable latch (R79) -/
  wel : Bool
  /-- the status bits other than the latch and busy (R80) -/
  statusOther : Byte
  /-- what may still be running (R86; log 8) -/
  busy : Option Mutation
  manufacturer : Byte
  device : Byte
  parser : Parser
  /-- how many bits of the current byte have been clocked, 0 to 8 -/
  bitCount : Nat
  /-- the bits taken from `mosi` in the current byte -/
  rx : Byte
  /-- the byte being supplied on `miso` -/
  tx : Byte
  /-- whether the chip keeps the contract R75 to R90; if not, every bit it supplies is a free value (log 4) -/
  conforming : Bool
  /-- the number of the next free value of the chip (log 5) -/
  draws : Nat
deriving DecidableEq, Repr

/-- Why the machine stops with a fault. The block itself raises none (R230). -/
inductive Fault where
  /-- Raised by `step` in a state whose `pc` names an operation: the block is inside an operation whose wait has not
  ended, accepts nothing and never finishes (R21, R247). Safe: no step of the model leads to such a state. -/
  | hung
deriving DecidableEq, Repr

/-- Why a step gives no meaning. -/
inductive Refusal where
  /-- Raised by `exec` for an instruction the model gives no meaning yet. Safe. -/
  | notModelled (mnemonic : String)
  /-- Raised by `step` for bytes that are no operation and no frame of R100 and that the block has no rule for: a malformed
  wire header or address frame (log 20). Safe. -/
  | malformedRequest (e : DecodeError)
deriving DecidableEq, Repr

/-- The machine. -/
structure State where
  /-- the parameters of this block and of its environment (R9): constants -/
  cfg : Config.Params
  /-- the operations the host is about to issue, next first (log 1) -/
  inbox : List Request
  /-- the refusals recorded so far, newest first (log 12) -/
  refusals : List OpRefusal
  /-- the wire trace of R13, newest event first (log 2) -/
  wireLog : List Event
  /-- the number of the block's next free value (log 19) -/
  draws : Nat
  /-- the sequencer position: the operation in progress, or none (R36) -/
  pc : Option Instr
  /-- whether `init` has been performed (R29) -/
  inited : Bool
  pins : Pins
  opr : OperandRegs
  res : ResultRegs
  tim : TimingRegs
  /-- the erase window buffer (R35) -/
  buf : List Byte
  sh : ShiftRegs
  /-- the chip on the far side of the pins -/
  chip : Chip
deriving DecidableEq, Repr

/-- The chip at the other end at reset (log 15): no array cell known, latch clear (R90), parser closed. -/
def Chip.reset (manufacturer device : Byte) : Chip where
  array := { cells := [], epoch := 0 }
  wel := false
  statusOther := 0#8
  busy := none
  manufacturer := manufacturer
  device := device
  parser := .closed
  bitCount := 0
  rx := 0#8
  tx := 0#8
  conforming := true
  draws := 1

/-- The state after hardware reset with parameters `p` (R40, R260, R261). What R40 calls unspecified holds the value
named in log 13. -/
def State.resetWith (p : Config.Params) : State where
  cfg := p
  inbox := []
  refusals := []
  wireLog := []
  draws := 0
  pc := none
  inited := false
  pins := { sck := false, mosi := false, cs := .released, hold := .inactive, misoDir := .unconfigured }
  opr := { a := 0#16, l := 0#17, b := 0#8, c := false, k := 0#16, din := [] }
  res := { rb := 0#8, rw := 0#16, rn := 0#17, dout := [] }
  tim := { halfPeriod := p.halfPeriodInit, tSe := p.tSectorErase, tCe := p.tChipErase, tBp := p.tByteProgram }
  buf := List.replicate p.window 0#8
  sh := { out := 0#8, inp := 0#8, cnt := 0#3 }
  chip := Chip.reset p.manufacturerCode 0x65#8

/-- The machine right after hardware reset, with the parameters of `Config.reference` (log 14). -/
def State.reset : State := State.resetWith Config.reference

end Sys2Proof.Machine
end

