-- ==== Sys2Proof/Machine/Chip.lean ====
section
/-! DEFINITION. The flash chip as environment: the array, the command parser, and the chip's reaction to the edges on
its pins (20_memory.md R75 to R90). -/

namespace Sys2Proof.Machine

open Sys2Proof

/-! ## The array -/

/-- The value listed for an address, if any. -/
def lookupCell (x : Nat) : List Host.Cell → Option Byte
  | [] => none
  | (y, b) :: rest => if x = y then some b else lookupCell x rest

/-- What an unlisted address reads as: no value of the model's but a free one (log 6). -/
def Memory.unlisted (m : Memory) (x : Nat) : Byte := Config.chipCell m.epoch x

/-- One byte of the array. -/
def Memory.read (m : Memory) (x : Nat) : Byte := (lookupCell x m.cells).getD (m.unlisted x)

/-- The cells of a run of bytes from address `lo` upward. -/
def cellRun (lo : Nat) : List Byte → List Host.Cell
  | [] => []
  | b :: bs => (lo, b) :: cellRun (lo + 1) bs

/-- The array with the bytes `bs` stored from address `lo` upward. -/
def Memory.write (m : Memory) (lo : Nat) (bs : List Byte) : Memory :=
  { m with cells := m.cells.filter (fun c => c.1 < lo) ++ (cellRun lo bs ++ m.cells.filter (fun c => lo + bs.length ≤ c.1)) }

/-- The canonical form: addresses strictly rising and inside the array. An unlisted address has no value of the model's,
so no entry can equal it. -/
abbrev Memory.wf (m : Memory) : Prop :=
  m.cells.Pairwise (fun c d => c.1 < d.1) ∧ ∀ c ∈ m.cells, c.1 < arraySize

/-- `floor(a / g) * g`: the start of the granule of size `g` that holds `a` (R16, R83). -/
def granuleStart (g a : Nat) : Nat := a / g * g

/-- `sector(a)` of R90: its start and its length inside the array. -/
def sectorOf (p : Config.Params) (a : Nat) : Nat × Nat :=
  (granuleStart p.sectorSize a, min p.sectorSize (arraySize - granuleStart p.sectorSize a))

/-- The array after an accepted SECTOR_ERASE: the chip's own sector, of size S_CHIP (R83, R195 d). -/
def Memory.eraseSector (p : Config.Params) (m : Memory) (a : Nat) : Memory :=
  m.write (sectorOf p a).1 (List.replicate (sectorOf p a).2 p.erased)

/-- The array after an accepted CHIP_ERASE (R83). -/
def Memory.eraseAll (p : Config.Params) (m : Memory) : Memory :=
  m.write 0 (List.replicate arraySize p.erased)

/-- The end of the erase window that holds `a` (R16). -/
def windowEnd (p : Config.Params) (a : Nat) : Nat := granuleStart p.window a + p.window

/-- What the cells from `a` upward hold after `data` is programmed into them: an erased cell takes the byte, another cell
takes a free value numbered from `d` (R84). -/
def programmedCells (p : Config.Params) (m : Memory) (d : Nat) : Nat → List Byte → List Byte
  | _, [] => []
  | a, b :: bs => (if m.read a = p.erased then b else Config.chipByte d) :: programmedCells p m (d + 1) (a + 1) bs

/-- The array with the bytes of the window of `a` as in `m`, and every other byte a free value numbered from `d`. -/
def Memory.keepWindow (p : Config.Params) (m : Memory) (d a : Nat) : Memory where
  cells := cellRun (granuleStart p.window a) ((List.range p.window).map fun k => m.read (granuleStart p.window a + k))
  epoch := d

/-- The array `m` as it is left once the window of `a` is restored: with W = S_CHIP as it is, and otherwise with any value
outside the restored window (R222, 93 U11; log 27). -/
def Memory.restored (p : Config.Params) (m : Memory) (d a : Nat) : Memory :=
  if p.sectorSize = p.window then m else m.keepWindow p d a

/-- The array after an accepted PROGRAM of `data` at `a` (R84, R90): a byte past the array or outside the window of `a`
makes the whole array unspecified. A chip whose granule is not W keeps nothing outside that window (log 27). -/
def Memory.program (p : Config.Params) (m : Memory) (d a : Nat) (data : List Byte) : Memory :=
  if a + data.length ≤ windowEnd p a ∧ a + data.length ≤ arraySize then
    (m.write a (programmedCells p m d a data)).restored p d a
  else { cells := [], epoch := d }

/-! ## The chip -/

/-- The chip's state becomes unspecified: everything it stores and whether it is busy take free values, and the parser is
desynchronised (R78, R90, R233; log 7). -/
def Chip.lose (c : Chip) : Chip :=
  { c with
    array := { cells := [], epoch := c.draws }
    wel := Config.chipBit c.draws
    statusOther := Config.chipByte c.draws
    busy := if Config.chipBit (c.draws + 1) then some .unknown else none
    manufacturer := Config.chipByte (c.draws + 1)
    device := Config.chipByte (c.draws + 2)
    parser := .desync
    draws := c.draws + 3 }

/-- The same for a chip that ends up with no transaction open. -/
def Chip.loseClosed (c : Chip) : Chip := { c.lose with parser := .closed, bitCount := 0 }

/-- The same between two operations: the chip is desynchronised while it is selected, and else has no transaction open. -/
def Chip.loseAt (cs : ChipSelect) (c : Chip) : Chip :=
  match cs with
  | .asserted => { c.lose with bitCount := 0 }
  | .released => c.loseClosed

/-- The status byte of a chip that is not busy (R80, R90). -/
def Chip.statusByte (p : Config.Params) (c : Chip) : Byte :=
  setBit (setBit c.statusOther p.welBit c.wel) p.busyBit false

/-- The byte supplied is a free value (R76). -/
def Chip.supplyFree (c : Chip) : Chip := { c with tx := Config.chipByte c.draws, draws := c.draws + 1 }

/-- The status byte is supplied. A chip that may still be busy shows a free byte with the busy bit set or, once it is
done, its status byte; which of the two is a free value (R86; 93 U14; log 8). -/
def Chip.supplyStatus (p : Config.Params) (c : Chip) : Chip :=
  match c.busy with
  | none => { c with tx := c.statusByte p }
  | some m =>
    { c with
      tx := if Config.chipBit c.draws then setBit (Config.chipByte c.draws) p.busyBit true else c.statusByte p
      busy := if Config.chipBit c.draws then some m else none
      draws := c.draws + 1 }

/-- What the chip supplies in the byte about to be clocked (R76, R81, R82): in a read phase the status byte, an ID byte
or the next array byte, at any other time a free value. -/
def Chip.latch (p : Config.Params) (c : Chip) : Chip :=
  if c.conforming then
    match c.parser with
    | .status _ => c.supplyStatus p
    | .ident 0 => { c with tx := c.manufacturer }
    | .ident 1 => { c with tx := c.device }
    | .reading a => if a < arraySize then { c with tx := c.array.read a } else c.supplyFree
    | _ => c.supplyFree
  else c.supplyFree

/-- The parser position after an opcode (R100). -/
def Parser.afterOpcode : Opcode → Parser
  | .wren => .command .wren
  | .wrdi => .command .wrdi
  | .chipErase => .command .chipErase
  | .rdsr => .status false
  | .rdid => .ident 0
  | .wrsr => .statusWrite none
  | .read => .address0 .read
  | .program => .address0 .program
  | .sectorErase => .address0 .sectorErase

/-- The parser position after a whole address frame. -/
def Parser.afterAddress (cmd : AddressedCommand) (a : Addr) : Parser :=
  match cmd with
  | .read => .reading a.toNat
  | .program => .programming a []
  | .sectorErase => .eraseReady a

/-- Whether a chip with this busy condition takes the opcode: a busy chip is only asked for its status (R86). -/
def opcodeTaken (busy : Option Mutation) (o : Opcode) : Bool :=
  o == .rdsr || busy.isNone

/-- The parser position after one more whole byte `b`, or none where the byte breaks the framing (R78, R90): a frame has the
bytes of its format in R100, one status byte after RDSR and W data bytes in PROGRAM included (log 26). -/
def Parser.next (w : Nat) (busy : Option Mutation) (b : Byte) : Parser → Option Parser
  | .closed => some .closed
  | .opcode =>
    match Opcode.ofByte b with
    | none => none
    | some o => if opcodeTaken busy o then some (Parser.afterOpcode o) else none
  | .command _ => none
  | .status answered => if answered then none else some (.status true)
  | .ident n => if n < 2 then some (.ident (n + 1)) else none
  | .statusWrite none => some (.statusWrite (some b))
  | .statusWrite (some _) => none
  | .address0 cmd => if b = 0x00#8 then some (.address1 cmd) else none
  | .address1 cmd => some (.address2 cmd b)
  | .address2 cmd h => some (Parser.afterAddress cmd (joinBytes h b))
  | .reading a => if a < arraySize then some (.reading (a + 1)) else none
  | .eraseReady _ => none
  | .programming a ds => if ds.length < w then some (.programming a (b :: ds)) else none
  | .desync => some .desync

/-- The chip after a whole byte `b` has come in. -/
def Chip.advance (p : Config.Params) (b : Byte) (c : Chip) : Chip :=
  match c.parser.next p.window c.busy b with
  | some q => { c with parser := q }
  | none => c.lose

/-- A mutating transaction has ended: with the latch set its effect on the array applies and the chip may be busy; the
latch is clear afterwards (R79, R90). -/
def Chip.mutate (m : Mutation) (array : Memory) (c : Chip) : Chip :=
  { c with
    array := if c.wel then array else c.array
    busy := if c.wel then some m else c.busy
    wel := false
    parser := .closed }

/-- The chip when chip-select is released after a whole number of bytes: the effect of a complete frame applies, any
other shape leaves the chip's state unspecified (R90), PROGRAM with fewer than W data bytes included (R78, R100; log 26). After
an accepted WRSR the chip may be busy for a time the spec does not give (R85, R86, R273; log 8). -/
def Chip.finish (p : Config.Params) (c : Chip) : Chip :=
  match c.parser with
  | .closed => c
  | .command .wren => { c with wel := true, parser := .closed }
  | .command .wrdi => { c with wel := false, parser := .closed }
  | .command .chipErase => c.mutate .chipErase (c.array.eraseAll p)
  | .status true => { c with parser := .closed }
  | .ident 2 => { c with parser := .closed }
  | .statusWrite (some v) =>
    { c with
      statusOther := if c.wel then Config.wrsrStatus c.statusOther v else c.statusOther
      busy := if c.wel then some .statusWrite else c.busy
      wel := false
      parser := .closed }
  | .reading _ => { c with parser := .closed }
  | .eraseReady a => c.mutate .sectorErase (c.array.eraseSector p a.toNat)
  | .programming a ds =>
    if ds.length = p.window then
      { c.mutate .program (c.array.program p c.draws a.toNat ds.reverse) with draws := c.draws + ds.length + 1 }
    else c.loseClosed
  | _ => c.loseClosed

/-- Whether the parser follows the clock: not between transactions and not while desynchronised. -/
def Chip.live (c : Chip) : Bool :=
  match c.parser with
  | .closed | .desync => false
  | _ => true

/-- A rising clock edge: the chip takes the bit on `mosi`, most significant first, and at the first edge of a byte puts
up the byte it supplies (R77). -/
def Chip.rise (p : Config.Params) (mosi : Bool) (c : Chip) : Chip :=
  if c.live then
    let c1 := if c.bitCount = 0 then c.latch p else c
    { c1 with rx := shiftIn c1.rx mosi, bitCount := c1.bitCount + 1 }
  else c

/-- A falling clock edge: after eight bits the byte is whole. -/
def Chip.fall (p : Config.Params) (c : Chip) : Chip :=
  if c.live && c.bitCount == 8 then { c.advance p c.rx with bitCount := 0 } else c

/-- The chip's reaction to the clock pin going from `old` to `new`. It follows edges only while it is selected (R77); an
edge while it is paused leaves its state unspecified (R87; log 7), and so does an edge while it is not selected, which only
a breach of the call discipline drives (R139 f, D18; log 11). -/
def Chip.onSck (p : Config.Params) (cs : ChipSelect) (hold : HoldLine) (old new mosi : Bool) (c : Chip) : Chip :=
  match cs, hold with
  | .released, _ => if old = new then c else c.loseClosed
  | .asserted, .active => if old = new then c else c.lose
  | .asserted, .inactive =>
    match old, new with
    | false, true => c.rise p mosi
    | true, false => c.fall p
    | _, _ => c

/-- The chip's reaction to the chip-select pin being written, `old` before and `new` after (R78). Selecting or releasing a
paused chip, and releasing it inside a byte, leave its state unspecified (R87, R90; log 7). A select inside an open
transaction makes no edge, but what follows it is a command begun without releasing the one before: the chip is
desynchronised from then on (R135 b, R161 b, R233, D18; log 11). Where the pin keeps
the released level there is no edge (R131 b, R137 a). -/
def Chip.onCs (p : Config.Params) (hold : HoldLine) (old new : ChipSelect) (c : Chip) : Chip :=
  match old, new with
  | .released, .asserted =>
    match hold with
    | .active => { c.lose with bitCount := 0 }
    | .inactive => { c with parser := .opcode, bitCount := 0 }
  | .asserted, .released =>
    if hold = .inactive ∧ c.bitCount = 0 then c.finish p
    else c.loseClosed
  | .asserted, .asserted => c.loseAt .asserted
  | .released, .released => c

/-- The level of `miso` at a sample, and the chip after it: the bit the chip has put up for the last rising edge, or a
free value where the chip is not following the clock (R76). -/
def Chip.onSample (cs : ChipSelect) (hold : HoldLine) (c : Chip) : Bool × Chip :=
  if cs = .asserted ∧ hold = .inactive ∧ c.live then (c.tx.getLsbD (8 - c.bitCount), c)
  else (Config.chipBit c.draws, { c with draws := c.draws + 1 })

/-- The mutation `m` is over: the wait for it has returned, and the configured wait covers the chip's latency
(R71, R88 a). -/
def Chip.settle (m : Mutation) (c : Chip) : Chip :=
  { c with busy := if c.busy = some m then none else c.busy }

/-- The chip has finished whatever it was doing (R273). -/
def Chip.settled (c : Chip) : Chip := { c with busy := none }

end Sys2Proof.Machine
end

