-- ==== Sys2Proof/Machine/Flags.lean ====
section
/-! DEFINITION. What the block's one-bit state means: the bus state machine, the pause, the handshake, and the electrical
levels of the pins (10_state.md R22, R28, R37, R41, R42). The block has no condition codes, no carry, zero or overflow
flag and no error flag (R37), so there is no flag computation beyond these. -/

namespace Sys2Proof.Machine

open Sys2Proof

/-- The two states of the bus state machine (R28). -/
inductive BusState where
  | idle | selected
deriving DecidableEq, Repr

/-- `Idle` when chip-select is released, `Selected` when it is asserted (R28). -/
def State.busState (s : State) : BusState :=
  match s.pins.cs with
  | .released => .idle
  | .asserted => .selected

/-- *Paused*: `Selected` with `hold = active` (R28). -/
def State.paused (s : State) : Bool :=
  s.pins.cs == .asserted && s.pins.hold == .active

/-- `Idle` and not held. -/
def State.atRest (s : State) : Bool := s.pins.cs == .released && s.pins.hold == .inactive

/-- `Selected` and not held. -/
def State.inTransaction (s : State) : Bool := s.pins.cs == .asserted && s.pins.hold == .inactive

/-- `cmd_ready`: the block accepts an operation exactly when no operation is in progress (R21, R42). -/
def State.cmdReady (s : State) : Bool := s.pc.isNone

/-- The electrical level of the chip-select pin (R9, R41, D15). -/
def State.csLevel (s : State) : Bool :=
  match s.pins.cs with
  | .asserted => s.cfg.csActiveLevel
  | .released => !s.cfg.csActiveLevel

/-- The electrical level of the hold pin (R9, R41, D15). -/
def State.holdLevel (s : State) : Bool :=
  match s.pins.hold with
  | .active => s.cfg.holdActiveLevel
  | .inactive => !s.cfg.holdActiveLevel

/-- Whether the product ID read last is of the configured chip family; the comparison is the host's, never the block's
(R171 b, R263). -/
def State.idMatches (s : State) : Bool := s.res.rw.extractLsb' 8 8 == s.cfg.manufacturerCode

end Sys2Proof.Machine
end

