-- ==== Sys2Proof/Machine/Operands.lean ====
section
/-! DEFINITION. Operands: how a request is fetched, how operands are latched, and the arithmetic on them
(10_state.md R30; 30_encoding.md R105; 40 R132; 41 R170; 42 R191; 43 R211, R215, R216). -/

namespace Sys2Proof.Machine

open Sys2Proof

/-- The next operation the host issues, and the state in which the host still has the rest to issue (R21; log 1). -/
def State.fetch (s : State) : Option (Request × State) :=
  match s.inbox with
  | [] => none
  | r :: rest => some (r, { s with inbox := rest })

/-- `s` with `r` as the operation the host issues next, and the block ready for it (log 1). -/
def State.withRequest (r : Request) (s : State) : State := { s with inbox := r :: s.inbox, pc := none }

/-- The operation `i` is in progress (R36). -/
def State.start (i : Instr) (s : State) : State := { s with pc := some i }

/-- The operation is finished and the block idle (R36). -/
def State.finish (s : State) : State := { s with pc := none }

/-- `A <- a`. -/
def State.latchA (a : Addr) (s : State) : State := { s with opr := { s.opr with a := a } }

/-- `B <- b`. -/
def State.latchB (b : Byte) (s : State) : State := { s with opr := { s.opr with b := b } }

/-- `C <- c`. -/
def State.latchC (c : Bool) (s : State) : State := { s with opr := { s.opr with c := c } }

/-- `K <- k`. -/
def State.latchK (k : BitVec 16) (s : State) : State := { s with opr := { s.opr with k := k } }

/-- `A <- a`, `L <- len`. -/
def State.latchAL (a : Addr) (len : Count) (s : State) : State := { s with opr := { s.opr with a := a, l := len } }

/-- `A <- a`, `L <- len`, and the data stream. -/
def State.latchALD (a : Addr) (len : Count) (data : List Byte) (s : State) : State :=
  { s with opr := { s.opr with a := a, l := len, din := data } }

/-- `max(1, floor(500 / K))` (R132). -/
def halfPeriodOf (k : BitVec 16) : BitVec 16 := BitVec.ofNat 16 (max 1 (500 / k.toNat))

/-- `(zext_16(b1) << 8) | zext_16(b2)` (R170). -/
def productId (b1 b2 : Byte) : BitVec 16 := (b1.setWidth 16 <<< 8) ||| b2.setWidth 16

/-- The clamp `min(length, 0x10000 - address)`, on natural numbers (R191). -/
def clampedLength (a : Addr) (len : Count) : Nat := min len.toNat (arraySize - a.toNat)

/-- `ws(a) = floor(a / W) * W` (R211), as a number. -/
def windowStart (p : Config.Params) (a : Addr) : Nat := granuleStart p.window a.toNat

/-- The window start as the 16-bit address that is framed (R211). -/
def windowStartAddr (p : Config.Params) (a : Addr) : Addr := BitVec.ofNat 16 (windowStart p a)

/-- `DIN[j]`; a free value where the stream holds no such byte (log 20). -/
def State.dinByte (s : State) (j : Nat) : Byte := (s.opr.din[j]?).getD (Config.dinByte s.draws j)

/-- `buf[k]`; a free value where the buffer holds no such byte (log 19). -/
def State.bufByte (s : State) (k : Nat) : Byte := (s.buf[k]?).getD (Config.bufByte s.draws k)

/-- `RW <- w`. -/
def State.withProductId (w : BitVec 16) (s : State) : State := { s with res := { s.res with rw := w } }

/-- `RN <- n`, and `DOUT` the bytes. -/
def State.withReadData (n : Nat) (bytes : List Byte) (s : State) : State :=
  { s with res := { s.res with rn := BitVec.ofNat 17 n, dout := bytes } }

/-- `buf <- bytes`. -/
def State.withBuffer (bytes : List Byte) (s : State) : State := { s with buf := bytes }

/-- The merged byte `m(i)` for flash address `i` of the window of `a` (R215). -/
def State.mergedByte (s : State) (a : Addr) (i : Nat) : Byte :=
  if a.toNat ≤ i ∧ i < a.toNat + s.opr.l.toNat then s.dinByte (i - a.toNat)
  else s.bufByte (i - windowStart s.cfg a)

/-- The W merged bytes, in increasing flash address (R215). -/
def State.mergedWindow (s : State) (a : Addr) : List Byte :=
  (List.range s.cfg.window).map (fun k => s.mergedByte a (windowStart s.cfg a + k))

/-- The program wait `t_bp * W`, in 32 bits (R216, R32). -/
def State.programWait (s : State) : BitVec 32 := s.tim.tBp * BitVec.ofNat 32 s.cfg.window

/-- The buffer's contents are unspecified from here on (R35, R210; log 19). -/
def State.forgetBuffer (s : State) : State :=
  { s with buf := (List.range s.cfg.window).map (Config.bufByte (s.draws + 1)), draws := s.draws + 2 }

end Sys2Proof.Machine
end

