-- ==== Sys2Proof/Machine/Ops.lean ====
section
/-! DEFINITION. The named operations over pins, buffer and registers that the meanings share (00_scope.md R12; the bodies
of 40_bus_primitives.md, 41 R160, R162, 42 R190). The block takes no exception and returns from none (60_exceptions.md
R230, R238, R239): its one abnormal outcome is an operation it refuses, `State.refuse`. -/

namespace Sys2Proof.Machine

open Sys2Proof

/-! ## Pins, samples and waits (R12) -/

/-- `pin.sck <- v`. -/
def State.pinSck (v : Bool) (s : State) : State :=
  { s with
    pins := { s.pins with sck := v }
    wireLog := .sck v :: s.wireLog
    chip := s.chip.onSck s.cfg s.pins.cs s.pins.hold s.pins.sck v s.pins.mosi }

/-- `pin.mosi <- v`. -/
def State.pinMosi (v : Bool) (s : State) : State :=
  { s with pins := { s.pins with mosi := v }, wireLog := .mosi v :: s.wireLog }

/-- `pin.cs <- v`. -/
def State.pinCs (v : ChipSelect) (s : State) : State :=
  { s with
    pins := { s.pins with cs := v }
    wireLog := .cs v :: s.wireLog
    chip := s.chip.onCs s.cfg s.pins.hold s.pins.cs v }

/-- `pin.hold <- v`. The chip reads the level; writing it does nothing else to the chip (R87). -/
def State.pinHold (v : HoldLine) (s : State) : State :=
  { s with
    pins := { s.pins with hold := v }
    wireLog := .hold v :: s.wireLog }

/-- `sh_in[k] <- Sample()`. -/
def State.sampleInto (k : Nat) (s : State) : State :=
  { s with
    sh := { s.sh with inp := setBit s.sh.inp k (s.chip.onSample s.pins.cs s.pins.hold).1 }
    wireLog := .sample (s.chip.onSample s.pins.cs s.pins.hold).1 :: s.wireLog
    chip := (s.chip.onSample s.pins.cs s.pins.hold).2 }

/-- `Wait(u, n)`: no pin and no register changes (R245). -/
def State.wait (u : DelayUnit) (n : BitVec 32) (s : State) : State := { s with wireLog := .wait u n :: s.wireLog }

/-- The blocking wait for the mutation `m`, after which the chip has finished it (R71, R88 a). -/
def State.latencyWait (m : Mutation) (u : DelayUnit) (n : BitVec 32) (s : State) : State :=
  { s.wait u n with chip := s.chip.settle m }

/-- The host lets time pass until the chip has finished: it is no operation, and nothing else changes (R273; log 8). -/
def State.hostWaits (s : State) : State := { s with chip := s.chip.settled }

/-- The operation that led to `s` was issued in breach of the call discipline, if `breach`, in a way that the pin edges alone
do not show: the chip's state is unspecified from then on (R266, D18; log 11). -/
def State.breachedIf (breach : Bool) (s : State) : State :=
  { s with chip := if breach then s.chip.loseAt s.pins.cs else s.chip }

/-! ## The bus operations (R134 to R140) -/

/-- The body of `select` (R134). -/
def State.doSelect (s : State) : State := (s.pinSck false).pinCs .asserted

/-- The body of `release` (R136). -/
def State.doRelease (s : State) : State := (s.pinSck false).pinCs .released

/-- One bit of `transferByte` (R138). -/
def State.shiftBit (k : Nat) (s : State) : State :=
  let s0 : State := { s with sh := { s.sh with cnt := BitVec.ofNat 3 k } }
  let s1 := (s0.pinSck false).pinMosi (s.sh.out.getLsbD k)
  let s2 := (s1.wait .us (s.tim.halfPeriod.setWidth 32)).pinSck true
  (s2.sampleInto k).wait .us (s.tim.halfPeriod.setWidth 32)

/-- The bits `n - 1` down to 0 of `transferByte` (R138). -/
def State.shiftBits : Nat → State → State
  | 0, s => s
  | n + 1, s => shiftBits n (s.shiftBit n)

/-- The body of `transferByte`: the in byte is left in `RB` (R138). -/
def State.doTransfer (out : Byte) (s : State) : State :=
  let s1 := State.shiftBits 8 { s with sh := { s.sh with out := out, inp := 0#8 } }
  let s2 := s1.pinSck false
  { s2 with res := { s2.res with rb := s2.sh.inp } }

/-- The body of `readByte` (R140). -/
def State.doReadByte (continuing : Bool) (s : State) : State :=
  if continuing then s.doTransfer s.cfg.dummy else (s.doTransfer s.cfg.dummy).doRelease

/-- `n` bytes of a continuation read, released after the last (R141 a, R190): the bytes and the state. -/
def State.doReadBytes : Nat → State → List Byte × State
  | 0, s => ([], s)
  | n + 1, s =>
    let s1 := s.doReadByte (decide (0 < n))
    let r := doReadBytes n s1
    (s1.res.rb :: r.1, r.2)

/-- The out bytes `bs`, one after the other. -/
def State.doSendBytes : List Byte → State → State
  | [], s => s
  | b :: bs, s => doSendBytes bs (s.doTransfer b)

/-! ## Shared bodies of the controller (R160 to R216) -/

/-- The body of `sendCommand` (R160). -/
def State.doCommand (op : Byte) (s : State) : State := s.doSelect.doTransfer op

/-- The body of `frameAddress` (R162). -/
def State.doFrameAddress (a : Addr) (s : State) : State := s.doSendBytes (addressFrame a)

/-- A command with no payload: the opcode and the release (formats OP). -/
def State.doPlainCommand (o : Opcode) (s : State) : State := (s.doCommand o.byte).doRelease

/-- The body of `readStatus` (R168). -/
def State.doReadStatus (s : State) : State := (s.doCommand Opcode.rdsr.byte).doReadByte false

/-- The body of `readProductId` (R170). -/
def State.doReadProductId (s : State) : State :=
  let s1 := (s.doCommand Opcode.rdid.byte).doReadByte true
  let s2 := s1.doReadByte false
  s2.withProductId (productId s1.res.rb s2.res.rb)

/-- The body of `writeStatusRegister` (R172). -/
def State.doWriteStatus (v : Byte) (s : State) : State := ((s.doCommand Opcode.wrsr.byte).doTransfer v).doRelease

/-- A READ transaction of `n` bytes from `a`: the bytes and the state; with no byte to read it is released after the
address (R190, D9). -/
def State.doReadTransaction (a : Addr) (n : Nat) (s : State) : List Byte × State :=
  let s1 := (s.doCommand Opcode.read.byte).doFrameAddress a
  if n = 0 then ([], s1.doRelease) else s1.doReadBytes n

/-- The body of `read` for a clamped length `n` (R190). -/
def State.doRead (a : Addr) (n : Nat) (s : State) : State :=
  let r := s.doReadTransaction a n
  r.2.withReadData n r.1

/-- The body of `sectorErase` (R194). -/
def State.doSectorErase (a : Addr) (s : State) : State :=
  let s1 := ((s.doCommand Opcode.sectorErase.byte).doFrameAddress a).doRelease
  s1.latencyWait .sectorErase .ms s1.tim.tSe

/-- The body of `chipErase` (R197). -/
def State.doChipErase (s : State) : State :=
  let s1 := s.doPlainCommand .chipErase
  s1.latencyWait .chipErase .ms s1.tim.tCe

/-- The PROGRAM transaction, steps 4 to 6 of `program` after the write-enable: the header with `a`, the W merged bytes, the
release and the program wait; the buffer is then free (R214 to R216, R35). -/
def State.doProgramTransaction (a : Addr) (s : State) : State :=
  let s1 := ((s.doCommand Opcode.program.byte).doFrameAddress a)
  let s2 := (s1.doSendBytes (s.mergedWindow a)).doRelease
  (s2.latencyWait .program .us s2.programWait).forgetBuffer

/-- Steps 1 and 2 of `program`: the window is read into the buffer (R211, R212). -/
def State.doReadWindow (a : Addr) (s : State) : State :=
  let r := s.doReadTransaction (windowStartAddr s.cfg a) s.cfg.window
  r.2.withBuffer r.1

/-- The body of `program` (R210). -/
def State.doProgram (a : Addr) (s : State) : State :=
  let s1 := s.doReadWindow a
  let s2 := (s1.doPlainCommand .wren).doSectorErase a
  (s2.doPlainCommand .wren).doProgramTransaction a

/-- The body of `init` (R130). -/
def State.doInit (s : State) : State :=
  let s1 := ((s.pinSck false).pinMosi true).pinCs .released
  let s2 : State := { s1 with pins := { s1.pins with misoDir := .input } }
  { s2.pinHold .inactive with inited := true }

/-! ## Refusing and running an operation -/

/-- The operation is refused: nothing is done, and the refusal is recorded (R12 `refuse`, R231; log 12). -/
def State.refuse (r : OpRefusal) (s : State) : State := { s with refusals := r :: s.refusals }

/-- An operation the block performs only once `init` has been performed (R29, X8): the operands are latched, the body
runs, and the block is idle again. -/
def State.operate (i : Instr) (latch body : State → State) (s : State) : Host.Outcome State Fault Refusal :=
  if s.inited then .next (body (latch (s.start i))).finish else .next (s.refuse .notInitialised)

/-- The same with no operands to latch. -/
def State.perform (i : Instr) (body : State → State) (s : State) : Host.Outcome State Fault Refusal :=
  s.operate i id body

end Sys2Proof.Machine
end

