-- ==== Sys2Proof/Machine/Array.lean ====
section
/-! DEFINITION. The meanings of the array operations and of `program` (42_array_access.md; 43_program_rmw.md). -/

namespace Sys2Proof.Machine

open Sys2Proof

/-- `read(address, length)` (R190, R191, R192). -/
def execRead (a : Addr) (len : Count) (s : State) : Host.Outcome State Fault Refusal :=
  s.operate (.read a len) (State.latchAL a len) (State.doRead a (clampedLength a len))

/-- `sectorErase(address)` (R194, R195). -/
def execSectorErase (a : Addr) (s : State) : Host.Outcome State Fault Refusal :=
  s.operate (.sectorErase a) (State.latchA a) (State.doSectorErase a)

/-- `chipErase()` (R197, R198). -/
def execChipErase (s : State) : Host.Outcome State Fault Refusal := s.perform .chipErase State.doChipErase

/-- `program(address, length, data)` (R210 to R220). -/
def execProgram (a : Addr) (len : Count) (data : List Byte) (s : State) : Host.Outcome State Fault Refusal :=
  s.operate (.program a len data) (State.latchALD a len data) (State.doProgram a)

end Sys2Proof.Machine
end

