-- ==== Sys2Proof/Machine/Bus.lean ====
section
/-! DEFINITION. The meanings of the bus operations and of the hold line (40_bus_primitives.md; 41 R180, R182). -/

namespace Sys2Proof.Machine

open Sys2Proof

/-- `init()` (R130, R131): the one operation, with `configureClockPeriod`, that needs no `init` before it. Inside an open
transaction it is a breach: the chip sees its transaction end and its state is unspecified (R131 c, R266, D18; log 11). -/
def execInit (s : State) : Host.Outcome State Fault Refusal :=
  .next ((s.start .init).doInit.breachedIf (s.pins.cs == .asserted)).finish

/-- `configureClockPeriod(K)` (R132): K = 0 is refused (X7); no bus access. -/
def execConfigureClockPeriod (k : BitVec 16) (s : State) : Host.Outcome State Fault Refusal :=
  if k = 0#16 then .next (s.refuse .zeroFrequency)
  else
    let s1 := (s.start (.configureClockPeriod k)).latchK k
    .next { s1 with tim := { s1.tim with halfPeriod := halfPeriodOf k } }.finish

/-- `select()` (R134). -/
def execSelect (s : State) : Host.Outcome State Fault Refusal := s.perform .select State.doSelect

/-- `release()` (R136). While `Idle` it is a breach: no level changes, and the chip's state is unspecified (R137 a, R266, D18;
log 11). -/
def execRelease (s : State) : Host.Outcome State Fault Refusal :=
  s.perform .release fun s => s.doRelease.breachedIf (s.pins.cs == .released)

/-- `transferByte(outByte)` (R138). -/
def execTransferByte (b : Byte) (s : State) : Host.Outcome State Fault Refusal :=
  s.operate (.transferByte b) (State.latchB b) (State.doTransfer b)

/-- `readByte(continuing)` (R140). Where the format of the open frame has an out byte the chip takes `DUMMY` as that byte (the
model's choice, log 11). -/
def execReadByte (c : Bool) (s : State) : Host.Outcome State Fault Refusal :=
  s.operate (.readByte c) (State.latchC c) (State.doReadByte c)

/-- `hold()` (R180): writes the `hold` pin only. While `Idle` or Paused it is a breach, and the chip's state is unspecified
(R181 c, d, R267, D18; log 11). -/
def execHold (s : State) : Host.Outcome State Fault Refusal :=
  s.perform .hold fun s => (s.pinHold .active).breachedIf (!s.inTransaction)

/-- `resume()` (R182): writes the `hold` pin only. While not Paused it is a breach, and the chip's state is unspecified
(R183 a, R267, D18; log 11). -/
def execResume (s : State) : Host.Outcome State Fault Refusal :=
  s.perform .resume fun s => (s.pinHold .inactive).breachedIf (!s.paused)

end Sys2Proof.Machine
end

