-- ==== Sys2Proof/Machine/Command.lean ====
section
/-! DEFINITION. The meanings of the controller operations without array access (41_flash_commands.md R160 to R173). -/

namespace Sys2Proof.Machine

open Sys2Proof

/-- `sendCommand(opcode)` (R160): any byte is sent, the transaction stays open (R161 a, c). Inside an open transaction, and
with a byte that is none of the nine opcodes, it leaves the chip's state unspecified (R107, R161 b, D18; log 11). -/
def execSendCommand (op : Byte) (s : State) : Host.Outcome State Fault Refusal :=
  s.operate (.sendCommand op) (State.latchB op) (State.doCommand op)

/-- `writeEnable()` (R164). -/
def execWriteEnable (s : State) : Host.Outcome State Fault Refusal := s.perform .writeEnable (State.doPlainCommand .wren)

/-- `writeDisable()`: one transaction, no WREN before it (R166, R167). -/
def execWriteDisable (s : State) : Host.Outcome State Fault Refusal :=
  s.perform .writeDisable (State.doPlainCommand .wrdi)

/-- `readStatus()` (R168). -/
def execReadStatus (s : State) : Host.Outcome State Fault Refusal := s.perform .readStatus State.doReadStatus

/-- `readProductId()` (R170). -/
def execReadProductId (s : State) : Host.Outcome State Fault Refusal := s.perform .readProductId State.doReadProductId

/-- `writeStatusRegister(value)` (R172): no wait follows. -/
def execWriteStatusRegister (v : Byte) (s : State) : Host.Outcome State Fault Refusal :=
  s.operate (.writeStatusRegister v) (State.latchB v) (State.doWriteStatus v)

/-- `frameAddress(address)`, the internal helper, as an instruction of its own (R162; log 17). -/
def execFrameAddress (a : Addr) (s : State) : Host.Outcome State Fault Refusal :=
  s.perform (.frameAddress a) (State.doFrameAddress a)

end Sys2Proof.Machine
end

