-- ==== Sys2Proof/Machine/Wire.lean ====
section
/-! DEFINITION. The meanings of the nine wire opcodes: each is the whole transaction of its format, with the wait its
rule puts after it, and latches no operand (30_encoding.md R100 to R104; log 16). -/

namespace Sys2Proof.Machine

open Sys2Proof

/-- WREN, format OP (R100, R164). -/
def execWrenFrame (s : State) : Host.Outcome State Fault Refusal := s.perform .wrenFrame (State.doPlainCommand .wren)

/-- WRDI, format OP (R100, R166). -/
def execWrdiFrame (s : State) : Host.Outcome State Fault Refusal := s.perform .wrdiFrame (State.doPlainCommand .wrdi)

/-- RDSR, format OP_R1 (R100, R168). -/
def execRdsrFrame (s : State) : Host.Outcome State Fault Refusal := s.perform .rdsrFrame State.doReadStatus

/-- WRSR, format OP_W1 (R100, R172). -/
def execWrsrFrame (v : Byte) (s : State) : Host.Outcome State Fault Refusal :=
  s.perform (.wrsrFrame v) (State.doWriteStatus v)

/-- READ, format OPA_Rn, with n the clamp of the length register; the bytes go where `read` leaves them, in `RN` and `DOUT`
(R100, R190, R191; the source of n and the place of the bytes are the model's choice, log 16). -/
def execReadFrame (a : Addr) (s : State) : Host.Outcome State Fault Refusal :=
  s.perform (.readFrame a) (State.doRead a (clampedLength a s.opr.l))

/-- PROGRAM, format OPA_WW, with the merged window as its W out bytes (R100, R214 to R216). -/
def execProgramFrame (a : Addr) (s : State) : Host.Outcome State Fault Refusal :=
  s.perform (.programFrame a) (State.doProgramTransaction a)

/-- SECTOR_ERASE, format OPA (R100, R194). -/
def execSectorEraseFrame (a : Addr) (s : State) : Host.Outcome State Fault Refusal :=
  s.perform (.sectorEraseFrame a) (State.doSectorErase a)

/-- CHIP_ERASE, format OP (R100, R197). -/
def execChipEraseFrame (s : State) : Host.Outcome State Fault Refusal := s.perform .chipEraseFrame State.doChipErase

/-- RDID, format OP_R2; the ID goes where `readProductId` leaves it, in `RW` (R100, R170; the place is the model's choice,
log 16). -/
def execRdidFrame (s : State) : Host.Outcome State Fault Refusal := s.perform .rdidFrame State.doReadProductId

end Sys2Proof.Machine
end

