-- ==== Sys2Proof/Machine/Dispatch.lean ====
section
/-! DEFINITION. One arm per instruction. -/

namespace Sys2Proof.Machine

open Sys2Proof

/-- What an instruction does. -/
def exec (i : Instr) (s : State) : Host.Outcome State Fault Refusal :=
  match i with
  -- the nine wire transactions
  | .wrenFrame => Sys2Proof.Machine.execWrenFrame s
  | .wrdiFrame => Sys2Proof.Machine.execWrdiFrame s
  | .rdsrFrame => Sys2Proof.Machine.execRdsrFrame s
  | .wrsrFrame v => Sys2Proof.Machine.execWrsrFrame v s
  | .readFrame a => Sys2Proof.Machine.execReadFrame a s
  | .programFrame a => Sys2Proof.Machine.execProgramFrame a s
  | .sectorEraseFrame a => Sys2Proof.Machine.execSectorEraseFrame a s
  | .chipEraseFrame => Sys2Proof.Machine.execChipEraseFrame s
  | .rdidFrame => Sys2Proof.Machine.execRdidFrame s
  -- the eighteen host operations
  | .init => Sys2Proof.Machine.execInit s
  | .configureClockPeriod k => Sys2Proof.Machine.execConfigureClockPeriod k s
  | .select => Sys2Proof.Machine.execSelect s
  | .release => Sys2Proof.Machine.execRelease s
  | .transferByte b => Sys2Proof.Machine.execTransferByte b s
  | .readByte c => Sys2Proof.Machine.execReadByte c s
  | .sendCommand op => Sys2Proof.Machine.execSendCommand op s
  | .writeEnable => Sys2Proof.Machine.execWriteEnable s
  | .writeDisable => Sys2Proof.Machine.execWriteDisable s
  | .readStatus => Sys2Proof.Machine.execReadStatus s
  | .readProductId => Sys2Proof.Machine.execReadProductId s
  | .writeStatusRegister v => Sys2Proof.Machine.execWriteStatusRegister v s
  | .read a len => Sys2Proof.Machine.execRead a len s
  | .sectorErase a => Sys2Proof.Machine.execSectorErase a s
  | .chipErase => Sys2Proof.Machine.execChipErase s
  | .program a len data => Sys2Proof.Machine.execProgram a len data s
  | .hold => Sys2Proof.Machine.execHold s
  | .resume => Sys2Proof.Machine.execResume s
  -- the internal helper
  | .frameAddress a => Sys2Proof.Machine.execFrameAddress a s

end Sys2Proof.Machine
end

