-- ==== Sys2Proof/Machine/Step.lean ====
section
/-! DEFINITION. One step of the machine: one operation of the host, from its request to its end (10_state.md R21; 92 D26). -/

namespace Sys2Proof.Machine

open Sys2Proof

/-- What the machine does with a request: an instruction runs, a reserved host code is refused with nothing done (R113, X9),
a wait of the host only lets the chip finish (R273), and bytes that are no frame have no meaning (log 20). -/
def accept (r : Request) (s : State) : Host.Outcome State Fault Refusal :=
  match decode r with
  | .ok i => exec i s
  | .error (.reservedHostCode op) => .next (s.refuse (.reservedCode op))
  | .error .noOperation => .next s.hostWaits
  | .error e => .refused (.malformedRequest e)

/-- One step. A block that is idle takes the next operation of the host, if there is one, and otherwise holds its pins
(R21, R250). A block whose `pc` names an operation is hung in it (R247). -/
def step (s : State) : Host.Outcome State Fault Refusal :=
  if s.cmdReady then
    match s.fetch with
    | none => .next s
    | some (r, s1) => accept r s1
  else .fault .hung

/-- `s` with the instruction of a table word as what `step` runs next. -/
def State.withFetchWord (s : State) (nbits w : Nat) : State :=
  match tableRequest nbits w with
  | some r => s.withRequest r
  | none => s

end Sys2Proof.Machine
end

