-- ==== Sys2Proof/Machine/Trace.lean ====
section
/-! DEFINITION. The two traces of 00_scope.md R13: the wire trace kept by the machine, and the byte trace as what the wire
trace abbreviates. -/

namespace Sys2Proof.Machine

open Sys2Proof

/-- One event of the byte trace (R13). -/
inductive ByteEvent where
  /-- the two events of `select()` -/
  | sel
  /-- the two events of `release()` -/
  | rel
  /-- the 49 events of one `transferByte(out)` that returned `inp` -/
  | x (out inp : Byte)
  | hold
  | resume
  | waitUs (n : BitVec 32)
  | waitMs (n : BitVec 32)
deriving DecidableEq, Repr

/-- The six events of bit `k` of one transferred byte (R138). -/
def bitEvents (h : BitVec 16) (out inp : Byte) (k : Nat) : List Event :=
  [.sck false, .mosi (out.getLsbD k), .wait .us (h.setWidth 32), .sck true, .sample (inp.getLsbD k),
    .wait .us (h.setWidth 32)]

/-- The wire events one byte-trace event stands for, at half period `h` (R13, R138). -/
def ByteEvent.expand (h : BitVec 16) : ByteEvent → List Event
  | .sel => [.sck false, .cs .asserted]
  | .rel => [.sck false, .cs .released]
  | .x out inp =>
    bitEvents h out inp 7 ++ bitEvents h out inp 6 ++ bitEvents h out inp 5 ++ bitEvents h out inp 4 ++
      bitEvents h out inp 3 ++ bitEvents h out inp 2 ++ bitEvents h out inp 1 ++ bitEvents h out inp 0 ++ [.sck false]
  | .hold => [.hold .active]
  | .resume => [.hold .inactive]
  | .waitUs n => [.wait .us n]
  | .waitMs n => [.wait .ms n]

/-- The wire events of a byte trace. -/
def expandTrace (h : BitVec 16) : List ByteEvent → List Event
  | [] => []
  | e :: es => e.expand h ++ expandTrace h es

/-- The wire trace so far, oldest event first. -/
def State.wireTrace (s : State) : List Event := s.wireLog.reverse

/-- The wire log of `s` extended by a byte trace at the half period of `s`. -/
def State.logged (s : State) (es : List ByteEvent) : List Event := (expandTrace s.tim.halfPeriod es).reverse ++ s.wireLog

/-- `s` after bus activity that moved no byte: the byte trace `es` logged, the clock low, chip-select at `cs`, and the chip
`chip`. -/
def State.afterEdges (s : State) (es : List ByteEvent) (cs : ChipSelect) (chip : Chip) : State :=
  { s with wireLog := s.logged es, pins := { s.pins with sck := false, cs := cs }, chip := chip }

/-- `s` after bus activity whose last byte moved was `out`, with `inp` sampled during it: besides what `afterEdges` says,
`mosi` is bit 0 of `out` (R24, R139 c), the scratch registers hold `out` and `inp` (R34) and `RB` holds `inp` (R31). -/
def State.afterBytes (s : State) (es : List ByteEvent) (cs : ChipSelect) (out inp : Byte) (chip : Chip) : State :=
  { s with
    wireLog := s.logged es
    pins := { s.pins with sck := false, mosi := out.getLsbD 0, cs := cs }
    sh := { out := out, inp := inp, cnt := 0#3 }
    res := { s.res with rb := inp }
    chip := chip }

/-- The events of sending `outs` where the bytes sampled were `ins`. -/
def exchanges : List Byte → List Byte → List ByteEvent
  | o :: os, i :: is => .x o i :: exchanges os is
  | _, _ => []

/-- The byte trace of `readByte` (R140). -/
def readByteTrace (continuing : Bool) (out inp : Byte) : List ByteEvent :=
  if continuing then [.x out inp] else [.x out inp, .rel]

/-- The last byte of a list, for the registers that keep it. -/
def lastByte (bs : List Byte) : Byte := bs.getLastD 0#8

/-- The byte trace of reading the bytes `ins` to the end of the transaction. -/
def readTrace (dummy : Byte) (ins : List Byte) : List ByteEvent := ins.map (ByteEvent.x dummy) ++ [.rel]

/-- The header bytes of an addressed command as out bytes, with the sampled bytes `i`, `j`, `k`, `l` (R104). -/
def headerTrace (op : Byte) (a : Addr) (i j k l : Byte) : List ByteEvent :=
  [.sel, .x op i, .x 0x00#8 j, .x (hiByte a) k, .x (loByte a) l]

/-- The byte trace of a READ transaction (R190). -/
def readFrameTrace (dummy : Byte) (a : Addr) (i j k l : Byte) (ins : List Byte) : List ByteEvent :=
  headerTrace 0x03#8 a i j k l ++ readTrace dummy ins

/-- The byte trace of a command with no payload (R164, R166). -/
def plainTrace (op i : Byte) : List ByteEvent := [.sel, .x op i, .rel]

/-- The byte trace of a SECTOR_ERASE transaction with its wait (R194). -/
def eraseTrace (a : Addr) (i j k l : Byte) (t : BitVec 32) : List ByteEvent :=
  headerTrace 0x52#8 a i j k l ++ [.rel, .waitMs t]

/-- The byte trace of a PROGRAM transaction with its wait (R214 to R216): `ms` sent while `outs` were sampled. -/
def programFrameTrace (a : Addr) (i j k l : Byte) (ms outs : List Byte) (t : BitVec 32) : List ByteEvent :=
  headerTrace 0x02#8 a i j k l ++ exchanges ms outs ++ [.rel, .waitUs t]

/-- What the registers keep of a READ transaction that read `ins` after a header ending in `l`. -/
def readLast (a : Addr) (l dummy : Byte) : List Byte → Byte × Byte
  | [] => (loByte a, l)
  | i :: is => (dummy, lastByte (i :: is))

end Sys2Proof.Machine
end

