-- ==== Sys2Proof/Safety.lean ====
section
/-! DEFINITION. What counts as a sound configuration, an ordinary state, a well sequenced host and a clean wire trace
(00_scope.md R9; 10_state.md R22, R23, R32 to R35; 70_reset_and_hazards.md R266 to R274). -/

namespace Sys2Proof

/-- The constraints the spec puts on the parameters: a half period of at least one unit, a program wait that fits 32 bits,
a chip-erase wait larger than the sector-erase wait, a non-empty sector, two different status bits (R9, R32, R279). -/
abbrev Config.Params.wf (p : Config.Params) : Prop :=
  1 ≤ p.halfPeriodInit.toNat ∧ p.tByteProgram.toNat * p.window < 2 ^ 32 ∧ p.tSectorErase.toNat < p.tChipErase.toNat ∧
    0 < p.sectorSize ∧ p.busyBit ≠ p.welBit

/-- The configuration matches the chip in its erase granule: W = S_CHIP (R89, R274). -/
abbrev Config.Params.granuleMatches (p : Config.Params) : Prop := p.sectorSize = p.window

/-- The address is a multiple of W (R272). -/
abbrev Config.Params.aligned (p : Config.Params) (a : Addr) : Prop := a.toNat % p.window = 0

/-- The operand ports an operation latches, the others at zero: the table of R112. -/
def HostPorts.latchedBy (p : HostPorts) : Instr → HostPorts
  | .configureClockPeriod _ => { khz := p.khz }
  | .transferByte _ | .sendCommand _ | .writeStatusRegister _ => { byte := p.byte }
  | .readByte _ => { cont := p.cont }
  | .read _ _ => { addr := p.addr, len := p.len }
  | .sectorErase _ => { addr := p.addr }
  | .program _ _ _ => { addr := p.addr, len := p.len, din := p.din }
  | _ => {}

namespace Machine

/-! ## Ordinary states -/

/-- The bounds of a parser position: no more than two ID bytes, no array address past the end (R81, R82). -/
def Parser.bounded : Parser → Bool
  | .ident n => n ≤ 2
  | .reading a => a ≤ arraySize
  | _ => true

/-- What holds of the machine between operations. -/
structure State.Inv (s : State) : Prop where
  /-- no operation is in progress (R21, R36) -/
  idle : s.pc = none
  /-- the clock is low (R23) -/
  clockLow : s.pins.sck = false
  /-- the half period is at least one unit (R33) -/
  halfPeriodPos : 1 ≤ s.tim.halfPeriod.toNat
  /-- the program wait fits 32 bits (R32) -/
  programWaitFits : s.tim.tBp.toNat * s.cfg.window < 2 ^ 32
  /-- the buffer has W bytes (R35) -/
  bufferLength : s.buf.length = s.cfg.window
  /-- `DOUT` has `RN` bytes (R31) -/
  doutLength : s.res.dout.length = s.res.rn.toNat
  /-- the array is in canonical form -/
  arrayWf : s.chip.array.wf
  /-- a free value of the chip is never drawn twice -/
  arrayFresh : s.chip.array.epoch < s.chip.draws
  /-- the chip stands at a byte boundary (R181 a) -/
  byteBoundary : s.chip.bitCount = 0
  /-- a transaction is open exactly while chip-select is asserted (R78) -/
  parserFollowsCs : s.chip.parser = .closed ↔ s.pins.cs = .released
  parserBounded : s.chip.parser.bounded = true

/-- The block is initialised and idle on the bus, with a chip that keeps its contract, is not busy and has no transaction
open: the state the discipline preconditions of the controller operations ask for (R14, R164, R190). -/
structure State.Ready (s : State) : Prop where
  inited : s.inited = true
  clockLow : s.pins.sck = false
  busIdle : s.pins.cs = .released
  notHeld : s.pins.hold = .inactive
  conforming : s.chip.conforming = true
  notBusy : s.chip.busy = none
  closed : s.chip.parser = .closed
  byteBoundary : s.chip.bitCount = 0

/-! ## The call discipline (R266 to R274) -/

/-- The chip follows the block's transactions: it is not desynchronised, stands at a byte boundary, has a transaction open
exactly while chip-select is asserted, and is not paused outside one. -/
structure State.InSync (s : State) : Prop where
  inited : s.inited = true
  clockLow : s.pins.sck = false
  byteBoundary : s.chip.bitCount = 0
  synchronised : s.chip.parser ≠ .desync
  parserFollowsCs : s.chip.parser = .closed ↔ s.pins.cs = .released
  heldOnlySelected : s.pins.cs = .released → s.pins.hold = .inactive
  parserBounded : s.chip.parser.bounded = true
  /-- an open PROGRAM frame is aimed at a window start (R272) -/
  programmingAligned : ∀ a ds, s.chip.parser = .programming a ds → s.cfg.aligned a

/-- The frame received so far is a whole frame of R100; a PROGRAM frame has exactly W data bytes. -/
def Parser.complete (p : Config.Params) : Parser → Bool
  | .command .wren | .command .wrdi | .command .chipErase => true
  | .status answered => answered
  | .ident n => n == 2
  | .statusWrite v => v.isSome
  | .reading _ => true
  | .eraseReady _ => true
  | .programming _ ds => ds.length == p.window
  | _ => false

/-- `b` is a legal next out byte of the frame (R270): one of the nine opcodes, a 0x00 before the address, an address byte
(of a window-aligned address for PROGRAM, R272), a status value, one of W data bytes, or `DUMMY` where the format has an in
byte (R106). A busy chip is only asked for its status (R273). -/
def Parser.takesOut (p : Config.Params) (busy : Option Mutation) (b : Byte) : Parser → Bool
  | .opcode => (Opcode.ofByte b).any (opcodeTaken busy)
  | .statusWrite none => true
  | .address0 _ => b == 0x00#8
  | .address1 _ => true
  | .address2 .program h => (joinBytes h b).toNat % p.window == 0
  | .address2 _ _ => true
  | .programming _ ds => decide (ds.length < p.window)
  | .status answered => !answered && b == p.dummy
  | .ident n => decide (n < 2) && b == p.dummy
  | .reading a => decide (a < arraySize) && b == p.dummy
  | _ => false

/-- An in byte is next (R140; one status byte, two ID bytes, R100), and with `continuing` false the frame is whole after
it. A `readByte` where the format has an out byte is outside the discipline; what the chip makes of it is log 11. -/
def Parser.givesIn (continuing : Bool) : Parser → Bool
  | .status answered => !answered
  | .ident n => n == 1 || (n == 0 && continuing)
  | .reading a => decide (a < arraySize)
  | _ => false

/-- The operation keeps rules R267, R268, R270, R272 and R273 in the state `s`. Rule R271, which is about the transaction
before, is `writeEnableKept` below; rule R269 is about how a run ends. -/
def disciplined (i : Instr) (s : State) : Bool :=
  match i with
  | .init => s.atRest
  | .configureClockPeriod k => k != 0#16
  | .select => s.atRest
  | .release => s.inTransaction && s.chip.parser.complete s.cfg
  | .transferByte b => s.inTransaction && s.chip.parser.takesOut s.cfg s.chip.busy b
  | .readByte c => s.inTransaction && s.chip.parser.givesIn c
  | .sendCommand op => s.atRest && (Opcode.ofByte op).any (opcodeTaken s.chip.busy)
  | .hold => s.inTransaction
  | .resume => s.paused
  | .readStatus | .rdsrFrame => s.atRest
  | .writeEnable | .writeDisable | .readProductId | .writeStatusRegister _ | .sectorErase _ | .chipErase
  | .wrenFrame | .wrdiFrame | .rdidFrame | .wrsrFrame _ | .sectorEraseFrame _ | .chipEraseFrame =>
    s.atRest && s.chip.busy.isNone
  | .read _ len => s.atRest && s.chip.busy.isNone && len != 0#17
  | .readFrame _ => s.atRest && s.chip.busy.isNone
  | .program a _ _ | .programFrame a => s.atRest && s.chip.busy.isNone && a.toNat % s.cfg.window == 0
  | .frameAddress a =>
    s.inTransaction &&
      match s.chip.parser with
      | .address0 .program => a.toNat % s.cfg.window == 0
      | .address0 _ => true
      | _ => false

/-- The out bytes of each transaction of a byte trace, in order; `cur` are those of the open one, newest first. -/
def transactions : List Byte → List ByteEvent → List (List Byte)
  | _, [] => []
  | _, .sel :: es => transactions [] es
  | cur, .rel :: es => cur.reverse :: transactions [] es
  | cur, .x o _ :: es => transactions (o :: cur) es
  | cur, _ :: es => transactions cur es

/-- The mutating opcodes of R102. -/
def mutatingOpcode (b : Byte) : Bool := b == 0x01#8 || b == 0x02#8 || b == 0x52#8 || b == 0x62#8

/-- Every mutating transaction stands immediately after a WREN transaction (R165, R271); `enabled` says whether the
transaction before the list was one. -/
def writeEnableKept (enabled : Bool) : List (List Byte) → Bool
  | [] => true
  | t :: ts => (!(t.head?.any mutatingOpcode) || enabled) && writeEnableKept (t == [0x06#8]) ts

/-! ## The shape of the wire trace (R22, R23, R139 b) -/

/-- The level of the clock at the end of a stretch of the wire trace, or none if in it the data-out line or chip-select
changed while the clock was high, or the data-in line was sampled while it was low. -/
def clockAfter : Bool → List Event → Option Bool
  | sck, [] => some sck
  | _, .sck v :: es => clockAfter v es
  | sck, .mosi _ :: es => if sck then none else clockAfter sck es
  | sck, .cs _ :: es => if sck then none else clockAfter sck es
  | sck, .sample _ :: es => if sck then clockAfter sck es else none
  | sck, _ :: es => clockAfter sck es

/-- In a stretch of the wire trace that begins with chip-select at `cs`, the clock goes high only while chip-select is
asserted (R22 a). -/
def clockOnlySelected : ChipSelect → List Event → Bool
  | _, [] => true
  | cs, .sck v :: es => (!v || cs == .asserted) && clockOnlySelected cs es
  | _, .cs v :: es => clockOnlySelected v es
  | cs, _ :: es => clockOnlySelected cs es

/-! ## Words the statements use -/

/-- Every byte of the array reads in `d` as in `c`. -/
abbrev Chip.ArrayKept (c d : Chip) : Prop := ∀ x, d.array.read x = c.array.read x

/-- Everything the chip stores is in `d` as in `c`: every byte of the array, the latch, the other status bits. -/
structure Chip.StoreKept (c d : Chip) : Prop where
  array : c.ArrayKept d
  wel : d.wel = c.wel
  statusOther : d.statusOther = c.statusOther

/-- `d` is the same chip as `c`, not busy, with no transaction open. -/
structure Chip.Rested (c d : Chip) : Prop where
  notBusy : d.busy = none
  closed : d.parser = .closed
  byteBoundary : d.bitCount = 0
  conforming : d.conforming = c.conforming
  manufacturer : d.manufacturer = c.manufacturer
  device : d.device = c.device

/-- A transaction is open, the chip follows it and stands at a byte boundary, and the block is not held. -/
structure State.InFrame (s : State) : Prop where
  inited : s.inited = true
  clockLow : s.pins.sck = false
  selected : s.pins.cs = .asserted
  notHeld : s.pins.hold = .inactive
  byteBoundary : s.chip.bitCount = 0
  opened : s.chip.parser ≠ .closed
  synchronised : s.chip.parser ≠ .desync

/-- The operand registers after an operation is accepted: the table of R112. The wire frames and `frameAddress` latch none
(log 16, 17). -/
def operandsAfter (r : OperandRegs) : Instr → OperandRegs
  | .configureClockPeriod k => { r with k := k }
  | .transferByte b | .sendCommand b | .writeStatusRegister b => { r with b := b }
  | .readByte c => { r with c := c }
  | .read a len => { r with a := a, l := len }
  | .sectorErase a => { r with a := a }
  | .program a len data => { r with a := a, l := len, din := data }
  | .init | .select | .release | .writeEnable | .writeDisable | .readStatus | .readProductId | .chipErase | .hold
  | .resume | .wrenFrame | .wrdiFrame | .rdsrFrame | .wrsrFrame _ | .readFrame _ | .programFrame _ | .sectorEraseFrame _
  | .chipEraseFrame | .rdidFrame | .frameAddress _ => r

/-- The operations that move a byte on the wire, the ones that write `RB` (R31). -/
def movesByte : Instr → Bool
  | .init | .configureClockPeriod _ | .select | .release | .hold | .resume => false
  | _ => true

/-- The operations whose first act on the wire is `select`: `select` itself, `sendCommand`, and every operation built on it
(R268). -/
def beginsTransaction : Instr → Bool
  | .init | .configureClockPeriod _ | .release | .transferByte _ | .readByte _ | .hold | .resume | .frameAddress _ => false
  | _ => true

/-- The mutating commands as operations and as wire frames; `program` has its own WREN and is none of them (R102, R165). -/
def mutates : Instr → Bool
  | .writeStatusRegister _ | .sectorErase _ | .chipErase | .wrsrFrame _ | .sectorEraseFrame _ | .chipEraseFrame
  | .programFrame _ => true
  | _ => false

/-- Nothing is known of the array, and what it holds is numbered from `n` on (R84, R90, R233). -/
structure Chip.ArrayLost (n : Nat) (c : Chip) : Prop where
  cells : c.array.cells = []
  since : n ≤ c.array.epoch

/-- Nothing is known of the array outside the addresses from `lo` to before `hi`, and what it holds there is numbered from
`n` on (93 U11). -/
structure Chip.KnownOnly (lo hi n : Nat) (c : Chip) : Prop where
  cells : ∀ x ∈ c.array.cells, lo ≤ x.1 ∧ x.1 < hi
  since : n ≤ c.array.epoch

/-- The bus state after an operation of the bus layer begun in the bus state `b`: the table of R142. -/
def busStateAfter (b : BusState) : Instr → BusState
  | .init | .release | .readByte false => .idle
  | .select => .selected
  | _ => b

/-- A wire event with the sampled bit blanked out. -/
def maskSample : Event → Event
  | .sample _ => .sample false
  | e => e

/-- The requested waits of a stretch of the wire trace, in microseconds and in milliseconds. -/
def waitTotal : List Event → Nat × Nat
  | [] => (0, 0)
  | .wait .us n :: es => ((waitTotal es).1 + n.toNat, (waitTotal es).2)
  | .wait .ms n :: es => ((waitTotal es).1, (waitTotal es).2 + n.toNat)
  | _ :: es => waitTotal es

/-- The requested wait of `n` bytes: 16 half periods each (R276). -/
def byteWait (s : State) (n : Nat) : Nat := 16 * s.tim.halfPeriod.toNat * n

/-- The requested waits of an operation, in microseconds and in milliseconds: the table of R276. A wire frame asks for what
the operation with the same format asks for. -/
def requestedWait (s : State) : Instr → Nat × Nat
  | .init | .configureClockPeriod _ | .select | .release | .hold | .resume => (0, 0)
  | .transferByte _ | .readByte _ | .sendCommand _ | .writeEnable | .writeDisable | .wrenFrame | .wrdiFrame =>
    (byteWait s 1, 0)
  | .readStatus | .writeStatusRegister _ | .rdsrFrame | .wrsrFrame _ => (byteWait s 2, 0)
  | .readProductId | .rdidFrame | .frameAddress _ => (byteWait s 3, 0)
  | .read a len => (byteWait s (4 + min len.toNat (0x10000 - a.toNat)), 0)
  | .readFrame a => (byteWait s (4 + min s.opr.l.toNat (0x10000 - a.toNat)), 0)
  | .sectorErase _ | .sectorEraseFrame _ => (byteWait s 4, s.tim.tSe.toNat)
  | .chipErase | .chipEraseFrame => (byteWait s 1, s.tim.tCe.toNat)
  | .program _ _ _ => (byteWait s (14 + 2 * s.cfg.window) + s.tim.tBp.toNat * s.cfg.window, s.tim.tSe.toNat)
  | .programFrame _ => (byteWait s (4 + s.cfg.window) + s.tim.tBp.toNat * s.cfg.window, 0)

/-- The out bytes of the whole transactions of `program` (R210): READ of the window, WREN, SECTOR_ERASE, WREN, PROGRAM with the
merged bytes `ms`. -/
def programTransactions (p : Config.Params) (a : Addr) (ms : List Byte) : List (List Byte) :=
  [0x03#8 :: (addressFrame (windowStartAddr p a) ++ List.replicate p.window p.dummy), [0x06#8], 0x52#8 :: addressFrame a,
    [0x06#8], 0x02#8 :: (addressFrame a ++ ms)]

/-- One operation after the other, stopping at the first that does not end in a next state. -/
def execAll : List Instr → State → Host.Outcome State Fault Refusal
  | [], s => .next s
  | i :: is, s =>
    match exec i s with
    | .next t => execAll is t
    | .fault f => .fault f
    | .refused r => .refused r

end Machine

end Sys2Proof
end

