-- ==== Sys2Proof/Certificates/Slice0/Obligations.lean ====
section
/-! DEFINITION. The statements about the model. `afterEdges` and `afterBytes` (Machine/Trace.lean) say what a stretch of bus
activity leaves: the byte trace logged, the clock low, chip-select as given, and with bytes moved also `mosi`, the scratch
registers and `RB`; nothing else changes but the chip. `finish` clears the sequencer position. An equation of whole states is
its own frame. Clauses about the chip are about the reference device attached as environment (R75 to R90; the spec's decision
D24; log 4); a busy or lost chip is log 7 and log 8. -/

open Sys2Proof Sys2Proof.Machine

/-! ## Encoding -/

/-- Decoding an encoded instruction gives it back, with every operand at every value (R102 to R105, R112); a `program` whose
data does not have `length` bytes is no exception (log 20). The form of a request is the model's: log 1, 16, 17. -/
def Obligations.DecodeOfEncode : Prop := ∀ i : Instr, decode (encode i) = .ok i

/-- What decodes from a request whose data stream has `length` bytes is well formed (R110); a wire header or an address frame
that decodes is the encoding of what it decodes to, and a host request is, once the ports its operation does not latch are
put to zero (R100, R103, R104, R112). -/
def Obligations.EncodeOfDecode : Prop :=
  ∀ i : Instr,
    (∀ request, (∀ op ports, request = .host op ports → ports.din.length = ports.len.toNat) → decode request = .ok i →
      i.wellFormed = true) ∧
    (∀ header, decode (.wire header) = .ok i → encode i = .wire header) ∧
    (∀ bytes, decode (.internal bytes) = .ok i → encode i = .internal bytes) ∧
    (∀ op ports, decode (.host op ports) = .ok i → encode i = .host op (ports.latchedBy i))

/-- Words written out from R102, R103, R104 and R112 decode to what they stand for. -/
def Obligations.DecodedWords : Prop :=
  decode (.wire [0b00000110#8]) = .ok .wrenFrame ∧
  decode (.wire [0b00000100#8]) = .ok .wrdiFrame ∧
  decode (.wire [0b00000101#8]) = .ok .rdsrFrame ∧
  decode (.wire [0b00000001#8, 0b10001100#8]) = .ok (.wrsrFrame 0x8C#8) ∧
  decode (.wire [0b00000011#8, 0b00000000#8, 0b00010010#8, 0b00110100#8]) = .ok (.readFrame 0x1234#16) ∧
  decode (.wire [0b00000010#8, 0b00000000#8, 0b11111111#8, 0b11111000#8]) = .ok (.programFrame 0xFFF8#16) ∧
  decode (.wire [0b01010010#8, 0b00000000#8, 0b00000000#8, 0b00010001#8]) = .ok (.sectorEraseFrame 0x0011#16) ∧
  decode (.wire [0b01100010#8]) = .ok .chipEraseFrame ∧
  decode (.wire [0b00010101#8]) = .ok .rdidFrame ∧
  decode (.internal [0b00000000#8, 0b10000000#8, 0b00000000#8]) = .ok (.frameAddress 0x8000#16) ∧
  decode (.host 0b00001#5 { khz := 250#16 }) = .ok (.configureClockPeriod 250#16) ∧
  decode (.host 0b00101#5 { cont := true }) = .ok (.readByte true) ∧
  decode (.host 0b01110#5 { addr := 0xFFF8#16, len := 16#17 }) = .ok (.read 0xFFF8#16 16#17) ∧
  decode (.host 0b10001#5 { addr := 0#16, len := 1#17, din := [0x80#8] }) = .ok (.program 0#16 1#17 [0x80#8]) ∧
  decode (.host 0b10011#5 {}) = .ok .resume

/-- The nine opcodes are a closed set, and no wire header with another first byte, or with another reserved address byte than
0x00, is an instruction (R102, R107, R108). -/
def Obligations.OpcodeSetClosed : Prop :=
  (∀ b o, Opcode.ofByte b = some o ↔ b = o.byte) ∧
  ∀ header i, decode (.wire header) = .ok i →
    (∃ o rest, header = Opcode.byte o :: rest) ∧
    (4 ≤ header.length → header.length = 4 ∧ header[1]? = some 0x00#8)

/-! ## Steps and refusals -/

/-- A step takes the next request of the host and runs the instruction it decodes to, in the state in which the host has the
rest of its requests still to issue. The inbox and the whole operation as one step are the model's: log 1, log 2. -/
def Obligations.StepRunsDecoded : Prop :=
  ∀ (s : State) r rest i, s.pc = none → s.inbox = r :: rest → decode r = .ok i → step s = exec i { s with inbox := rest }

/-- With nothing to do the block holds every level and register (R250), and so it does while the host only waits, after
which the chip is no longer busy (R273); inside an operation whose wait never ends it stays there (R247). The three answers
are the model's: log 23, log 8, log 3. -/
def Obligations.StepIdleOrHung : Prop :=
  (∀ s : State, s.pc = none → s.inbox = [] → step s = .next s) ∧
  (∀ (s : State) rest, s.pc = none → s.inbox = .hostWait :: rest →
    step s = .next { s with inbox := rest, chip := { s.chip with busy := none } }) ∧
  ∀ s : State, s.pc ≠ none → step s = .fault .hung

/-- R113: host codes 0x06, 0x07 and 0x14 to 0x1F are refused with nothing done, whatever stands on the operand ports, before
`init` as after it; the refusal is recorded. Refusing is the spec's decision D28; the record is log 12. -/
def Obligations.ReservedCodesRefused : Prop :=
  ∀ (s : State) (op : BitVec 5) ports rest,
    op = 0x06#5 ∨ op = 0x07#5 ∨ 0x14 ≤ op.toNat → s.pc = none → s.inbox = .host op ports :: rest →
    step s = .next { s with inbox := rest, refusals := .reservedCode op :: s.refusals }

/-- Until `init`, every instruction but `init` and `configureClockPeriod` is refused with nothing done (R29, X8). Refusing is
the spec's decision D4; the record is log 12. -/
def Obligations.RefusedBeforeInit : Prop :=
  ∀ (i : Instr) (s : State), s.inited = false → i ≠ .init → (∀ k, i ≠ .configureClockPeriod k) →
    exec i s = .next { s with refusals := .notInitialised :: s.refusals }

/-- No operation raises an exception: each one, in every state and with every operand, ends in a next state with the
sequencer idle (R230). It rests on log 3 and log 11. -/
def Obligations.EveryOperationFinishes : Prop :=
  ∀ (i : Instr) (s : State), s.pc = none → ∃ t, exec i s = .next t ∧ t.pc = none

/-! ## Bus operations -/

/-- R132: `configureClockPeriod` writes the half period `max 1 (500 / K)` and latches K, and does nothing else; with K = 0 it
is refused. It needs no `init`, and the half period is from 1 to 500. The formula and the refusal are the spec's decisions D5
and D6. -/
def Obligations.ConfigureClockPeriodResult : Prop :=
  (∀ ports, decode (.host 0x01#5 ports) = .ok (.configureClockPeriod ports.khz)) ∧
  ∀ (k : BitVec 16) (s : State),
    (k = 0#16 → exec (.configureClockPeriod k) s = .next { s with refusals := .zeroFrequency :: s.refusals }) ∧
    (k ≠ 0#16 → ∃ h : BitVec 16, h.toNat = max 1 (500 / k.toNat) ∧ 1 ≤ h.toNat ∧ h.toNat ≤ 500 ∧
      exec (.configureClockPeriod k) s =
        .next { s with pc := none, opr := { s.opr with k := k }, tim := { s.tim with halfPeriod := h } })

/-- R130: `init` in every state. While `Idle`, with the clock low, the chip is as before (R131 b, R263). Inside a transaction
`init` is a breach: the chip sees its transaction end, and nothing is known of its array (R131 c, R266; decision D18, log 11).
The level of `hold` is the spec's decision D17. -/
def Obligations.InitResult : Prop :=
  (∀ ports, decode (.host 0x00#5 ports) = .ok .init) ∧
  ∀ s : State, ∃ chip,
    exec .init s =
      .next { s with
        pc := none
        inited := true
        pins := { sck := false, mosi := true, cs := .released, hold := .inactive, misoDir := .input }
        wireLog := [.hold .inactive, .cs .released, .mosi true, .sck false] ++ s.wireLog
        chip := chip } ∧
    (s.pins.sck = false → s.pins.cs = .released → chip = s.chip) ∧
    (s.pins.cs = .asserted → chip.parser = .closed ∧ chip.bitCount = 0 ∧ chip.ArrayLost s.chip.draws)

/-- R134: `select` in every initialised state: two pin writes, and nothing else but what the chip makes of them, which
TransactionBoundaries says. -/
def Obligations.SelectResult : Prop :=
  (∀ ports, decode (.host 0x02#5 ports) = .ok .select) ∧
  ∀ s : State, s.inited = true → ∃ chip,
    exec .select s =
      .next { s with
        pc := none
        pins := { s.pins with sck := false, cs := .asserted }
        wireLog := [.cs .asserted, .sck false] ++ s.wireLog
        chip := chip }

/-- R136: `release` in every initialised state: two pin writes, and nothing else but what the chip makes of them, which
TransactionBoundaries says. -/
def Obligations.ReleaseResult : Prop :=
  (∀ ports, decode (.host 0x03#5 ports) = .ok .release) ∧
  ∀ s : State, s.inited = true → ∃ chip,
    exec .release s =
      .next { s with
        pc := none
        pins := { s.pins with sck := false, cs := .released }
        wireLog := [.cs .released, .sck false] ++ s.wireLog
        chip := chip }

/-- R138: `transferByte` in every initialised state: 49 wire events, six for each bit, most significant first, and a last low
clock; the in byte is the eight sampled bits, most significant first, and is left in `RB`. The order of the sampled bits is
the spec's decision D8. -/
def Obligations.TransferByteResult : Prop :=
  (∀ ports, decode (.host 0x04#5 ports) = .ok (.transferByte ports.byte)) ∧
  ∀ (b : Byte) (s : State), s.inited = true → ∃ (inp : Byte) (chip : Chip) (events : List Event),
    events =
      ([7, 6, 5, 4, 3, 2, 1, 0].map fun k =>
        [Event.sck false, .mosi (b.getLsbD k), .wait .us (s.tim.halfPeriod.setWidth 32), .sck true, .sample (inp.getLsbD k),
          .wait .us (s.tim.halfPeriod.setWidth 32)]).flatten ++ [.sck false] ∧
    events.length = 49 ∧
    exec (.transferByte b) s =
      .next { s with
        pc := none
        opr := { s.opr with b := b }
        wireLog := events.reverse ++ s.wireLog
        pins := { s.pins with sck := false, mosi := b.getLsbD 0 }
        sh := { out := b, inp := inp, cnt := 0#3 }
        res := { s.res with rb := inp }
        chip := chip }

/-- One byte inside a frame: the chip takes the out byte where the format of the frame says so (R77, R100), keeps everything
it stores, and supplies the byte its read phase gives: the status byte, an ID byte, the next array byte (R76, R81, R82). A
busy chip shows a byte with the busy bit set, or is done and shows its status byte (R86; 93 U14; log 8). -/
def Obligations.TransferFollowsFrame : Prop :=
  ∀ (b : Byte) (s : State) (q : Parser), s.InFrame → s.chip.parser.next s.cfg.window s.chip.busy b = some q →
    ∃ t, exec (.transferByte b) s = .next t ∧ t.chip.parser = q ∧ t.chip.bitCount = 0 ∧ s.chip.StoreKept t.chip ∧
      (s.chip.conforming = true →
        (∀ x, s.chip.parser = .status x → s.chip.busy = none → t.res.rb = s.chip.statusByte s.cfg) ∧
        (∀ x m, s.chip.parser = .status x → s.chip.busy = some m →
          (t.res.rb.getLsbD s.cfg.busyBit = true ∧ t.chip.busy = some m) ∨
            (t.res.rb = s.chip.statusByte s.cfg ∧ t.chip.busy = none)) ∧
        (s.chip.parser = .ident 0 → t.res.rb = s.chip.manufacturer) ∧
        (s.chip.parser = .ident 1 → t.res.rb = s.chip.device) ∧
        (∀ x, s.chip.parser = .reading x → x < 0x10000 → t.res.rb = s.chip.array.read x))

/-- A byte that breaks the framing, a second status byte and a PROGRAM data byte past W included, desynchronises the chip, and
nothing is known of its array from then on (R78, R100, R233; log 26). That
the array is lost at the byte itself is log 7. What a byte does outside a frame is in TransactionBoundaries. -/
def Obligations.StrayByteDesynchronises : Prop :=
  ∀ (b : Byte) (s : State), s.InFrame → s.chip.parser.next s.cfg.window s.chip.busy b = none →
    ∃ t, exec (.transferByte b) s = .next t ∧ t.chip.parser = .desync ∧ t.chip.ArrayLost s.chip.draws

/-- R140: `readByte` in every initialised state: one byte with `DUMMY` driven, the in byte in `RB`, and a release after it
exactly when `continuing` is false; the byte does not depend on `continuing` (R141 d). `DUMMY` is a parameter (decision D7). -/
def Obligations.ReadByteResult : Prop :=
  (∀ ports, decode (.host 0x05#5 ports) = .ok (.readByte ports.cont)) ∧
  ∀ s : State, s.inited = true → ∃ inp chip chip',
    exec (.readByte true) s =
      .next ((s.latchC true).afterBytes [.x s.cfg.dummy inp] s.pins.cs s.cfg.dummy inp chip).finish ∧
    exec (.readByte false) s =
      .next ((s.latchC false).afterBytes [.x s.cfg.dummy inp, .rel] .released s.cfg.dummy inp chip').finish

/-- R142: the table of the bus state machine, and that no other operation of the bus layer, and neither `hold` nor `resume`,
changes the bus state. Breaches are performed: decision D18, log 11. -/
def Obligations.BusStateTable : Prop :=
  ∀ (i : Instr) (s : State), s.inited = true →
    i = .init ∨ (∃ k, i = .configureClockPeriod k) ∨ i = .select ∨ (∃ b, i = .transferByte b) ∨ (∃ c, i = .readByte c) ∨
      i = .release ∨ i = .hold ∨ i = .resume →
    ∃ t, exec i s = .next t ∧ t.busState = busStateAfter s.busState i

/-! ## Commands -/

/-- R180, R182: `hold` and `resume` write the `hold` pin and nothing else. `hold` inside a transaction and `resume` while
Paused leave the chip, its place in the frame included, as it is (R87). Anywhere else they are breaches of R267 and nothing is
known of the array from then on, the chip being desynchronised while it is selected (R181 c, d, R183 a, R266; decisions D14,
D18, log 11). -/
def Obligations.HoldResumeResult : Prop :=
  (∀ ports, decode (.host 0x12#5 ports) = .ok .hold) ∧ (∀ ports, decode (.host 0x13#5 ports) = .ok .resume) ∧
  ∀ s : State, s.inited = true →
    (∃ chip,
      exec .hold s =
        .next { s with
          pc := none
          pins := { s.pins with hold := .active }
          wireLog := .hold .active :: s.wireLog
          chip := chip } ∧
      (s.pins.cs = .asserted → s.pins.hold = .inactive → chip = s.chip) ∧
      (s.pins.cs = .released ∨ s.pins.hold = .active → chip.ArrayLost s.chip.draws ∧
        chip.parser = if s.pins.cs = .asserted then .desync else .closed)) ∧
    ∃ chip,
      exec .resume s =
        .next { s with
          pc := none
          pins := { s.pins with hold := .inactive }
          wireLog := .hold .inactive :: s.wireLog
          chip := chip } ∧
      (s.pins.cs = .asserted → s.pins.hold = .active → chip = s.chip) ∧
      (s.pins.cs = .released ∨ s.pins.hold = .inactive → chip.ArrayLost s.chip.draws ∧
        chip.parser = if s.pins.cs = .asserted then .desync else .closed)

/-- R160: `sendCommand` in every initialised state, with any byte: `select` and one byte, and the transaction stays open. -/
def Obligations.SendCommandResult : Prop :=
  (∀ ports, decode (.host 0x08#5 ports) = .ok (.sendCommand ports.byte)) ∧
  ∀ (op : Byte) (s : State), s.inited = true → ∃ inp chip,
    exec (.sendCommand op) s = .next ((s.latchB op).afterBytes [.sel, .x op inp] .asserted op inp chip).finish

/-- What the chip makes of the two ends of a transaction. From `Idle`, not held, `select` brings it to its opcode, and
`sendCommand` with one of the nine opcodes, to a chip that is not busy, brings it inside the frame of that opcode, with
everything it stores kept (R78, R100). Inside a frame `release` finishes it, which changes the array only at the end of a whole
SECTOR_ERASE, CHIP_ERASE or PROGRAM frame received with the latch set, or of a broken frame (R67, R79, R90). From `Idle` it
is a breach that changes no level and leaves nothing known of the array (R137 a, R266). A command begun inside an open transaction leaves nothing known of the array, and the chip
desynchronised until the release (R135 b, R161 b, R233; decision D18, log 11); `program` does so in the first of its
transactions and then goes on with what it finds. A byte moved outside a transaction, or while it is paused, leaves nothing
known of the array either (R139 f, g; log 7, 11). The reactions are the reference device's (log 4). -/
def Obligations.TransactionBoundaries : Prop :=
  ∀ s : State, s.inited = true → s.pins.sck = false →
    (s.pins.cs = .released → s.pins.hold = .inactive →
      ∃ t, exec .select s = .next t ∧ t.chip.parser = .opcode ∧ t.chip.bitCount = 0 ∧ t.chip.busy = s.chip.busy ∧
        s.chip.StoreKept t.chip) ∧
    (s.Ready → ∀ op o, Opcode.ofByte op = some o →
      ∃ t, exec (.sendCommand op) s = .next t ∧ t.chip.parser = Parser.afterOpcode o ∧ t.chip.bitCount = 0 ∧
        s.chip.StoreKept t.chip) ∧
    (∃ t, exec .release s = .next t ∧
      (s.InFrame → t.chip = s.chip.finish s.cfg ∧ t.chip.parser = .closed) ∧
      (s.InFrame →
        s.chip.parser = .command .wren ∨ s.chip.parser = .command .wrdi ∨ s.chip.parser = .status true ∨
          s.chip.parser = .ident 2 ∨ (∃ v, s.chip.parser = .statusWrite (some v)) ∨ (∃ n, s.chip.parser = .reading n) ∨
          ((s.chip.parser = .command .chipErase ∨ (∃ a, s.chip.parser = .eraseReady a) ∨
            ∃ a ds, s.chip.parser = .programming a ds ∧ ds.length = s.cfg.window) ∧ s.chip.wel = false) →
        s.chip.ArrayKept t.chip) ∧
      (s.pins.cs = .released → t.chip.parser = .closed ∧ t.chip.ArrayLost s.chip.draws)) ∧
    (s.Inv → s.pins.cs = .asserted → ∀ i, beginsTransaction i = true →
      ∃ t, exec i s = .next t ∧ s.chip.draws ≤ t.chip.array.epoch ∧
        ((∀ a len data, i ≠ .program a len data) → t.chip.ArrayLost s.chip.draws) ∧
        (i = .select ∨ (∃ op, i = .sendCommand op) → t.chip.parser = .desync)) ∧
    (s.Inv → s.pins.cs = .released ∨ s.pins.hold = .active → ∀ i,
      (∃ b, i = .transferByte b) ∨ (∃ c, i = .readByte c) ∨ (∃ a, i = .frameAddress a) →
      ∃ t, exec i s = .next t ∧ t.chip.ArrayLost s.chip.draws)

/-- `frameAddress` (R162) sends 0x00, the high byte, the low byte. After the opcode of an addressed command it leaves the chip
with the whole address and everything it stores kept (R103; log 4). Running it on its own is log 17. -/
def Obligations.FrameAddressResult : Prop :=
  ∀ (a : Addr) (s : State), s.inited = true → ∃ i j k chip,
    exec (.frameAddress a) s =
      .next (s.afterBytes [.x 0x00#8 i, .x (a.extractLsb' 8 8) j, .x (a.extractLsb' 0 8) k] s.pins.cs (a.extractLsb' 0 8) k
        chip).finish ∧
    (s.InFrame → ∀ cmd, s.chip.parser = .address0 cmd → chip.parser = Parser.afterAddress cmd a ∧ chip.bitCount = 0 ∧
      s.chip.StoreKept chip)

/-- `writeEnable` (R164), and WREN on the wire as an instruction (log 16): one transaction; the chip's latch is set and nothing
else it stores changes (R79; log 4). -/
def Obligations.WriteEnableResult : Prop :=
  (∀ ports, decode (.host 0x09#5 ports) = .ok .writeEnable) ∧ decode (.wire [0x06#8]) = .ok .wrenFrame ∧
  ∀ (i : Instr) (s : State), i = .writeEnable ∨ i = .wrenFrame → s.inited = true → ∃ inp chip,
    exec i s = .next (s.afterBytes [.sel, .x 0x06#8 inp, .rel] .released 0x06#8 inp chip).finish ∧
    (s.Ready → chip.wel = true ∧ s.chip.ArrayKept chip ∧ chip.statusOther = s.chip.statusOther ∧ s.chip.Rested chip)

/-- `writeDisable`, and WRDI on the wire as an instruction (log 16): exactly one transaction and no
WREN before it (R166, R167). That the chip clears its latch is general knowledge, not the spec's source (93 G3; log 10). -/
def Obligations.WriteDisableResult : Prop :=
  (∀ ports, decode (.host 0x0A#5 ports) = .ok .writeDisable) ∧ decode (.wire [0x04#8]) = .ok .wrdiFrame ∧
  ∀ (i : Instr) (s : State), i = .writeDisable ∨ i = .wrdiFrame → s.inited = true → ∃ inp chip,
    exec i s = .next (s.afterBytes [.sel, .x 0x04#8 inp, .rel] .released 0x04#8 inp chip).finish ∧
    (s.Ready → chip.wel = false ∧ s.chip.ArrayKept chip ∧ chip.statusOther = s.chip.statusOther ∧ s.chip.Rested chip)

/-- R168: `readStatus`, and RDSR on the wire as an instruction (log 16): the status byte, uninterpreted, in
`RB`. From a chip at rest it is the latch at `WEL_BIT`, the busy bit clear at `BUSY_BIT` and the other bits as they are;
nothing stored changes (R67, R81). The bits of the status byte are the reference device's (decision D24; log 4); a busy chip
is in TransferFollowsFrame. -/
def Obligations.ReadStatusResult : Prop :=
  (∀ ports, decode (.host 0x0B#5 ports) = .ok .readStatus) ∧ decode (.wire [0x05#8]) = .ok .rdsrFrame ∧
  ∀ (i : Instr) (s : State), i = .readStatus ∨ i = .rdsrFrame → s.inited = true → ∃ inp status chip,
    exec i s =
      .next (s.afterBytes [.sel, .x 0x05#8 inp, .x s.cfg.dummy status, .rel] .released s.cfg.dummy status chip).finish ∧
    (s.Ready → s.chip.StoreKept chip ∧ s.chip.Rested chip ∧
      (s.cfg.busyBit ≠ s.cfg.welBit → status.getLsbD s.cfg.welBit = s.chip.wel) ∧ status.getLsbD s.cfg.busyBit = false ∧
      ∀ k < 8, k ≠ s.cfg.welBit.val → k ≠ s.cfg.busyBit.val → status.getLsbD k = s.chip.statusOther.getLsbD k)

/-- `readProductId` (R170), and RDID on the wire as an instruction that leaves its result in the same registers (log 16): two
bytes read in one transaction, the first in bits 15:8 of `RW`, the second in bits 7:0 and in `RB`. From a chip at rest they
are its manufacturer and device bytes; nothing stored changes (R81; log 4). -/
def Obligations.ReadProductIdResult : Prop :=
  (∀ ports, decode (.host 0x0C#5 ports) = .ok .readProductId) ∧ decode (.wire [0x15#8]) = .ok .rdidFrame ∧
  ∀ (i : Instr) (s : State), i = .readProductId ∨ i = .rdidFrame → s.inited = true →
    ∃ (inp b1 b2 : Byte) (w : BitVec 16) (chip : Chip),
    w.toNat = b1.toNat * 256 + b2.toNat ∧
    exec i s =
      .next ((s.afterBytes [.sel, .x 0x15#8 inp, .x s.cfg.dummy b1, .x s.cfg.dummy b2, .rel] .released s.cfg.dummy b2
        chip).withProductId w).finish ∧
    (s.Ready → b1 = s.chip.manufacturer ∧ b2 = s.chip.device ∧ s.chip.StoreKept chip ∧ s.chip.Rested chip)

/-- R172: `writeStatusRegister`, and WRSR on the wire: one transaction with the value and no wait. A chip at rest with its
latch set takes a chip-defined function of the byte and clears the latch; without the latch nothing it stores changes; the
array is never touched (R79, R85). An accepted WRSR may leave the chip busy, which no wait of the block ends (R273; log 8).
That the function takes the old bits too is log 9; the wire form latches nothing, log 16. -/
def Obligations.WriteStatusRegisterResult : Prop :=
  (∀ ports, decode (.host 0x0D#5 ports) = .ok (.writeStatusRegister ports.byte)) ∧
  (∀ v, decode (.wire [0x01#8, v]) = .ok (.wrsrFrame v)) ∧
  ∀ (v : Byte) (s : State), s.inited = true → ∃ i j chip,
    exec (.writeStatusRegister v) s =
      .next ((s.latchB v).afterBytes [.sel, .x 0x01#8 i, .x v j, .rel] .released v j chip).finish ∧
    exec (.wrsrFrame v) s = .next (s.afterBytes [.sel, .x 0x01#8 i, .x v j, .rel] .released v j chip).finish ∧
    (s.Ready → s.chip.ArrayKept chip ∧ chip.wel = false ∧ s.chip.Rested chip.settled ∧
      chip.busy = (if s.chip.wel then some .statusWrite else none) ∧
      chip.statusOther = if s.chip.wel then Config.wrsrStatus s.chip.statusOther v else s.chip.statusOther)

/-! ## Array operations -/

/-- R190, R191: `read` with `n = min(length, 0x10000 − address)` computed without wrap: one transaction, `RN = n`, `DOUT` the
n bytes, `RB` the last byte moved; with n = 0 it is released after the header. From a chip at rest byte k is the array's at
`address + k`, no address past 0xFFFF is asked for, and nothing stored changes (R67, R82). The case n = 0 is the spec's
decision D9. -/
def Obligations.ReadResult : Prop :=
  (∀ ports, decode (.host 0x0E#5 ports) = .ok (.read ports.addr ports.len)) ∧
  ∀ (a : Addr) (len : Count) (s : State), s.inited = true →
    ∃ (n : Nat) (i j k l : Byte) (bytes : List Byte) (last : Byte × Byte) (chip : Chip),
    n = min len.toNat (0x10000 - a.toNat) ∧ bytes.length = n ∧
    last = (if n = 0 then (loByte a, l) else (s.cfg.dummy, bytes.getLastD 0#8)) ∧
    exec (.read a len) s =
      .next (((s.latchAL a len).afterBytes (readFrameTrace s.cfg.dummy a i j k l bytes) .released last.1 last.2
        chip).withReadData n bytes).finish ∧
    n < 2 ^ 17 ∧ a.toNat + n ≤ 0x10000 ∧
    (s.Ready → bytes = ((List.range n).map fun x => s.chip.array.read (a.toNat + x)) ∧ s.chip.StoreKept chip ∧
      s.chip.Rested chip)

/-- READ on the wire as an instruction: the same transaction, with n the clamp of the length register, the result in `RN` and
`DOUT`, and no operand latched (R100; log 16). -/
def Obligations.ReadFrameResult : Prop :=
  (∀ a, decode (.wire [0x03#8, 0x00#8, hiByte a, loByte a]) = .ok (.readFrame a)) ∧
  ∀ (a : Addr) (s : State), s.inited = true →
    ∃ (n : Nat) (i j k l : Byte) (bytes : List Byte) (last : Byte × Byte) (chip : Chip),
    n = min s.opr.l.toNat (0x10000 - a.toNat) ∧ bytes.length = n ∧
    last = (if n = 0 then (loByte a, l) else (s.cfg.dummy, bytes.getLastD 0#8)) ∧
    exec (.readFrame a) s =
      .next ((s.afterBytes (readFrameTrace s.cfg.dummy a i j k l bytes) .released last.1 last.2 chip).withReadData n
        bytes).finish ∧
    (s.Ready → bytes = ((List.range n).map fun x => s.chip.array.read (a.toNat + x)) ∧ s.chip.StoreKept chip ∧
      s.chip.Rested chip)

/-- R194: `sectorErase`, and SECTOR_ERASE on the wire: the header with the address as given, the release, and the wait of
`t_se` milliseconds, whether or not the chip accepts. A chip at rest with its latch set erases exactly the sector of size
S_CHIP that holds the address; without it every byte stays; the latch is clear afterwards (R79, R83). The unit of the wait is
decision D13; the wire form is log 16. -/
def Obligations.SectorEraseResult : Prop :=
  (∀ ports, decode (.host 0x0F#5 ports) = .ok (.sectorErase ports.addr)) ∧
  (∀ a, decode (.wire [0x52#8, 0x00#8, hiByte a, loByte a]) = .ok (.sectorEraseFrame a)) ∧
  ∀ (a : Addr) (s : State), s.inited = true → ∃ i j k l chip,
    exec (.sectorErase a) s =
      .next ((s.latchA a).afterBytes
        (eraseTrace a i j k l s.tim.tSe) .released (loByte a) l chip).finish ∧
    exec (.sectorEraseFrame a) s =
      .next (s.afterBytes
        (eraseTrace a i j k l s.tim.tSe) .released (loByte a) l chip).finish ∧
    (s.Ready → chip.wel = false ∧ chip.statusOther = s.chip.statusOther ∧ s.chip.Rested chip ∧
      (s.chip.wel = false → s.chip.ArrayKept chip) ∧
      (s.chip.wel = true → ∀ x < 0x10000, chip.array.read x =
        if x / s.cfg.sectorSize = a.toNat / s.cfg.sectorSize ∧ 0 < s.cfg.sectorSize then s.cfg.erased
        else s.chip.array.read x))

/-- R197: `chipErase`, and CHIP_ERASE on the wire: the opcode, the release, and the wait of `t_ce` milliseconds, whether or
not the chip accepts. A chip at rest with its latch set erases every byte; without it every byte stays; the latch is clear
afterwards (R79, R83). The unit of the wait is decision D13; the wire form, its wait included, is log 16. -/
def Obligations.ChipEraseResult : Prop :=
  (∀ ports, decode (.host 0x10#5 ports) = .ok .chipErase) ∧ decode (.wire [0x62#8]) = .ok .chipEraseFrame ∧
  ∀ (i : Instr) (s : State), i = .chipErase ∨ i = .chipEraseFrame → s.inited = true → ∃ inp chip,
    exec i s =
      .next (s.afterBytes [.sel, .x 0x62#8 inp, .rel, .waitMs s.tim.tCe] .released 0x62#8 inp chip).finish ∧
    (s.Ready → chip.wel = false ∧ chip.statusOther = s.chip.statusOther ∧ s.chip.Rested chip ∧
      (s.chip.wel = false → s.chip.ArrayKept chip) ∧
      (s.chip.wel = true → ∀ x < 0x10000, chip.array.read x = s.cfg.erased))

/-! ## program -/

/-- The merged window (R211, R215, R217, R218): W bytes in increasing flash address from the window start, each the caller's
byte where the address is in `[address, address + length)` and the buffered byte elsewhere. Where the data stream does not
hold the byte it is a free value (log 20). The width of the sum is decision D3. -/
def Obligations.MergedWindow : Prop :=
  ∀ (s : State) (a : Addr) (len : Count) (data buf : List Byte), buf.length = s.cfg.window →
    let ws := a.toNat / s.cfg.window * s.cfg.window
    let merged := ((s.latchALD a len data).withBuffer buf).mergedWindow a
    ws ≤ a.toNat ∧ a.toNat < ws + s.cfg.window ∧ ws + s.cfg.window ≤ 0x10000 ∧ merged.length = s.cfg.window ∧
    ∀ k < s.cfg.window, merged[k]? =
      if a.toNat ≤ ws + k ∧ ws + k < a.toNat + len.toNat then
        some ((data[ws + k - a.toNat]?).getD (Config.dinByte s.draws (ws + k - a.toNat)))
      else buf[k]?

/-- R210: `program` in every initialised state: five transactions and two waits in order, the window read with `ws` framed,
the erase and the PROGRAM with the address as given, the W merged bytes of the buffer just read; `RN`, `RW` and `DOUT` are
not written; the buffer is unspecified afterwards. The first WREN is decision D10, the units D13; the buffer afterwards is
log 19, a data stream of another length log 20. -/
def Obligations.ProgramResult : Prop :=
  (∀ ports, decode (.host 0x11#5 ports) = .ok (.program ports.addr ports.len ports.din)) ∧
  ∀ (a : Addr) (len : Count) (data : List Byte) (s : State), s.inited = true →
    ∃ i1 j1 k1 l1 old e1 i2 j2 k2 l2 e2 i3 j3 k3 l3 sampled chip merged,
    old.length = s.cfg.window ∧ sampled.length = s.cfg.window ∧
    merged = ((s.latchALD a len data).withBuffer old).mergedWindow a ∧
    exec (.program a len data) s =
      .next ((s.latchALD a len data).afterBytes
        (readFrameTrace s.cfg.dummy (windowStartAddr s.cfg a) i1 j1 k1 l1 old ++ plainTrace 0x06#8 e1 ++
          eraseTrace a i2 j2 k2 l2 s.tim.tSe ++ plainTrace 0x06#8 e2 ++
          programFrameTrace a i3 j3 k3 l3 merged sampled (s.tim.tBp * BitVec.ofNat 32 s.cfg.window)) .released
        (merged.getLastD 0#8) (sampled.getLastD 0#8) chip).forgetBuffer.finish

/-- PROGRAM on the wire: the header with the address as given, the merged window of the operand registers and the buffer as its
W bytes, the release and the program wait (R100, R214 to R216; log 16). A chip at rest whose latch is clear keeps everything;
with it set and every cell of a window-aligned target erased, those cells take the bytes (R84) and, with W = S_CHIP, no other
cell changes; what W different from S_CHIP costs is in GranuleMismatchLosesRest. -/
def Obligations.ProgramFrameResult : Prop :=
  (∀ a, decode (.wire [0x02#8, 0x00#8, hiByte a, loByte a]) = .ok (.programFrame a)) ∧
  ∀ (a : Addr) (s : State), s.inited = true → ∃ i j k l sampled chip,
    sampled.length = s.cfg.window ∧
    exec (.programFrame a) s =
      .next (s.afterBytes
        (programFrameTrace a i j k l (s.mergedWindow a) sampled (s.tim.tBp * BitVec.ofNat 32 s.cfg.window)) .released
        ((s.mergedWindow a).getLastD 0#8) (sampled.getLastD 0#8) chip).forgetBuffer.finish ∧
    (s.Ready → chip.wel = false ∧ chip.statusOther = s.chip.statusOther ∧ s.chip.Rested chip ∧
      (s.chip.wel = false → s.chip.ArrayKept chip) ∧
      (s.chip.wel = true → s.cfg.aligned a →
        (∀ x < s.cfg.window, s.chip.array.read (a.toNat + x) = s.cfg.erased) →
        ∀ x, (a.toNat ≤ x → x < a.toNat + s.cfg.window →
            chip.array.read x = ((s.mergedWindow a)[x - a.toNat]?).getD 0#8) ∧
          (s.cfg.granuleMatches → x < a.toNat ∨ a.toNat + s.cfg.window ≤ x → chip.array.read x = s.chip.array.read x)))

/-- R221: what `program` achieves at a window-aligned address with W = S_CHIP: inside the window the caller's bytes where they
fall and the old bytes elsewhere, outside it every byte as before; the latch is clear afterwards. -/
def Obligations.ProgramMerges : Prop :=
  ∀ (a : Addr) (len : Count) (data : List Byte) (s : State), s.Ready → s.cfg.granuleMatches → s.cfg.aligned a →
    data.length = len.toNat →
    ∃ t, exec (.program a len data) s = .next t ∧ t.chip.wel = false ∧ t.chip.statusOther = s.chip.statusOther ∧
      s.chip.Rested t.chip ∧
      ∀ x, t.chip.array.read x =
        if a.toNat ≤ x ∧ x < a.toNat + s.cfg.window ∧ x < a.toNat + len.toNat then (data[x - a.toNat]?).getD 0#8
        else s.chip.array.read x

/-- `program` and then `read` of the same range inside one window returns the data, at a window-aligned address with W = S_CHIP
(R221). -/
def Obligations.ProgramThenRead : Prop :=
  ∀ (a : Addr) (len : Count) (data : List Byte) (s : State), s.Ready → s.cfg.granuleMatches → s.cfg.aligned a →
    data.length = len.toNat → len.toNat ≤ s.cfg.window →
    ∃ t, execAll [.program a len data, .read a len] s = .next t ∧ t.res.dout = data ∧ t.res.rn = len

/-- `program` at an address that is not a multiple of W leaves nothing known of the array: its last bytes are aimed outside
the window (R84, R220). The whole array is lost by decision D24. -/
def Obligations.UnalignedProgramLosesArray : Prop :=
  ∀ (a : Addr) (len : Count) (data : List Byte) (s : State), s.Ready → ¬ s.cfg.aligned a →
    ∃ t, exec (.program a len data) s = .next t ∧ t.chip.ArrayLost s.chip.draws

/-- With W different from S_CHIP, a PROGRAM at a window-aligned address restores its window and leaves nothing known of any
other byte of the array (R222, 93 U11). Inside the window `program` leaves the caller's bytes where they fall and the old
bytes elsewhere, as far as the chip's erase reached the cell or it was erased before; any other cell takes an unspecified
value (R83, R84). That the rest is lost at the release of the PROGRAM is log 27. -/
def Obligations.GranuleMismatchLosesRest : Prop :=
  ∀ (a : Addr) (s : State), s.Ready → s.cfg.aligned a → ¬ s.cfg.granuleMatches →
    (∀ (len : Count) (data : List Byte), ∃ t, exec (.program a len data) s = .next t ∧
      t.chip.KnownOnly a.toNat (a.toNat + s.cfg.window) s.chip.draws ∧
      (0 < s.cfg.sectorSize → data.length = len.toNat → ∀ x, a.toNat ≤ x → x < a.toNat + s.cfg.window →
        (x / s.cfg.sectorSize = a.toNat / s.cfg.sectorSize ∨ s.chip.array.read x = s.cfg.erased → t.chip.array.read x =
          if x < a.toNat + len.toNat then (data[x - a.toNat]?).getD 0#8 else s.chip.array.read x) ∧
        (x / s.cfg.sectorSize ≠ a.toNat / s.cfg.sectorSize → s.chip.array.read x ≠ s.cfg.erased →
          ∃ n, s.chip.draws ≤ n ∧ t.chip.array.read x = Config.chipByte n))) ∧
    (s.chip.wel = true → ∃ t, exec (.programFrame a) s = .next t ∧
      t.chip.KnownOnly a.toNat (a.toNat + s.cfg.window) s.chip.draws)

/-- Bytes of `data` past the window end are never looked at: two calls whose data agree up to `c = min(length, ws + W − address)`
end in the same state but for the data register (R215, R217, R218). -/
def Obligations.ProgramIgnoresExcessData : Prop :=
  ∀ (a : Addr) (len : Count) (data data' : List Byte) (s : State), s.inited = true →
    (∀ j < min len.toNat (a.toNat / s.cfg.window * s.cfg.window + s.cfg.window - a.toNat), data[j]? = data'[j]?) →
    ∃ t : State, exec (.program a len data) s = .next { t with opr := { t.opr with din := data } } ∧
      exec (.program a len data') s = .next { t with opr := { t.opr with din := data' } }

/-- The out bytes of `program`, transaction by transaction: five whole transactions, 14 + 2W bytes, each mutating one
directly after a WREN (R165 b, R213, R214, R219 e). The first WREN is decision D10. -/
def Obligations.ProgramTransactions : Prop :=
  ∀ (a : Addr) (len : Count) (data : List Byte) (s : State), s.inited = true →
    ∃ t es merged, exec (.program a len data) s = .next t ∧ t.wireTrace = s.wireTrace ++ expandTrace s.tim.halfPeriod es ∧
      merged.length = s.cfg.window ∧ transactions [] es = programTransactions s.cfg a merged ∧
      ((transactions [] es).map List.length).sum = 14 + 2 * s.cfg.window ∧
      writeEnableKept false (transactions [] es) = true

/-! ## The write-enable rule and the source's properties, across operations -/

/-- A mutating command without the latch: it completes normally, its wait included, and nothing the chip stores changes
(R79, R232). The wire forms as instructions are log 16. -/
def Obligations.MutationWithoutLatchIsNoOp : Prop :=
  ∀ (i : Instr) (s : State), s.Ready → s.chip.wel = false → mutates i = true →
    ∃ t, exec i s = .next t ∧ s.chip.StoreKept t.chip ∧ t.Ready

/-- One `writeEnable` never covers two mutations (R79, R271): whatever mutating command follows it, the latch is set before
that command and clear after it, and a second mutating command, once the chip has finished the first, changes nothing the
chip stores. Only after WRSR is there anything to wait for (R273; log 8). The wire forms as instructions are log 16. -/
def Obligations.LatchIsSingleUse : Prop :=
  ∀ (i j : Instr) (s : State), s.Ready → mutates i = true → mutates j = true →
    ∃ r t u, exec .writeEnable s = .next r ∧ r.chip.wel = true ∧ exec i r = .next t ∧ t.chip.wel = false ∧
      exec j t.hostWaits = .next u ∧ t.chip.StoreKept u.chip ∧
      ((∀ v, i ≠ .writeStatusRegister v ∧ i ≠ .wrsrFrame v) → t.hostWaits = t)

/-- After `writeEnable` and `chipErase`, `read` of any range returns the erased value for every byte (R83, R198 c). -/
def Obligations.ChipEraseThenRead : Prop :=
  ∀ (a : Addr) (len : Count) (s : State), s.Ready →
    ∃ t, execAll [.writeEnable, .chipErase, .read a len] s = .next t ∧
      t.res.dout = List.replicate (min len.toNat (0x10000 - a.toNat)) s.cfg.erased

/-- Operations that only read, from a chip at rest, leave it at rest with everything it stores kept, and doing one again
returns the same (R67). A `read` of no bytes leaves in `RB` a bit pattern sampled during the header, which may differ. The wire
forms as instructions, and READ taking its length from `L`, are log 16. -/
def Obligations.ReadingChangesNothing : Prop :=
  ∀ (i : Instr) (s : State), s.Ready →
    i = .readStatus ∨ i = .rdsrFrame ∨ i = .readProductId ∨ i = .rdidFrame ∨ (∃ a len, i = .read a len) ∨
      (∃ a, i = .readFrame a) →
    ∃ t u, exec i s = .next t ∧ execAll [i, i] s = .next u ∧ s.chip.StoreKept t.chip ∧ t.Ready ∧
      u.res.rw = t.res.rw ∧ u.res.rn = t.res.rn ∧ u.res.dout = t.res.dout ∧
      ((∀ a len, i = .read a len → len ≠ 0#17) → (∀ a, i = .readFrame a → s.opr.l ≠ 0#17) → u.res.rb = t.res.rb)

/-- A host-built read with a pause inside its address frame returns the array byte at the address and ends the transaction; the
pause adds its two pin events and nothing else (R87, R181 to R183). -/
def Obligations.PausedReadContinues : Prop :=
  ∀ (a : Addr) (s : State), s.Ready →
    ∃ t, execAll [.sendCommand 0x03#8, .transferByte 0x00#8, .transferByte (hiByte a), .hold, .resume,
        .transferByte (loByte a), .readByte false] s = .next t ∧
      t.res.rb = s.chip.array.read a.toNat ∧ t.busState = .idle ∧ s.chip.StoreKept t.chip ∧ t.Ready

/-! ## Whole-machine rules -/

/-- The state after hardware reset, for every choice of the parameters: the configuration registers loaded (R261), not
initialised and the sequencer idle, which is R260's, the spec's own decision D4. -/
def Obligations.ResetLoadsConfiguration : Prop :=
  ∀ p : Config.Params,
    (State.resetWith p).inited = false ∧ (State.resetWith p).pc = none ∧ (State.resetWith p).cfg = p ∧
    (State.resetWith p).tim =
      { halfPeriod := p.halfPeriodInit, tSe := p.tSectorErase, tCe := p.tChipErase, tBp := p.tByteProgram }

/-- No operation changes a parameter or a latency register (R32, R38); the half period changes only by
`configureClockPeriod` (R33); `inited` is never cleared (R29). -/
def Obligations.ConfigurationIsConstant : Prop :=
  ∀ (i : Instr) (s : State), ∃ t, exec i s = .next t ∧ t.cfg = s.cfg ∧ t.tim.tSe = s.tim.tSe ∧ t.tim.tCe = s.tim.tCe ∧
    t.tim.tBp = s.tim.tBp ∧ ((∀ k, i ≠ .configureClockPeriod k) → t.tim.halfPeriod = s.tim.halfPeriod) ∧
    (s.inited = true → t.inited = true)

/-- The operand registers change exactly as the table R112 says, and only by the acceptance of an operation (R30). That
frames latch none is log 16, 17. -/
def Obligations.OperandsLatched : Prop :=
  ∀ (i : Instr) (s : State), s.inited = true → i ≠ .configureClockPeriod 0#16 →
    ∃ t, exec i s = .next t ∧ t.opr = operandsAfter s.opr i

/-- Which operations write which result register (R31): `RW` by the product ID reads, `RN` and `DOUT` by the array reads, `RB` by
the operations that move a byte. That the RDID and READ frames write `RW`, `RN` and `DOUT` is log 16. -/
def Obligations.ResultRegistersWritten : Prop :=
  ∀ (i : Instr) (s : State), ∃ t, exec i s = .next t ∧
    (i ≠ .readProductId → i ≠ .rdidFrame → t.res.rw = s.res.rw) ∧
    ((∀ a len, i ≠ .read a len) → (∀ a, i ≠ .readFrame a) → t.res.rn = s.res.rn ∧ t.res.dout = s.res.dout) ∧
    (movesByte i = false → t.res = s.res)

/-- Which operations write which pin (R22, R24, R25, R43): `hold` by `init`, `hold` and `resume`; `mosi` by `init` and the
operations that move a byte; `cs` by `init`, `select`, `release` and the operations that call them; `sck` by every operation
but `configureClockPeriod`, `hold` and `resume`, and it is low after every operation begun with it low. -/
def Obligations.PinOwnership : Prop :=
  ∀ (i : Instr) (s : State), ∃ t, exec i s = .next t ∧
    (i ≠ .init → i ≠ .hold → i ≠ .resume → t.pins.hold = s.pins.hold) ∧
    (i ≠ .init → movesByte i = false → t.pins.mosi = s.pins.mosi) ∧
    (i ≠ .init → t.pins.misoDir = s.pins.misoDir) ∧
    ((∃ k, i = .configureClockPeriod k) ∨ (∃ b, i = .transferByte b) ∨ i = .readByte true ∨ (∃ a, i = .frameAddress a) ∨
      i = .hold ∨ i = .resume → t.pins.cs = s.pins.cs) ∧
    ((∃ k, i = .configureClockPeriod k) ∨ i = .hold ∨ i = .resume → t.pins.sck = s.pins.sck) ∧
    (s.pins.sck = false → t.pins.sck = false)

/-- In the wire trace of every operation `mosi` and chip-select change only while the clock is low, every sample is taken while
it is high, and it is low at the end (R22, R23, R139 b, c). -/
def Obligations.ClockShape : Prop :=
  ∀ (i : Instr) (s : State), s.pins.sck = false →
    ∃ t events, exec i s = .next t ∧ t.wireTrace = s.wireTrace ++ events ∧ clockAfter false events = some false

/-- A well-sequenced host never makes the clock rise while chip-select is released (R22 a, R23). -/
def Obligations.ClockIdlesLow : Prop :=
  ∀ (i : Instr) (s : State), s.inited = true → s.pins.sck = false → disciplined i s = true →
    ∃ t events, exec i s = .next t ∧ t.wireTrace = s.wireTrace ++ events ∧ clockOnlySelected s.pins.cs events = true

/-- The waits every operation asks for, in total: the table of R276. The wire frames are log 16. -/
def Obligations.RequestedWaits : Prop :=
  ∀ (i : Instr) (s : State), s.inited = true → s.tim.tBp.toNat * s.cfg.window < 2 ^ 32 →
    ∃ t events, exec i s = .next t ∧ t.wireTrace = s.wireTrace ++ events ∧ waitTotal events = requestedWait s i

/-- The block never reads the chip but through the sampled bits (R2, R39): for every operation but `program`, which sends on
what it has sampled, another chip changes no pin, no wait and no out bit, and no register but those that hold sampled bits:
`RB`, `RW` after a product ID read, the bytes of `DOUT` but not their number, and the shift register of in bits. -/
def Obligations.BlockIgnoresChip : Prop :=
  ∀ (i : Instr) (s : State) (chip : Chip), (∀ a len data, i ≠ .program a len data) →
    ∃ t u, exec i s = .next t ∧ exec i { s with chip := chip } = .next u ∧
      u.wireLog.map maskSample = t.wireLog.map maskSample ∧ u.pins = t.pins ∧ u.opr = t.opr ∧ u.tim = t.tim ∧
      u.res.rn = t.res.rn ∧ u.res.dout.length = t.res.dout.length ∧
      (i ≠ .readProductId → i ≠ .rdidFrame → u.res.rw = t.res.rw) ∧ u.sh.out = t.sh.out ∧ u.sh.cnt = t.sh.cnt ∧
      u.draws = t.draws ∧ u.buf = t.buf ∧ u.pc = t.pc ∧ u.inited = t.inited ∧ u.inbox = t.inbox ∧
      u.refusals = t.refusals ∧ u.cfg = t.cfg

/-! ## Invariants -/

/-- Every step keeps the invariant `State.Inv`: the sequencer idle, the clock low, the half period at least one, the buffer of W
bytes, `DOUT` of `RN` bytes, the array in canonical form, a transaction open in the chip exactly while it is selected. -/
def Obligations.StepKeepsInv : Prop := ∀ s t : State, s.Inv → step s = .next t → t.Inv

/-- The invariant holds after reset, for every sound choice of the parameters. It rests on the reset values the model chose
(log 13, log 15). -/
def Obligations.ResetInv : Prop := ∀ p : Config.Params, p.wf → (State.resetWith p).Inv

/-- A host that keeps the call discipline keeps the chip in step with the block and, with W = S_CHIP, no operation of it ever
makes the array unspecified (R78, R233, R266 to R274). What a breach costs is in TransactionBoundaries and StrayByteDesynchronises (log 7, 8, 11). -/
def Obligations.DisciplineKeepsSync : Prop :=
  ∀ (i : Instr) (s : State), s.InSync → disciplined i s = true →
    ∃ t, exec i s = .next t ∧ t.InSync ∧ (s.cfg.granuleMatches → t.chip.array.epoch = s.chip.array.epoch)

/-- Outside the end of a mutating transaction, no operation of a well-sequenced host changes a byte of the array (R67, R79,
R90). -/
def Obligations.OnlyMutationsChangeArray : Prop :=
  ∀ (i : Instr) (s : State), s.InSync → disciplined i s = true → i ≠ .release → i ≠ .chipErase → i ≠ .chipEraseFrame →
    (∀ a, i ≠ .sectorErase a ∧ i ≠ .sectorEraseFrame a ∧ i ≠ .programFrame a) → (∀ a len data, i ≠ .program a len data) →
    ∃ t, exec i s = .next t ∧ s.chip.ArrayKept t.chip

/-- `init` ends any transaction and leaves block and chip in step, whatever came before (R78, R131 c, R263). -/
def Obligations.InitSynchronises : Prop := ∀ s : State, s.Inv → ∃ t, exec .init s = .next t ∧ t.InSync

/-- Recovery (R78, R233): a release and a select put a desynchronised chip back at its opcode. -/
def Obligations.ReleaseSelectRecovers : Prop :=
  ∀ s : State, s.Inv → s.inited = true → s.pins.hold = .inactive →
    ∃ t, execAll [.release, .select] s = .next t ∧ t.chip.parser = .opcode ∧ t.chip.bitCount = 0 ∧ t.InFrame
end

