-- ==== Sys2Proof/Laws/State.lean ====
section
/-! SUPPORT. One lemma per field of the state and named update that leaves it alone or sets it, so that no later proof
unfolds an update. -/

namespace Sys2Proof.Machine

open Sys2Proof

variable (s : State)

/-! ## Bookkeeping -/

@[simp] theorem finish_finish : s.finish.finish = s.finish := rfl
@[simp] theorem finish_pc : s.finish.pc = none := rfl
@[simp] theorem start_pc (i : Instr) : (s.start i).pc = some i := rfl
@[simp] theorem finish_start (i : Instr) : (s.start i).finish = s.finish := rfl
@[simp] theorem finish_of_idle (h : s.pc = none) : s.finish = s := by
  cases s; cases h; rfl

@[simp] theorem start_cfg (i : Instr) : (s.start i).cfg = s.cfg := rfl
@[simp] theorem start_pins (i : Instr) : (s.start i).pins = s.pins := rfl
@[simp] theorem start_opr (i : Instr) : (s.start i).opr = s.opr := rfl
@[simp] theorem start_res (i : Instr) : (s.start i).res = s.res := rfl
@[simp] theorem start_tim (i : Instr) : (s.start i).tim = s.tim := rfl
@[simp] theorem start_buf (i : Instr) : (s.start i).buf = s.buf := rfl
@[simp] theorem start_sh (i : Instr) : (s.start i).sh = s.sh := rfl
@[simp] theorem start_chip (i : Instr) : (s.start i).chip = s.chip := rfl
@[simp] theorem start_wireLog (i : Instr) : (s.start i).wireLog = s.wireLog := rfl
@[simp] theorem start_inited (i : Instr) : (s.start i).inited = s.inited := rfl
@[simp] theorem start_draws (i : Instr) : (s.start i).draws = s.draws := rfl

@[simp] theorem finish_cfg : s.finish.cfg = s.cfg := rfl
@[simp] theorem finish_pins : s.finish.pins = s.pins := rfl
@[simp] theorem finish_opr : s.finish.opr = s.opr := rfl
@[simp] theorem finish_res : s.finish.res = s.res := rfl
@[simp] theorem finish_tim : s.finish.tim = s.tim := rfl
@[simp] theorem finish_buf : s.finish.buf = s.buf := rfl
@[simp] theorem finish_sh : s.finish.sh = s.sh := rfl
@[simp] theorem finish_chip : s.finish.chip = s.chip := rfl
@[simp] theorem finish_wireLog : s.finish.wireLog = s.wireLog := rfl
@[simp] theorem finish_inited : s.finish.inited = s.inited := rfl
@[simp] theorem finish_inbox : s.finish.inbox = s.inbox := rfl
@[simp] theorem finish_refusals : s.finish.refusals = s.refusals := rfl

/-! ## Refusing and running -/

/-- An initialised block runs the operation (R29). -/
theorem operate_inited {s : State} (h : s.inited = true) (i : Instr) (latch body : State → State) :
    s.operate i latch body = .next (body (latch (s.start i))).finish := by simp [State.operate, h]

/-- A block that is not refuses it (X8). -/
theorem operate_refused {s : State} (h : s.inited = false) (i : Instr) (latch body : State → State) :
    s.operate i latch body = .next (s.refuse .notInitialised) := by simp [State.operate, h]

theorem perform_inited {s : State} (h : s.inited = true) (i : Instr) (body : State → State) :
    s.perform i body = .next (body (s.start i)).finish := operate_inited h i id body

@[simp] theorem refuse_chip (r : OpRefusal) : (s.refuse r).chip = s.chip := rfl
@[simp] theorem refuse_pins (r : OpRefusal) : (s.refuse r).pins = s.pins := rfl
@[simp] theorem refuse_wireLog (r : OpRefusal) : (s.refuse r).wireLog = s.wireLog := rfl
@[simp] theorem refuse_refusals (r : OpRefusal) : (s.refuse r).refusals = r :: s.refusals := rfl

/-! ## The buffer forgotten -/

@[simp] theorem forgetBuffer_cfg : s.forgetBuffer.cfg = s.cfg := rfl
@[simp] theorem forgetBuffer_inbox : s.forgetBuffer.inbox = s.inbox := rfl
@[simp] theorem forgetBuffer_refusals : s.forgetBuffer.refusals = s.refusals := rfl
@[simp] theorem forgetBuffer_wireLog : s.forgetBuffer.wireLog = s.wireLog := rfl
@[simp] theorem forgetBuffer_pc : s.forgetBuffer.pc = s.pc := rfl
@[simp] theorem forgetBuffer_inited : s.forgetBuffer.inited = s.inited := rfl
@[simp] theorem forgetBuffer_pins : s.forgetBuffer.pins = s.pins := rfl
@[simp] theorem forgetBuffer_opr : s.forgetBuffer.opr = s.opr := rfl
@[simp] theorem forgetBuffer_res : s.forgetBuffer.res = s.res := rfl
@[simp] theorem forgetBuffer_tim : s.forgetBuffer.tim = s.tim := rfl
@[simp] theorem forgetBuffer_sh : s.forgetBuffer.sh = s.sh := rfl
@[simp] theorem forgetBuffer_chip : s.forgetBuffer.chip = s.chip := rfl
@[simp] theorem forgetBuffer_draws : s.forgetBuffer.draws = s.draws + 2 := rfl

/-! ## Operands latched -/

@[simp] theorem latchA_cfg (a : Addr) : (s.latchA a).cfg = s.cfg := rfl
@[simp] theorem latchA_pins (a : Addr) : (s.latchA a).pins = s.pins := rfl
@[simp] theorem latchA_tim (a : Addr) : (s.latchA a).tim = s.tim := rfl
@[simp] theorem latchA_res (a : Addr) : (s.latchA a).res = s.res := rfl
@[simp] theorem latchA_chip (a : Addr) : (s.latchA a).chip = s.chip := rfl
@[simp] theorem latchA_inited (a : Addr) : (s.latchA a).inited = s.inited := rfl
@[simp] theorem latchA_wireLog (a : Addr) : (s.latchA a).wireLog = s.wireLog := rfl
@[simp] theorem latchA_buf (a : Addr) : (s.latchA a).buf = s.buf := rfl
@[simp] theorem latchB_cfg (b : Byte) : (s.latchB b).cfg = s.cfg := rfl
@[simp] theorem latchB_pins (b : Byte) : (s.latchB b).pins = s.pins := rfl
@[simp] theorem latchB_tim (b : Byte) : (s.latchB b).tim = s.tim := rfl
@[simp] theorem latchB_res (b : Byte) : (s.latchB b).res = s.res := rfl
@[simp] theorem latchB_chip (b : Byte) : (s.latchB b).chip = s.chip := rfl
@[simp] theorem latchB_inited (b : Byte) : (s.latchB b).inited = s.inited := rfl
@[simp] theorem latchB_wireLog (b : Byte) : (s.latchB b).wireLog = s.wireLog := rfl
@[simp] theorem latchB_buf (b : Byte) : (s.latchB b).buf = s.buf := rfl
@[simp] theorem latchC_cfg (b : Bool) : (s.latchC b).cfg = s.cfg := rfl
@[simp] theorem latchC_pins (b : Bool) : (s.latchC b).pins = s.pins := rfl
@[simp] theorem latchC_tim (b : Bool) : (s.latchC b).tim = s.tim := rfl
@[simp] theorem latchC_res (b : Bool) : (s.latchC b).res = s.res := rfl
@[simp] theorem latchC_chip (b : Bool) : (s.latchC b).chip = s.chip := rfl
@[simp] theorem latchC_inited (b : Bool) : (s.latchC b).inited = s.inited := rfl
@[simp] theorem latchC_wireLog (b : Bool) : (s.latchC b).wireLog = s.wireLog := rfl
@[simp] theorem latchC_buf (b : Bool) : (s.latchC b).buf = s.buf := rfl
@[simp] theorem latchK_cfg (k : BitVec 16) : (s.latchK k).cfg = s.cfg := rfl
@[simp] theorem latchK_pins (k : BitVec 16) : (s.latchK k).pins = s.pins := rfl
@[simp] theorem latchK_tim (k : BitVec 16) : (s.latchK k).tim = s.tim := rfl
@[simp] theorem latchK_res (k : BitVec 16) : (s.latchK k).res = s.res := rfl
@[simp] theorem latchK_chip (k : BitVec 16) : (s.latchK k).chip = s.chip := rfl
@[simp] theorem latchK_inited (k : BitVec 16) : (s.latchK k).inited = s.inited := rfl
@[simp] theorem latchK_wireLog (k : BitVec 16) : (s.latchK k).wireLog = s.wireLog := rfl
@[simp] theorem latchK_buf (k : BitVec 16) : (s.latchK k).buf = s.buf := rfl
@[simp] theorem latchAL_cfg (a : Addr) (len : Count) : (s.latchAL a len).cfg = s.cfg := rfl
@[simp] theorem latchAL_pins (a : Addr) (len : Count) : (s.latchAL a len).pins = s.pins := rfl
@[simp] theorem latchAL_tim (a : Addr) (len : Count) : (s.latchAL a len).tim = s.tim := rfl
@[simp] theorem latchAL_res (a : Addr) (len : Count) : (s.latchAL a len).res = s.res := rfl
@[simp] theorem latchAL_chip (a : Addr) (len : Count) : (s.latchAL a len).chip = s.chip := rfl
@[simp] theorem latchAL_inited (a : Addr) (len : Count) : (s.latchAL a len).inited = s.inited := rfl
@[simp] theorem latchAL_wireLog (a : Addr) (len : Count) : (s.latchAL a len).wireLog = s.wireLog := rfl
@[simp] theorem latchAL_buf (a : Addr) (len : Count) : (s.latchAL a len).buf = s.buf := rfl
@[simp] theorem latchALD_cfg (a : Addr) (len : Count) (data : List Byte) : (s.latchALD a len data).cfg = s.cfg := rfl
@[simp] theorem latchALD_pins (a : Addr) (len : Count) (data : List Byte) : (s.latchALD a len data).pins = s.pins := rfl
@[simp] theorem latchALD_tim (a : Addr) (len : Count) (data : List Byte) : (s.latchALD a len data).tim = s.tim := rfl
@[simp] theorem latchALD_res (a : Addr) (len : Count) (data : List Byte) : (s.latchALD a len data).res = s.res := rfl
@[simp] theorem latchALD_chip (a : Addr) (len : Count) (data : List Byte) : (s.latchALD a len data).chip = s.chip := rfl
@[simp] theorem latchALD_inited (a : Addr) (len : Count) (data : List Byte) : (s.latchALD a len data).inited = s.inited := rfl
@[simp] theorem latchALD_wireLog (a : Addr) (len : Count) (data : List Byte) : (s.latchALD a len data).wireLog = s.wireLog := rfl
@[simp] theorem latchALD_buf (a : Addr) (len : Count) (data : List Byte) : (s.latchALD a len data).buf = s.buf := rfl

/-! ## Results -/

@[simp] theorem withProductId_cfg (w : BitVec 16) : (s.withProductId w).cfg = s.cfg := rfl
@[simp] theorem withProductId_inbox (w : BitVec 16) : (s.withProductId w).inbox = s.inbox := rfl
@[simp] theorem withProductId_refusals (w : BitVec 16) : (s.withProductId w).refusals = s.refusals := rfl
@[simp] theorem withProductId_wireLog (w : BitVec 16) : (s.withProductId w).wireLog = s.wireLog := rfl
@[simp] theorem withProductId_draws (w : BitVec 16) : (s.withProductId w).draws = s.draws := rfl
@[simp] theorem withProductId_pc (w : BitVec 16) : (s.withProductId w).pc = s.pc := rfl
@[simp] theorem withProductId_inited (w : BitVec 16) : (s.withProductId w).inited = s.inited := rfl
@[simp] theorem withProductId_pins (w : BitVec 16) : (s.withProductId w).pins = s.pins := rfl
@[simp] theorem withProductId_opr (w : BitVec 16) : (s.withProductId w).opr = s.opr := rfl
@[simp] theorem withProductId_tim (w : BitVec 16) : (s.withProductId w).tim = s.tim := rfl
@[simp] theorem withProductId_sh (w : BitVec 16) : (s.withProductId w).sh = s.sh := rfl
@[simp] theorem withProductId_chip (w : BitVec 16) : (s.withProductId w).chip = s.chip := rfl
@[simp] theorem withReadData_cfg (n : Nat) (bytes : List Byte) : (s.withReadData n bytes).cfg = s.cfg := rfl
@[simp] theorem withReadData_inbox (n : Nat) (bytes : List Byte) : (s.withReadData n bytes).inbox = s.inbox := rfl
@[simp] theorem withReadData_refusals (n : Nat) (bytes : List Byte) : (s.withReadData n bytes).refusals = s.refusals := rfl
@[simp] theorem withReadData_wireLog (n : Nat) (bytes : List Byte) : (s.withReadData n bytes).wireLog = s.wireLog := rfl
@[simp] theorem withReadData_draws (n : Nat) (bytes : List Byte) : (s.withReadData n bytes).draws = s.draws := rfl
@[simp] theorem withReadData_pc (n : Nat) (bytes : List Byte) : (s.withReadData n bytes).pc = s.pc := rfl
@[simp] theorem withReadData_inited (n : Nat) (bytes : List Byte) : (s.withReadData n bytes).inited = s.inited := rfl
@[simp] theorem withReadData_pins (n : Nat) (bytes : List Byte) : (s.withReadData n bytes).pins = s.pins := rfl
@[simp] theorem withReadData_opr (n : Nat) (bytes : List Byte) : (s.withReadData n bytes).opr = s.opr := rfl
@[simp] theorem withReadData_tim (n : Nat) (bytes : List Byte) : (s.withReadData n bytes).tim = s.tim := rfl
@[simp] theorem withReadData_sh (n : Nat) (bytes : List Byte) : (s.withReadData n bytes).sh = s.sh := rfl
@[simp] theorem withReadData_chip (n : Nat) (bytes : List Byte) : (s.withReadData n bytes).chip = s.chip := rfl
@[simp] theorem withBuffer_cfg (bytes : List Byte) : (s.withBuffer bytes).cfg = s.cfg := rfl
@[simp] theorem withBuffer_inbox (bytes : List Byte) : (s.withBuffer bytes).inbox = s.inbox := rfl
@[simp] theorem withBuffer_refusals (bytes : List Byte) : (s.withBuffer bytes).refusals = s.refusals := rfl
@[simp] theorem withBuffer_wireLog (bytes : List Byte) : (s.withBuffer bytes).wireLog = s.wireLog := rfl
@[simp] theorem withBuffer_draws (bytes : List Byte) : (s.withBuffer bytes).draws = s.draws := rfl
@[simp] theorem withBuffer_pc (bytes : List Byte) : (s.withBuffer bytes).pc = s.pc := rfl
@[simp] theorem withBuffer_inited (bytes : List Byte) : (s.withBuffer bytes).inited = s.inited := rfl
@[simp] theorem withBuffer_pins (bytes : List Byte) : (s.withBuffer bytes).pins = s.pins := rfl
@[simp] theorem withBuffer_opr (bytes : List Byte) : (s.withBuffer bytes).opr = s.opr := rfl
@[simp] theorem withBuffer_tim (bytes : List Byte) : (s.withBuffer bytes).tim = s.tim := rfl
@[simp] theorem withBuffer_sh (bytes : List Byte) : (s.withBuffer bytes).sh = s.sh := rfl
@[simp] theorem withBuffer_chip (bytes : List Byte) : (s.withBuffer bytes).chip = s.chip := rfl
@[simp] theorem withProductId_rb (w : BitVec 16) : (s.withProductId w).res.rb = s.res.rb := rfl
@[simp] theorem withProductId_rw (w : BitVec 16) : (s.withProductId w).res.rw = w := rfl
@[simp] theorem withProductId_rn (w : BitVec 16) : (s.withProductId w).res.rn = s.res.rn := rfl
@[simp] theorem withProductId_dout (w : BitVec 16) : (s.withProductId w).res.dout = s.res.dout := rfl
@[simp] theorem withProductId_buf (w : BitVec 16) : (s.withProductId w).buf = s.buf := rfl
@[simp] theorem withReadData_rb (n : Nat) (bytes : List Byte) : (s.withReadData n bytes).res.rb = s.res.rb := rfl
@[simp] theorem withReadData_rw (n : Nat) (bytes : List Byte) : (s.withReadData n bytes).res.rw = s.res.rw := rfl
@[simp] theorem withReadData_rn (n : Nat) (bytes : List Byte) : (s.withReadData n bytes).res.rn = BitVec.ofNat 17 n := rfl
@[simp] theorem withReadData_dout (n : Nat) (bytes : List Byte) : (s.withReadData n bytes).res.dout = bytes := rfl
@[simp] theorem withReadData_buf (n : Nat) (bytes : List Byte) : (s.withReadData n bytes).buf = s.buf := rfl
@[simp] theorem withBuffer_buf (bytes : List Byte) : (s.withBuffer bytes).buf = bytes := rfl
@[simp] theorem withBuffer_res (bytes : List Byte) : (s.withBuffer bytes).res = s.res := rfl

/-! ## States after bus activity -/

variable (es fs : List ByteEvent) (cs ds : ChipSelect) (o i p q : Byte) (c d : Chip)

@[simp] theorem afterEdges_cfg : (s.afterEdges es cs c).cfg = s.cfg := rfl
@[simp] theorem afterEdges_inbox : (s.afterEdges es cs c).inbox = s.inbox := rfl
@[simp] theorem afterEdges_refusals : (s.afterEdges es cs c).refusals = s.refusals := rfl
@[simp] theorem afterEdges_wireLog : (s.afterEdges es cs c).wireLog = s.logged es := rfl
@[simp] theorem afterEdges_draws : (s.afterEdges es cs c).draws = s.draws := rfl
@[simp] theorem afterEdges_pc : (s.afterEdges es cs c).pc = s.pc := rfl
@[simp] theorem afterEdges_inited : (s.afterEdges es cs c).inited = s.inited := rfl
@[simp] theorem afterEdges_sck : (s.afterEdges es cs c).pins.sck = false := rfl
@[simp] theorem afterEdges_mosi : (s.afterEdges es cs c).pins.mosi = s.pins.mosi := rfl
@[simp] theorem afterEdges_cs : (s.afterEdges es cs c).pins.cs = cs := rfl
@[simp] theorem afterEdges_hold : (s.afterEdges es cs c).pins.hold = s.pins.hold := rfl
@[simp] theorem afterEdges_opr : (s.afterEdges es cs c).opr = s.opr := rfl
@[simp] theorem afterEdges_res : (s.afterEdges es cs c).res = s.res := rfl
@[simp] theorem afterEdges_tim : (s.afterEdges es cs c).tim = s.tim := rfl
@[simp] theorem afterEdges_buf : (s.afterEdges es cs c).buf = s.buf := rfl
@[simp] theorem afterEdges_sh : (s.afterEdges es cs c).sh = s.sh := rfl
@[simp] theorem afterEdges_chip : (s.afterEdges es cs c).chip = c := rfl

@[simp] theorem afterBytes_cfg : (s.afterBytes es cs o i c).cfg = s.cfg := rfl
@[simp] theorem afterBytes_inbox : (s.afterBytes es cs o i c).inbox = s.inbox := rfl
@[simp] theorem afterBytes_refusals : (s.afterBytes es cs o i c).refusals = s.refusals := rfl
@[simp] theorem afterBytes_wireLog : (s.afterBytes es cs o i c).wireLog = s.logged es := rfl
@[simp] theorem afterBytes_draws : (s.afterBytes es cs o i c).draws = s.draws := rfl
@[simp] theorem afterBytes_pc : (s.afterBytes es cs o i c).pc = s.pc := rfl
@[simp] theorem afterBytes_inited : (s.afterBytes es cs o i c).inited = s.inited := rfl
@[simp] theorem afterBytes_sck : (s.afterBytes es cs o i c).pins.sck = false := rfl
@[simp] theorem afterBytes_cs : (s.afterBytes es cs o i c).pins.cs = cs := rfl
@[simp] theorem afterBytes_hold : (s.afterBytes es cs o i c).pins.hold = s.pins.hold := rfl
@[simp] theorem afterBytes_opr : (s.afterBytes es cs o i c).opr = s.opr := rfl
@[simp] theorem afterBytes_rb : (s.afterBytes es cs o i c).res.rb = i := rfl
@[simp] theorem afterBytes_rw : (s.afterBytes es cs o i c).res.rw = s.res.rw := rfl
@[simp] theorem afterBytes_rn : (s.afterBytes es cs o i c).res.rn = s.res.rn := rfl
@[simp] theorem afterBytes_dout : (s.afterBytes es cs o i c).res.dout = s.res.dout := rfl
@[simp] theorem afterBytes_tim : (s.afterBytes es cs o i c).tim = s.tim := rfl
@[simp] theorem afterBytes_buf : (s.afterBytes es cs o i c).buf = s.buf := rfl
@[simp] theorem afterBytes_chip : (s.afterBytes es cs o i c).chip = c := rfl

/-! ## Traces -/

@[simp] theorem expandTrace_append (h : BitVec 16) :
    expandTrace h (es ++ fs) = expandTrace h es ++ expandTrace h fs := by
  induction es with
  | nil => rfl
  | cons e es ih => simp [expandTrace, ih, List.append_assoc]

/-- Logging one byte trace after another is logging both. -/
theorem logged_append : (expandTrace s.tim.halfPeriod fs).reverse ++ s.logged es = s.logged (es ++ fs) := by
  simp [State.logged, List.reverse_append]

@[simp] theorem wireTrace_logged (t : State) (h : t.wireLog = s.logged es) :
    t.wireTrace = s.wireTrace ++ expandTrace s.tim.halfPeriod es := by
  simp [State.wireTrace, h, State.logged]

/-- Bus activity after bus activity, the second with no byte moved. -/
@[simp] theorem afterBytes_afterEdges :
    (s.afterBytes es cs o i c).afterEdges fs ds d = s.afterBytes (es ++ fs) ds o i d := by
  simp [State.afterEdges, State.afterBytes, State.logged]

@[simp] theorem afterEdges_afterBytes :
    (s.afterEdges es cs c).afterBytes fs ds o i d = s.afterBytes (es ++ fs) ds o i d := by
  simp [State.afterEdges, State.afterBytes, State.logged]

@[simp] theorem afterBytes_afterBytes :
    (s.afterBytes es cs o i c).afterBytes fs ds p q d = s.afterBytes (es ++ fs) ds p q d := by
  simp [State.afterBytes, State.logged]

@[simp] theorem afterEdges_afterEdges :
    (s.afterEdges es cs c).afterEdges fs ds d = s.afterEdges (es ++ fs) ds d := by
  simp [State.afterEdges, State.logged]

/-! ## A wait of the host -/

@[simp] theorem hostWaits_cfg (s : State) : s.hostWaits.cfg = s.cfg := rfl
@[simp] theorem hostWaits_pc (s : State) : s.hostWaits.pc = s.pc := rfl
@[simp] theorem hostWaits_inited (s : State) : s.hostWaits.inited = s.inited := rfl
@[simp] theorem hostWaits_pins (s : State) : s.hostWaits.pins = s.pins := rfl
@[simp] theorem hostWaits_opr (s : State) : s.hostWaits.opr = s.opr := rfl
@[simp] theorem hostWaits_res (s : State) : s.hostWaits.res = s.res := rfl
@[simp] theorem hostWaits_tim (s : State) : s.hostWaits.tim = s.tim := rfl
@[simp] theorem hostWaits_wireLog (s : State) : s.hostWaits.wireLog = s.wireLog := rfl
@[simp] theorem hostWaits_chip (s : State) : s.hostWaits.chip = s.chip.settled := rfl

/-! ## The hold pin -/

@[simp] theorem pinHold_cfg (s : State) (v : HoldLine) : (s.pinHold v).cfg = s.cfg := rfl
@[simp] theorem pinHold_pins (s : State) (v : HoldLine) : (s.pinHold v).pins = { s.pins with hold := v } := rfl
@[simp] theorem pinHold_opr (s : State) (v : HoldLine) : (s.pinHold v).opr = s.opr := rfl
@[simp] theorem pinHold_res (s : State) (v : HoldLine) : (s.pinHold v).res = s.res := rfl
@[simp] theorem pinHold_wireLog (s : State) (v : HoldLine) : (s.pinHold v).wireLog = .hold v :: s.wireLog := rfl
@[simp] theorem pinHold_chip (s : State) (v : HoldLine) :
    (s.pinHold v).chip = s.chip := rfl

/-! ## A breach seen only by the operation issued -/

@[simp] theorem breachedIf_cfg (s : State) (b : Bool) : (s.breachedIf b).cfg = s.cfg := rfl
@[simp] theorem breachedIf_pc (s : State) (b : Bool) : (s.breachedIf b).pc = s.pc := rfl
@[simp] theorem breachedIf_inited (s : State) (b : Bool) : (s.breachedIf b).inited = s.inited := rfl
@[simp] theorem breachedIf_pins (s : State) (b : Bool) : (s.breachedIf b).pins = s.pins := rfl
@[simp] theorem breachedIf_opr (s : State) (b : Bool) : (s.breachedIf b).opr = s.opr := rfl
@[simp] theorem breachedIf_res (s : State) (b : Bool) : (s.breachedIf b).res = s.res := rfl
@[simp] theorem breachedIf_tim (s : State) (b : Bool) : (s.breachedIf b).tim = s.tim := rfl
@[simp] theorem breachedIf_wireLog (s : State) (b : Bool) : (s.breachedIf b).wireLog = s.wireLog := rfl
@[simp] theorem breachedIf_chip (s : State) (b : Bool) :
    (s.breachedIf b).chip = if b then s.chip.loseAt s.pins.cs else s.chip := rfl

end Sys2Proof.Machine
end

