-- ==== Sys2Proof/Laws/Transfer.lean ====
section
/-! SUPPORT. What the bus operations do, once and for all: `doSelect`, `doRelease`, `doTransfer`. -/

namespace Sys2Proof.Machine

open Sys2Proof

/-! ## Bits and bytes -/

/-- The eight bits sampled, first to last, as a byte (R139 a). -/
def byteOfBits (b7 b6 b5 b4 b3 b2 b1 b0 : Bool) : Byte :=
  setBit (setBit (setBit (setBit (setBit (setBit (setBit (setBit 0#8 7 b7) 6 b6) 5 b5) 4 b4) 3 b3) 2 b2) 1 b1) 0 b0

theorem byteOfBits_getLsbD (b7 b6 b5 b4 b3 b2 b1 b0 : Bool) :
    (byteOfBits b7 b6 b5 b4 b3 b2 b1 b0).getLsbD 7 = b7 ∧ (byteOfBits b7 b6 b5 b4 b3 b2 b1 b0).getLsbD 6 = b6 ∧
    (byteOfBits b7 b6 b5 b4 b3 b2 b1 b0).getLsbD 5 = b5 ∧ (byteOfBits b7 b6 b5 b4 b3 b2 b1 b0).getLsbD 4 = b4 ∧
    (byteOfBits b7 b6 b5 b4 b3 b2 b1 b0).getLsbD 3 = b3 ∧ (byteOfBits b7 b6 b5 b4 b3 b2 b1 b0).getLsbD 2 = b2 ∧
    (byteOfBits b7 b6 b5 b4 b3 b2 b1 b0).getLsbD 1 = b1 ∧ (byteOfBits b7 b6 b5 b4 b3 b2 b1 b0).getLsbD 0 = b0 := by
  revert b7 b6 b5 b4 b3 b2 b1 b0
  decide

/-- Sampling the bits of a byte, most significant first, gives the byte (R62). -/
theorem byteOfBits_self (t : Byte) :
    byteOfBits (t.getLsbD 7) (t.getLsbD 6) (t.getLsbD 5) (t.getLsbD 4) (t.getLsbD 3) (t.getLsbD 2) (t.getLsbD 1)
      (t.getLsbD 0) = t := by
  revert t
  decide

/-- Shifting in the bits of a byte, most significant first, gives the byte whatever stood there (R77). -/
theorem shiftIn_all (r t : Byte) :
    shiftIn (shiftIn (shiftIn (shiftIn (shiftIn (shiftIn (shiftIn (shiftIn r (t.getLsbD 7)) (t.getLsbD 6)) (t.getLsbD 5))
      (t.getLsbD 4)) (t.getLsbD 3)) (t.getLsbD 2)) (t.getLsbD 1)) (t.getLsbD 0) = t := by
  ext i hi
  have : i = 0 ∨ i = 1 ∨ i = 2 ∨ i = 3 ∨ i = 4 ∨ i = 5 ∨ i = 6 ∨ i = 7 := by omega
  rcases this with rfl | rfl | rfl | rfl | rfl | rfl | rfl | rfl <;>
    simp [shiftIn, BitVec.getLsbD_eq_getElem]

/-! ## What one bit, and one byte, do to the chip -/

/-- One bit as the chip sees it: the falling edge if the clock was high, the rising edge with `mosi` at `new`, and the
sample. -/
def Chip.bitSlot (p : Config.Params) (cs : ChipSelect) (hold : HoldLine) (sck old new : Bool) (c : Chip) : Bool × Chip :=
  ((c.onSck p cs hold sck false old).onSck p cs hold false true new).onSample cs hold

/-- A state inside `transferByte out`: `log` has been logged since it began. -/
def State.mid (s : State) (out : Byte) (sck mosi : Bool) (inp : Byte) (cnt : BitVec 3) (log : List Event) (c : Chip) :
    State :=
  { s with
    sh := { out := out, inp := inp, cnt := cnt }
    pins := { s.pins with sck := sck, mosi := mosi }
    wireLog := log ++ s.wireLog
    chip := c }

theorem mid_shiftBit (k : Nat) (s : State) (out : Byte) (sck mosi : Bool) (c : Chip) : ∃ b d,
    c.bitSlot s.cfg s.pins.cs s.pins.hold sck mosi (out.getLsbD k) = (b, d) ∧ ∀ inp cnt log,
    (s.mid out sck mosi inp cnt log c).shiftBit k =
      s.mid out true (out.getLsbD k) (setBit inp k b) (BitVec.ofNat 3 k)
        ([.wait .us (s.tim.halfPeriod.setWidth 32), .sample b, .sck true, .wait .us (s.tim.halfPeriod.setWidth 32),
          .mosi (out.getLsbD k), .sck false] ++ log) d :=
  ⟨_, _, rfl, fun _ _ _ => rfl⟩

/-- What one transferred byte does to the chip, bit by bit, and the byte sampled. -/
structure TransferSees (p : Config.Params) (cs : ChipSelect) (hold : HoldLine) (sck mosi : Bool) (out : Byte) (c : Chip)
    (inp : Byte) (d : Chip) : Prop where
  bits : ∃ c7 c6 c5 c4 c3 c2 c1 c0,
    c.bitSlot p cs hold sck mosi (out.getLsbD 7) = (inp.getLsbD 7, c7) ∧
    c7.bitSlot p cs hold true (out.getLsbD 7) (out.getLsbD 6) = (inp.getLsbD 6, c6) ∧
    c6.bitSlot p cs hold true (out.getLsbD 6) (out.getLsbD 5) = (inp.getLsbD 5, c5) ∧
    c5.bitSlot p cs hold true (out.getLsbD 5) (out.getLsbD 4) = (inp.getLsbD 4, c4) ∧
    c4.bitSlot p cs hold true (out.getLsbD 4) (out.getLsbD 3) = (inp.getLsbD 3, c3) ∧
    c3.bitSlot p cs hold true (out.getLsbD 3) (out.getLsbD 2) = (inp.getLsbD 2, c2) ∧
    c2.bitSlot p cs hold true (out.getLsbD 2) (out.getLsbD 1) = (inp.getLsbD 1, c1) ∧
    c1.bitSlot p cs hold true (out.getLsbD 1) (out.getLsbD 0) = (inp.getLsbD 0, c0) ∧
    d = c0.onSck p cs hold true false (out.getLsbD 0)

/-- `transferByte` in every state (R138): 49 events, the in byte is the sampled bits most significant first, and nothing
but what `afterBytes` names changes. -/
theorem doTransfer_eq (out : Byte) (s : State) : ∃ inp d,
    TransferSees s.cfg s.pins.cs s.pins.hold s.pins.sck s.pins.mosi out s.chip inp d ∧
    s.doTransfer out = s.afterBytes [.x out inp] s.pins.cs out inp d := by
  obtain ⟨b7, c7, h7, e7⟩ := mid_shiftBit 7 s out s.pins.sck s.pins.mosi s.chip
  obtain ⟨b6, c6, h6, e6⟩ := mid_shiftBit 6 s out true (out.getLsbD 7) c7
  obtain ⟨b5, c5, h5, e5⟩ := mid_shiftBit 5 s out true (out.getLsbD 6) c6
  obtain ⟨b4, c4, h4, e4⟩ := mid_shiftBit 4 s out true (out.getLsbD 5) c5
  obtain ⟨b3, c3, h3, e3⟩ := mid_shiftBit 3 s out true (out.getLsbD 4) c4
  obtain ⟨b2, c2, h2, e2⟩ := mid_shiftBit 2 s out true (out.getLsbD 3) c3
  obtain ⟨b1, c1, h1, e1⟩ := mid_shiftBit 1 s out true (out.getLsbD 2) c2
  obtain ⟨b0, c0, h0, e0⟩ := mid_shiftBit 0 s out true (out.getLsbD 1) c1
  have start : ({ s with sh := { s.sh with out := out, inp := 0#8 } } : State) =
      s.mid out s.pins.sck s.pins.mosi 0#8 s.sh.cnt [] s.chip := rfl
  obtain ⟨g7, g6, g5, g4, g3, g2, g1, g0⟩ := byteOfBits_getLsbD b7 b6 b5 b4 b3 b2 b1 b0
  refine ⟨byteOfBits b7 b6 b5 b4 b3 b2 b1 b0, c0.onSck s.cfg s.pins.cs s.pins.hold true false (out.getLsbD 0),
    ⟨c7, c6, c5, c4, c3, c2, c1, c0, ?_⟩, ?_⟩
  · rw [g7, g6, g5, g4, g3, g2, g1, g0]
    exact ⟨h7, h6, h5, h4, h3, h2, h1, h0, rfl⟩
  · simp only [State.doTransfer, State.shiftBits]
    rw [start, e7, e6, e5, e4, e3, e2, e1, e0]
    simp only [State.afterBytes, State.logged, expandTrace, ByteEvent.expand, bitEvents, g7, g6, g5, g4, g3, g2, g1, g0]
    rfl

end Sys2Proof.Machine
end

