-- ==== Sys2Proof/Laws/ChipEdges.lean ====
section
/-! SUPPORT. What the bus operations do to the chip: the three things one transferred byte can do, and what selecting and
releasing do. -/

namespace Sys2Proof.Machine

open Sys2Proof

/-! ## Small facts about the chip -/

variable (p : Config.Params) (c : Chip)

@[simp] theorem lose_parser : c.lose.parser = .desync := rfl
@[simp] theorem lose_bitCount : c.lose.bitCount = c.bitCount := rfl
@[simp] theorem lose_conforming : c.lose.conforming = c.conforming := rfl
@[simp] theorem lose_draws : c.lose.draws = c.draws + 3 := rfl
@[simp] theorem lose_array : c.lose.array = { cells := [], epoch := c.draws } := rfl
@[simp] theorem lose_live : c.lose.live = false := rfl
@[simp] theorem loseClosed_parser : c.loseClosed.parser = .closed := rfl
@[simp] theorem loseClosed_bitCount : c.loseClosed.bitCount = 0 := rfl
@[simp] theorem loseClosed_conforming : c.loseClosed.conforming = c.conforming := rfl
@[simp] theorem loseClosed_draws : c.loseClosed.draws = c.draws + 3 := rfl
@[simp] theorem loseClosed_array : c.loseClosed.array = { cells := [], epoch := c.draws } := rfl
@[simp] theorem loseAt_released : c.loseAt .released = c.loseClosed := rfl
@[simp] theorem loseAt_asserted : c.loseAt .asserted = { c.lose with bitCount := 0 } := rfl
@[simp] theorem settled_busy : c.settled.busy = none := rfl

/-- A chip that is not busy has nothing to finish. -/
theorem settled_self (h : c.busy = none) : c.settled = c := by
  cases c; cases h; rfl

@[simp] theorem latch_parser : (c.latch p).parser = c.parser := by
  unfold Chip.latch Chip.supplyStatus Chip.supplyFree
  split
  · split <;> (try split) <;> rfl
  · rfl

@[simp] theorem latch_bitCount : (c.latch p).bitCount = c.bitCount := by
  unfold Chip.latch Chip.supplyStatus Chip.supplyFree
  split
  · split <;> (try split) <;> rfl
  · rfl

@[simp] theorem latch_array : (c.latch p).array = c.array := by
  unfold Chip.latch Chip.supplyStatus Chip.supplyFree
  split
  · split <;> (try split) <;> rfl
  · rfl

@[simp] theorem latch_wel : (c.latch p).wel = c.wel := by
  unfold Chip.latch Chip.supplyStatus Chip.supplyFree
  split
  · split <;> (try split) <;> rfl
  · rfl

@[simp] theorem latch_statusOther : (c.latch p).statusOther = c.statusOther := by
  unfold Chip.latch Chip.supplyStatus Chip.supplyFree
  split
  · split <;> (try split) <;> rfl
  · rfl

@[simp] theorem latch_conforming : (c.latch p).conforming = c.conforming := by
  unfold Chip.latch Chip.supplyStatus Chip.supplyFree
  split
  · split <;> (try split) <;> rfl
  · rfl

@[simp] theorem latch_manufacturer : (c.latch p).manufacturer = c.manufacturer := by
  unfold Chip.latch Chip.supplyStatus Chip.supplyFree
  split
  · split <;> (try split) <;> rfl
  · rfl

@[simp] theorem latch_device : (c.latch p).device = c.device := by
  unfold Chip.latch Chip.supplyStatus Chip.supplyFree
  split
  · split <;> (try split) <;> rfl
  · rfl

/-- A chip that is not busy does not become so by supplying a byte. -/
@[simp] theorem latch_busy_none (h : c.busy = none) : (c.latch p).busy = none := by
  unfold Chip.latch Chip.supplyStatus Chip.supplyFree
  split
  · split <;> simp_all
    split <;> simp_all
  · exact h

theorem latch_draws : c.draws ≤ (c.latch p).draws := by
  unfold Chip.latch Chip.supplyStatus Chip.supplyFree
  split
  · split <;> (try split) <;> simp
  · simp

@[simp] theorem latch_live : (c.latch p).live = c.live := by simp [Chip.live]

/-- One whole byte as a selected, unpaused chip sees it: it supplies `(c.latch p).tx` and takes `out`. -/
def Chip.exchange (out : Byte) : Chip :=
  { { c.latch p with rx := out } with bitCount := 0 }.advance p out

/-! ## One bit -/

/-- `c` with `k` bits of a byte clocked, `r` the bits taken. -/
def Chip.atBit (r : Byte) (k : Nat) : Chip := { c with rx := r, bitCount := k }

theorem bitSlot_first (old new : Bool) (hl : c.live = true) (hb : c.bitCount = 0) :
    c.bitSlot p .asserted .inactive false old new =
      ((c.latch p).tx.getLsbD 7, (c.latch p).atBit (shiftIn (c.latch p).rx new) 1) := by
  have hl' := hl
  simp only [Chip.live] at hl
  simp [Chip.bitSlot, Chip.atBit, Chip.onSck, Chip.rise, Chip.onSample, Chip.live, hb, hl]

theorem bitSlot_later (r : Byte) (k : Nat) (old new : Bool) (hl : c.live = true) (h1 : 1 ≤ k) (h7 : k ≤ 7) :
    (c.atBit r k).bitSlot p .asserted .inactive true old new =
      (c.tx.getLsbD (7 - k), c.atBit (shiftIn r new) (k + 1)) := by
  simp only [Chip.live] at hl
  have h8 : (k == 8) = false := by simp; omega
  have h0 : ¬ k = 0 := by omega
  have h9 : 8 - (k + 1) = 7 - k := by omega
  simp [Chip.bitSlot, Chip.atBit, Chip.onSck, Chip.rise, Chip.fall, Chip.onSample, Chip.live, h8, h0, hl, h9]

/-- The falling edge after the eighth bit. -/
theorem fall_whole (out : Byte) (m : Bool) (hl : c.live = true) :
    (c.atBit out 8).onSck p .asserted .inactive true false m = { { c with rx := out } with bitCount := 0 }.advance p out := by
  simp only [Chip.live] at hl
  have : Chip.onSck p .asserted .inactive true false m (c.atBit out 8) = { (c.atBit out 8).advance p out with bitCount := 0 } := by
    simp [Chip.onSck, Chip.fall, Chip.live, Chip.atBit, hl]
  rw [this]
  simp only [Chip.advance, Chip.atBit]
  cases c.parser.next p.window c.busy out <;> rfl

theorem bitSlot_ignored (sck old new : Bool) (hl : c.live = false) :
    c.bitSlot p .asserted .inactive sck old new = (Config.chipBit c.draws, { c with draws := c.draws + 1 }) := by
  have hl' := hl
  simp only [Chip.live] at hl
  cases sck <;> simp [Chip.bitSlot, Chip.onSck, Chip.onSample, Chip.rise, Chip.fall, Chip.live, hl]

/-- The chip does not take clock edges: it is not selected, or it is paused. -/
def offClock (cs : ChipSelect) (hold : HoldLine) : Prop := cs = .released ∨ (cs = .asserted ∧ hold = .active)

/-- Where the parser of a chip ends up that has seen edges off the clock. -/
def lostAt : ChipSelect → Parser
  | .released => .closed
  | .asserted => .desync

/-- Nothing `c` stores is known in `d`, whose parser stands at `q`. -/
structure Lost (q : Parser) (c d : Chip) : Prop where
  parser : d.parser = q
  cells : d.array.cells = []
  fresh : c.draws ≤ d.array.epoch
  epoch : d.array.epoch < d.draws
  byteBoundary : c.bitCount = 0 → d.bitCount = 0
  conforming : d.conforming = c.conforming

theorem lost_lose : Lost .desync c c.lose := ⟨rfl, rfl, Nat.le_refl _, by simp, id, rfl⟩

theorem lost_loseClosed : Lost .closed c c.loseClosed := ⟨rfl, rfl, Nat.le_refl _, by simp, fun _ => rfl, rfl⟩

theorem lost_loseAt (cs : ChipSelect) : Lost (lostAt cs) c (c.loseAt cs) := by
  cases cs
  · exact lost_loseClosed c
  · exact ⟨rfl, rfl, Nat.le_refl _, by simp, fun _ => rfl, rfl⟩

theorem Lost.draws {q : Parser} {c d : Chip} (h : Lost q c d) : c.draws ≤ d.draws := h.fresh.trans (Nat.le_of_lt h.epoch)

theorem Lost.trans {q r : Parser} {c d e : Chip} (h : Lost q c d) (g : Lost r d e) : Lost r c e :=
  ⟨g.parser, g.cells, h.draws.trans g.fresh, g.epoch, fun hb => g.byteBoundary (h.byteBoundary hb),
    g.conforming.trans h.conforming⟩

theorem Lost.draw {q : Parser} {c d : Chip} (h : Lost q c d) : Lost q c { d with draws := d.draws + 1 } :=
  ⟨h.parser, h.cells, h.fresh, Nat.lt_succ_of_lt h.epoch, h.byteBoundary, h.conforming⟩

/-- An edge off the clock. -/
theorem onSck_offClock {cs : ChipSelect} {hold : HoldLine} (h : offClock cs hold) (old m : Bool) :
    Lost (lostAt cs) c (c.onSck p cs hold old (!old) m) := by
  rcases h with rfl | ⟨rfl, rfl⟩
  · simpa [Chip.onSck, lostAt] using lost_loseClosed c
  · simpa [Chip.onSck, lostAt] using lost_lose c

theorem onSample_offClock {cs : ChipSelect} {hold : HoldLine} (h : offClock cs hold) :
    (c.onSample cs hold).2 = { c with draws := c.draws + 1 } := by
  rcases h with rfl | ⟨rfl, rfl⟩ <;> simp [Chip.onSample]

theorem bitSlot_offClock_first {cs : ChipSelect} {hold : HoldLine} (h : offClock cs hold) (old new : Bool) :
    Lost (lostAt cs) c (c.bitSlot p cs hold false old new).2 := by
  have hs : c.onSck p cs hold false false old = c := by cases cs <;> cases hold <;> simp [Chip.onSck]
  rw [Chip.bitSlot, hs, onSample_offClock _ h]
  exact (onSck_offClock p c h false new).draw

theorem bitSlot_offClock_later {cs : ChipSelect} {hold : HoldLine} (h : offClock cs hold) {d : Chip}
    (hd : Lost (lostAt cs) c d) (old new : Bool) : Lost (lostAt cs) c (d.bitSlot p cs hold true old new).2 := by
  rw [Chip.bitSlot, onSample_offClock _ h]
  exact ((hd.trans (onSck_offClock p d h true old)).trans (onSck_offClock p _ h false new)).draw

/-! ## One byte -/

theorem transferSees_live {p c} {mosi : Bool} {out inp : Byte} {d : Chip} (hl : c.live = true) (hb : c.bitCount = 0)
    (h : TransferSees p .asserted .inactive false mosi out c inp d) :
    inp = (c.latch p).tx ∧ d = c.exchange p out := by
  obtain ⟨c7, c6, c5, c4, c3, c2, c1, c0, h7, h6, h5, h4, h3, h2, h1, h0, hd⟩ := h
  rw [bitSlot_first p c _ _ hl hb] at h7
  have hl' : (c.latch p).live = true := by simpa using hl
  obtain ⟨g7, rfl⟩ := Prod.mk.inj h7
  rw [bitSlot_later p (c.latch p) _ 1 _ _ hl' (by omega) (by omega)] at h6
  obtain ⟨g6, rfl⟩ := Prod.mk.inj h6
  rw [bitSlot_later p (c.latch p) _ 2 _ _ hl' (by omega) (by omega)] at h5
  obtain ⟨g5, rfl⟩ := Prod.mk.inj h5
  rw [bitSlot_later p (c.latch p) _ 3 _ _ hl' (by omega) (by omega)] at h4
  obtain ⟨g4, rfl⟩ := Prod.mk.inj h4
  rw [bitSlot_later p (c.latch p) _ 4 _ _ hl' (by omega) (by omega)] at h3
  obtain ⟨g3, rfl⟩ := Prod.mk.inj h3
  rw [bitSlot_later p (c.latch p) _ 5 _ _ hl' (by omega) (by omega)] at h2
  obtain ⟨g2, rfl⟩ := Prod.mk.inj h2
  rw [bitSlot_later p (c.latch p) _ 6 _ _ hl' (by omega) (by omega)] at h1
  obtain ⟨g1, rfl⟩ := Prod.mk.inj h1
  rw [bitSlot_later p (c.latch p) _ 7 _ _ hl' (by omega) (by omega)] at h0
  obtain ⟨g0, rfl⟩ := Prod.mk.inj h0
  constructor
  · rw [← byteOfBits_self inp, ← byteOfBits_self (c.latch p).tx, ← g7, ← g6, ← g5, ← g4, ← g3, ← g2, ← g1, ← g0]
  · rw [hd, shiftIn_all]
    exact fall_whole p (c.latch p) out (out.getLsbD 0) hl'

theorem transferSees_ignored {p c} {sck mosi : Bool} {out inp : Byte} {d : Chip} (hl : c.live = false)
    (h : TransferSees p .asserted .inactive sck mosi out c inp d) : d = { c with draws := c.draws + 8 } := by
  obtain ⟨c7, c6, c5, c4, c3, c2, c1, c0, h7, h6, h5, h4, h3, h2, h1, h0, hd⟩ := h
  have drawn (e : Chip) (sck x y b : Bool) (f : Chip)
      (hs : e.bitSlot p .asserted .inactive sck x y = (b, f)) (he : e.live = c.live) :
      f = { e with draws := e.draws + 1 } := by
    rw [bitSlot_ignored p e sck x y (he.trans hl)] at hs
    exact (Prod.mk.inj hs).2.symm
  obtain rfl := drawn _ _ _ _ _ _ h7 rfl
  obtain rfl := drawn _ _ _ _ _ _ h6 rfl
  obtain rfl := drawn _ _ _ _ _ _ h5 rfl
  obtain rfl := drawn _ _ _ _ _ _ h4 rfl
  obtain rfl := drawn _ _ _ _ _ _ h3 rfl
  obtain rfl := drawn _ _ _ _ _ _ h2 rfl
  obtain rfl := drawn _ _ _ _ _ _ h1 rfl
  obtain rfl := drawn _ _ _ _ _ _ h0 rfl
  rw [hd]
  simp only [Chip.live] at hl
  simp [Chip.onSck, Chip.fall, Chip.live, hl]

theorem transferSees_offClock {p c} {cs : ChipSelect} {hold : HoldLine} {mosi : Bool} {out inp : Byte} {d : Chip}
    (ho : offClock cs hold) (h : TransferSees p cs hold false mosi out c inp d) : Lost (lostAt cs) c d := by
  obtain ⟨c7, c6, c5, c4, c3, c2, c1, c0, h7, h6, h5, h4, h3, h2, h1, h0, hd⟩ := h
  have first {x y b : Bool} {f : Chip} (hs : c.bitSlot p cs hold false x y = (b, f)) : Lost (lostAt cs) c f := by
    have := bitSlot_offClock_first p c ho x y
    rwa [hs] at this
  have later {e f : Chip} (he : Lost (lostAt cs) c e) {x y b : Bool} (hs : e.bitSlot p cs hold true x y = (b, f)) :
      Lost (lostAt cs) c f := by
    have := bitSlot_offClock_later p c ho he x y
    rwa [hs] at this
  rw [hd]
  exact (later (later (later (later (later (later (later (first h7) h6) h5) h4) h3) h2) h1) h0).trans
    (onSck_offClock p c0 ho true _)

/-- Everything one transferred byte can do to a chip at a byte boundary, the clock being low: the chip is not selected or is
paused, and its state becomes unspecified; it is selected and does not follow the clock; or it exchanges one byte. -/
theorem transferSees_cases {p c} {cs : ChipSelect} {hold : HoldLine} {mosi : Bool} {out inp : Byte} {d : Chip}
    (hb : c.bitCount = 0) (h : TransferSees p cs hold false mosi out c inp d) :
    (offClock cs hold ∧ Lost (lostAt cs) c d) ∨
    (cs = .asserted ∧ hold = .inactive ∧ c.live = false ∧ d = { c with draws := c.draws + 8 }) ∨
    (cs = .asserted ∧ hold = .inactive ∧ c.live = true ∧ inp = (c.latch p).tx ∧ d = c.exchange p out) := by
  cases cs with
  | released => exact .inl ⟨.inl rfl, transferSees_offClock (.inl rfl) h⟩
  | asserted =>
    cases hold with
    | active => exact .inl ⟨.inr ⟨rfl, rfl⟩, transferSees_offClock (.inr ⟨rfl, rfl⟩) h⟩
    | inactive =>
      cases hl : c.live with
      | false => exact .inr (.inl ⟨rfl, rfl, rfl, transferSees_ignored hl h⟩)
      | true => exact .inr (.inr ⟨rfl, rfl, rfl, transferSees_live hl hb h⟩)

/-! ## Selecting and releasing -/

/-- `select` in every state (R134). -/
theorem doSelect_eq (s : State) :
    s.doSelect = s.afterEdges [.sel] .asserted
      ((s.chip.onSck s.cfg s.pins.cs s.pins.hold s.pins.sck false s.pins.mosi).onCs s.cfg s.pins.hold s.pins.cs .asserted) :=
  rfl

/-- `release` in every state (R136). -/
theorem doRelease_eq (s : State) :
    s.doRelease = s.afterEdges [.rel] .released
      ((s.chip.onSck s.cfg s.pins.cs s.pins.hold s.pins.sck false s.pins.mosi).onCs s.cfg s.pins.hold s.pins.cs .released) :=
  rfl

/-- A clock edge that is none does nothing. -/
@[simp] theorem onSck_same (cs : ChipSelect) (hold : HoldLine) (v m : Bool) : c.onSck p cs hold v v m = c := by
  cases cs <;> cases hold <;> cases v <;> rfl

/-- `select` from `Idle`, not held: a transaction begins (R78). -/
theorem doSelect_idle {s : State} (hk : s.pins.sck = false) (hc : s.pins.cs = .released) (hh : s.pins.hold = .inactive) :
    s.doSelect = s.afterEdges [.sel] .asserted { s.chip with parser := .opcode, bitCount := 0 } := by
  rw [doSelect_eq, hk, hc, hh]; rfl

/-- `release` from `Selected`, not held, at a byte boundary: the chip finishes the transaction (R78, R90). -/
theorem doRelease_selected {s : State} (hk : s.pins.sck = false) (hc : s.pins.cs = .asserted)
    (hh : s.pins.hold = .inactive) (hb : s.chip.bitCount = 0) :
    s.doRelease = s.afterEdges [.rel] .released (s.chip.finish s.cfg) := by
  rw [doRelease_eq, hk, hc, hh]; simp [Chip.onCs, hb]

/-- `transferByte` while a chip follows the clock (R77): it gives `(chip.latch cfg).tx` and takes `out`. -/
theorem doTransfer_live {s : State} (out : Byte) (hk : s.pins.sck = false) (hc : s.pins.cs = .asserted)
    (hh : s.pins.hold = .inactive) (hl : s.chip.live = true) (hb : s.chip.bitCount = 0) :
    s.doTransfer out =
      s.afterBytes [.x out (s.chip.latch s.cfg).tx] .asserted out (s.chip.latch s.cfg).tx (s.chip.exchange s.cfg out) := by
  obtain ⟨inp, d, hs, he⟩ := doTransfer_eq out s
  rw [hc, hh, hk] at hs
  obtain ⟨rfl, rfl⟩ := transferSees_live hl hb hs
  rw [he, hc]

end Sys2Proof.Machine
end

