-- ==== Sys2Proof/Laws/Block.lean ====
section
/-! SUPPORT. What each shared operation does to the block, in every state and whatever the chip does: its byte trace, the
pins, the registers, and that nothing else changes. The sampled bytes and the chip are given by existence here; what they
are for a chip in step with the block is in Laws/Device.lean. -/

namespace Sys2Proof.Machine

open Sys2Proof

theorem doSelect_block (s : State) : ∃ c, s.doSelect = s.afterEdges [.sel] .asserted c := ⟨_, doSelect_eq s⟩

theorem doRelease_block (s : State) : ∃ c, s.doRelease = s.afterEdges [.rel] .released c := ⟨_, doRelease_eq s⟩

theorem doTransfer_block (out : Byte) (s : State) :
    ∃ i c, s.doTransfer out = s.afterBytes [.x out i] s.pins.cs out i c := by
  obtain ⟨i, c, -, h⟩ := doTransfer_eq out s
  exact ⟨i, c, h⟩

theorem doReadByte_block (continuing : Bool) (s : State) :
    ∃ i c, s.doReadByte continuing =
      s.afterBytes (readByteTrace continuing s.cfg.dummy i) (if continuing then s.pins.cs else .released) s.cfg.dummy i c := by
  obtain ⟨i, c, h⟩ := doTransfer_block s.cfg.dummy s
  cases continuing with
  | true => exact ⟨i, c, by simpa [State.doReadByte, readByteTrace] using h⟩
  | false =>
    obtain ⟨d, hd⟩ := doRelease_block (s.doTransfer s.cfg.dummy)
    refine ⟨i, d, ?_⟩
    simp only [State.doReadByte, readByteTrace, Bool.false_eq_true, if_false]
    rw [hd, h]
    simp

theorem doCommand_block (op : Byte) (s : State) :
    ∃ i c, s.doCommand op = s.afterBytes [.sel, .x op i] .asserted op i c := by
  obtain ⟨c, hc⟩ := doSelect_block s
  obtain ⟨i, d, hd⟩ := doTransfer_block op s.doSelect
  refine ⟨i, d, ?_⟩
  rw [State.doCommand, hd, hc]
  simp

@[simp] theorem lastByte_cons_cons (a b : Byte) (bs : List Byte) : lastByte (a :: b :: bs) = lastByte (b :: bs) := by
  simp [lastByte]

@[simp] theorem lastByte_singleton (a : Byte) : lastByte [a] = a := rfl

theorem doSendBytes_block (b : Byte) (bs : List Byte) (s : State) :
    ∃ is c, is.length = (b :: bs).length ∧
      s.doSendBytes (b :: bs) =
        s.afterBytes (exchanges (b :: bs) is) s.pins.cs (lastByte (b :: bs)) (lastByte is) c := by
  induction bs generalizing b s with
  | nil =>
    obtain ⟨i, c, h⟩ := doTransfer_block b s
    exact ⟨[i], c, rfl, by simp [State.doSendBytes, exchanges, h]⟩
  | cons b' bs ih =>
    obtain ⟨i, c, h⟩ := doTransfer_block b s
    obtain ⟨is, d, hl, hd⟩ := ih b' (s.doTransfer b)
    match is, hl with
    | j :: js, hl =>
      refine ⟨i :: j :: js, d, by simpa using hl, ?_⟩
      rw [State.doSendBytes, hd, h]
      simp [exchanges]

theorem doFrameAddress_block (a : Addr) (s : State) :
    ∃ i j k c, s.doFrameAddress a =
      s.afterBytes [.x 0x00#8 i, .x (hiByte a) j, .x (loByte a) k] s.pins.cs (loByte a) k c := by
  obtain ⟨is, c, hl, h⟩ := doSendBytes_block 0x00#8 [hiByte a, loByte a] s
  match is, hl with
  | [i, j, k], _ => exact ⟨i, j, k, c, by simpa [State.doFrameAddress, addressFrame, exchanges] using h⟩

theorem doPlainCommand_block (o : Opcode) (s : State) :
    ∃ i c, s.doPlainCommand o = s.afterBytes (plainTrace o.byte i) .released o.byte i c := by
  obtain ⟨i, c, h⟩ := doCommand_block o.byte s
  obtain ⟨d, hd⟩ := doRelease_block (s.doCommand o.byte)
  exact ⟨i, d, by rw [State.doPlainCommand, hd, h]; simp [plainTrace]⟩

theorem doReadStatus_block (s : State) :
    ∃ i v c, s.doReadStatus =
      s.afterBytes [.sel, .x 0x05#8 i, .x s.cfg.dummy v, .rel] .released s.cfg.dummy v c := by
  obtain ⟨i, c, h⟩ := doCommand_block Opcode.rdsr.byte s
  obtain ⟨v, d, hd⟩ := doReadByte_block false (s.doCommand Opcode.rdsr.byte)
  refine ⟨i, v, d, ?_⟩
  rw [State.doReadStatus, hd, h]
  simp [readByteTrace, Opcode.byte]

theorem doReadProductId_block (s : State) :
    ∃ i b1 b2 c, s.doReadProductId =
      (s.afterBytes [.sel, .x 0x15#8 i, .x s.cfg.dummy b1, .x s.cfg.dummy b2, .rel] .released s.cfg.dummy b2 c).withProductId
        (productId b1 b2) := by
  obtain ⟨i, c, h⟩ := doCommand_block Opcode.rdid.byte s
  obtain ⟨b1, d, hd⟩ := doReadByte_block true (s.doCommand Opcode.rdid.byte)
  obtain ⟨b2, e, he⟩ := doReadByte_block false ((s.doCommand Opcode.rdid.byte).doReadByte true)
  refine ⟨i, b1, b2, e, ?_⟩
  simp only [State.doReadProductId]
  rw [he, hd, h]
  simp [readByteTrace, Opcode.byte]

theorem doWriteStatus_block (v : Byte) (s : State) :
    ∃ i j c, s.doWriteStatus v = s.afterBytes [.sel, .x 0x01#8 i, .x v j, .rel] .released v j c := by
  obtain ⟨i, c, h⟩ := doCommand_block Opcode.wrsr.byte s
  obtain ⟨j, d, hd⟩ := doTransfer_block v (s.doCommand Opcode.wrsr.byte)
  obtain ⟨e, he⟩ := doRelease_block ((s.doCommand Opcode.wrsr.byte).doTransfer v)
  refine ⟨i, j, e, ?_⟩
  rw [State.doWriteStatus, he, hd, h]
  simp [Opcode.byte]

theorem doReadBytes_block (n : Nat) (s : State) :
    ∃ i is c, (i :: is).length = n + 1 ∧
      s.doReadBytes (n + 1) =
        (i :: is, s.afterBytes (readTrace s.cfg.dummy (i :: is)) .released s.cfg.dummy (lastByte (i :: is)) c) := by
  induction n generalizing s with
  | zero =>
    obtain ⟨i, c, h⟩ := doReadByte_block false s
    refine ⟨i, [], c, rfl, ?_⟩
    simp only [State.doReadBytes, Nat.lt_irrefl, decide_false]
    rw [h]
    simp [readByteTrace, readTrace]
  | succ n ih =>
    obtain ⟨i, c, h⟩ := doReadByte_block true s
    obtain ⟨j, js, d, hl, hd⟩ := ih (s.doReadByte true)
    refine ⟨i, j :: js, d, by simpa using hl, ?_⟩
    rw [State.doReadBytes]
    simp only [Nat.zero_lt_succ, decide_true]
    rw [hd, h]
    simp [readByteTrace, readTrace]

theorem doHeader_block (op : Byte) (a : Addr) (s : State) :
    ∃ i j k l c, (s.doCommand op).doFrameAddress a =
      s.afterBytes (headerTrace op a i j k l) .asserted (loByte a) l c := by
  obtain ⟨i, c, h⟩ := doCommand_block op s
  obtain ⟨j, k, l, d, hd⟩ := doFrameAddress_block a (s.doCommand op)
  refine ⟨i, j, k, l, d, ?_⟩
  rw [hd, h]
  simp [headerTrace]

theorem doReadTransaction_block (a : Addr) (n : Nat) (s : State) :
    ∃ i j k l ins c, ins.length = n ∧
      s.doReadTransaction a n =
        (ins, s.afterBytes (readFrameTrace s.cfg.dummy a i j k l ins) .released
          (readLast a l s.cfg.dummy ins).1 (readLast a l s.cfg.dummy ins).2 c) := by
  obtain ⟨i, j, k, l, c, h⟩ := doHeader_block Opcode.read.byte a s
  cases n with
  | zero =>
    obtain ⟨d, hd⟩ := doRelease_block ((s.doCommand Opcode.read.byte).doFrameAddress a)
    refine ⟨i, j, k, l, [], d, rfl, ?_⟩
    simp only [State.doReadTransaction, if_true]
    rw [hd, h]
    simp [readFrameTrace, readTrace, readLast, Opcode.byte]
  | succ n =>
    obtain ⟨x, xs, d, hl, hd⟩ := doReadBytes_block n ((s.doCommand Opcode.read.byte).doFrameAddress a)
    refine ⟨i, j, k, l, x :: xs, d, hl, ?_⟩
    simp only [State.doReadTransaction, Nat.succ_ne_zero, if_false]
    rw [hd, h]
    simp [readFrameTrace, readLast, Opcode.byte]

theorem readLast_eq (a : Addr) (l d : Byte) (bs : List Byte) :
    readLast a l d bs = if bs.length = 0 then (loByte a, l) else (d, bs.getLastD 0#8) := by
  cases bs <;> rfl

theorem doRead_block (a : Addr) (n : Nat) (s : State) :
    ∃ i j k l ins c, ins.length = n ∧
      s.doRead a n =
        (s.afterBytes (readFrameTrace s.cfg.dummy a i j k l ins) .released
          (readLast a l s.cfg.dummy ins).1 (readLast a l s.cfg.dummy ins).2 c).withReadData n ins := by
  obtain ⟨i, j, k, l, ins, c, hl, h⟩ := doReadTransaction_block a n s
  refine ⟨i, j, k, l, ins, c, hl, ?_⟩
  simp only [State.doRead]
  rw [h]

/-- A blocking wait for a mutation, after bus activity. -/
theorem afterBytes_latencyWait (s : State) (es : List ByteEvent) (cs : ChipSelect) (o i : Byte) (c : Chip) (m : Mutation)
    (u : DelayUnit) (n : BitVec 32) (w : ByteEvent) (hw : w.expand s.tim.halfPeriod = [.wait u n]) :
    (s.afterBytes es cs o i c).latencyWait m u n = s.afterBytes (es ++ [w]) cs o i (c.settle m) := by
  simp [State.latencyWait, State.wait, State.afterBytes, State.logged, expandTrace, hw]

theorem afterBytes_programWait (s : State) (es : List ByteEvent) (cs : ChipSelect) (o i : Byte) (c : Chip) :
    (s.afterBytes es cs o i c).programWait = s.programWait := rfl

theorem doSectorErase_block (a : Addr) (s : State) :
    ∃ i j k l c, s.doSectorErase a =
      s.afterBytes (eraseTrace a i j k l s.tim.tSe) .released (loByte a) l c := by
  obtain ⟨i, j, k, l, c, h⟩ := doHeader_block Opcode.sectorErase.byte a s
  obtain ⟨d, hd⟩ := doRelease_block ((s.doCommand Opcode.sectorErase.byte).doFrameAddress a)
  refine ⟨i, j, k, l, d.settle .sectorErase, ?_⟩
  simp only [State.doSectorErase]
  rw [hd, h, afterBytes_afterEdges, afterBytes_tim]
  rw [afterBytes_latencyWait _ _ _ _ _ _ _ _ _ (.waitMs s.tim.tSe) rfl]
  simp [eraseTrace, Opcode.byte]

theorem doChipErase_block (s : State) :
    ∃ i c, s.doChipErase =
      s.afterBytes [.sel, .x 0x62#8 i, .rel, .waitMs s.tim.tCe] .released 0x62#8 i c := by
  obtain ⟨i, c, h⟩ := doPlainCommand_block .chipErase s
  refine ⟨i, c.settle .chipErase, ?_⟩
  simp only [State.doChipErase]
  rw [h, afterBytes_tim, afterBytes_latencyWait _ _ _ _ _ _ _ _ _ (.waitMs s.tim.tCe) rfl]
  rfl

theorem window_pos (p : Config.Params) : 0 < p.window := Nat.two_pow_pos _

theorem mergedWindow_length (s : State) (a : Addr) : (s.mergedWindow a).length = s.cfg.window := by
  simp [State.mergedWindow]

theorem doProgramTransaction_block (a : Addr) (s : State) :
    ∃ i j k l ins c, ins.length = s.cfg.window ∧
      s.doProgramTransaction a =
        (s.afterBytes (programFrameTrace a i j k l (s.mergedWindow a) ins s.programWait) .released
          (lastByte (s.mergedWindow a)) (lastByte ins) c).forgetBuffer := by
  obtain ⟨i, j, k, l, c, h⟩ := doHeader_block Opcode.program.byte a s
  have hlen := mergedWindow_length s a
  have hpos := window_pos s.cfg
  simp only [State.doProgramTransaction]
  generalize s.mergedWindow a = ms at hlen
  match ms, hlen with
  | [], hlen => simp at hlen; omega
  | m :: ms, hlen =>
    obtain ⟨ins, d, hl, hd⟩ := doSendBytes_block m ms ((s.doCommand Opcode.program.byte).doFrameAddress a)
    obtain ⟨e, he⟩ := doRelease_block (((s.doCommand Opcode.program.byte).doFrameAddress a).doSendBytes (m :: ms))
    refine ⟨i, j, k, l, ins, e.settle .program, hl.trans hlen, ?_⟩
    rw [he, hd, h, afterBytes_afterBytes, afterBytes_afterEdges, afterBytes_programWait]
    rw [afterBytes_latencyWait _ _ _ _ _ _ _ _ _ (.waitUs s.programWait) rfl]
    simp [programFrameTrace, Opcode.byte]

theorem doReadWindow_block (a : Addr) (s : State) :
    ∃ i j k l ins c, ins.length = s.cfg.window ∧
      s.doReadWindow a =
        (s.withBuffer ins).afterBytes
          (readFrameTrace s.cfg.dummy (windowStartAddr s.cfg a) i j k l ins) .released s.cfg.dummy (lastByte ins) c := by
  obtain ⟨i, j, k, l, ins, c, hl, h⟩ := doReadTransaction_block (windowStartAddr s.cfg a) s.cfg.window s
  refine ⟨i, j, k, l, ins, c, hl, ?_⟩
  simp only [State.doReadWindow]
  rw [h]
  match ins, hl with
  | [], hl => have := window_pos s.cfg; simp at hl; omega
  | x :: xs, _ => rfl

/-- The merged window depends on the operand registers, the buffer, the window size and the block's draw number alone. -/
theorem mergedWindow_congr {s t : State} (a : Addr) (hc : s.cfg = t.cfg) (ho : s.opr = t.opr) (hb : s.buf = t.buf)
    (hd : s.draws = t.draws) : s.mergedWindow a = t.mergedWindow a := by
  simp [State.mergedWindow, State.mergedByte, State.dinByte, State.bufByte, hc, ho, hb, hd]

@[simp] theorem afterBytes_mergedWindow (s : State) (es : List ByteEvent) (cs : ChipSelect) (o i : Byte) (c : Chip)
    (a : Addr) : (s.afterBytes es cs o i c).mergedWindow a = s.mergedWindow a := rfl

@[simp] theorem afterBytes_programWait' (s : State) (es : List ByteEvent) (cs : ChipSelect) (o i : Byte) (c : Chip) :
    (s.afterBytes es cs o i c).programWait = s.programWait := rfl

/-- Steps 3 to 6 of `program` (R213 to R216). -/
theorem doProgramTail_block (a : Addr) (s : State) :
    ∃ e1 i2 j2 k2 l2 e2 i3 j3 k3 l3 outs c, outs.length = s.cfg.window ∧
      (((s.doPlainCommand .wren).doSectorErase a).doPlainCommand .wren).doProgramTransaction a =
        (s.afterBytes
          (plainTrace 0x06#8 e1 ++ eraseTrace a i2 j2 k2 l2 s.tim.tSe ++ plainTrace 0x06#8 e2 ++
            programFrameTrace a i3 j3 k3 l3 (s.mergedWindow a) outs s.programWait)
          .released (lastByte (s.mergedWindow a)) (lastByte outs) c).forgetBuffer := by
  obtain ⟨x1, c2, e2⟩ := doPlainCommand_block .wren s
  obtain ⟨i2, j2, k2, l2, c3, e3⟩ := doSectorErase_block a (s.doPlainCommand .wren)
  obtain ⟨x2, c4, e4⟩ := doPlainCommand_block .wren ((s.doPlainCommand .wren).doSectorErase a)
  obtain ⟨i3, j3, k3, l3, outs, c5, h5, e5⟩ :=
    doProgramTransaction_block a (((s.doPlainCommand .wren).doSectorErase a).doPlainCommand .wren)
  rw [e2, afterBytes_tim, afterBytes_afterBytes] at e3
  rw [e2, e3, afterBytes_afterBytes] at e4
  rw [e2, e3, e4] at h5
  rw [e2, e3, e4, afterBytes_afterBytes, afterBytes_mergedWindow, afterBytes_programWait] at e5
  rw [e2, e3, e4]
  exact ⟨x1, i2, j2, k2, l2, x2, i3, j3, k3, l3, outs, c5, h5, e5⟩

/-- Forgetting the buffer forgets what it held. -/
theorem forgetBuffer_buf (s : State) (es : List ByteEvent) (cs : ChipSelect) (o i : Byte) (c : Chip) (ins : List Byte) :
    ((s.withBuffer ins).afterBytes es cs o i c).forgetBuffer = (s.afterBytes es cs o i c).forgetBuffer := rfl

theorem doProgram_block (a : Addr) (s : State) :
    ∃ i1 j1 k1 l1 ins e1 i2 j2 k2 l2 e2 i3 j3 k3 l3 outs c, ins.length = s.cfg.window ∧ outs.length = s.cfg.window ∧
      s.doProgram a =
        (s.afterBytes
          (readFrameTrace s.cfg.dummy (windowStartAddr s.cfg a) i1 j1 k1 l1 ins ++ plainTrace 0x06#8 e1 ++
            eraseTrace a i2 j2 k2 l2 s.tim.tSe ++ plainTrace 0x06#8 e2 ++
            programFrameTrace a i3 j3 k3 l3 ((s.withBuffer ins).mergedWindow a) outs s.programWait)
          .released (lastByte ((s.withBuffer ins).mergedWindow a)) (lastByte outs) c).forgetBuffer := by
  obtain ⟨i1, j1, k1, l1, ins, c1, h1, e1⟩ := doReadWindow_block a s
  obtain ⟨x1, i2, j2, k2, l2, x2, i3, j3, k3, l3, outs, c5, h5, e5⟩ := doProgramTail_block a (s.doReadWindow a)
  rw [e1] at h5 e5
  rw [afterBytes_afterBytes, forgetBuffer_buf, afterBytes_mergedWindow, afterBytes_programWait] at e5
  refine ⟨i1, j1, k1, l1, ins, x1, i2, j2, k2, l2, x2, i3, j3, k3, l3, outs, c5, h1, h5, ?_⟩
  rw [State.doProgram, e1, e5]
  simp only [List.append_assoc]
  rfl

end Sys2Proof.Machine
end

