-- ==== Sys2Proof/Laws/Encoding.lean ====
section
/-! SUPPORT. The small facts about bytes, opcodes and address frames that the encoding rests on. -/

namespace Sys2Proof

/-- The two address bytes make the address (R63, R103). -/
@[simp] theorem joinBytes_split (a : Addr) : joinBytes (hiByte a) (loByte a) = a := by
  apply BitVec.eq_of_getLsbD_eq
  intro i hi
  simp only [joinBytes, hiByte, loByte, BitVec.getLsbD_append, BitVec.getLsbD_extractLsb']
  by_cases h : i < 8
  · simp [h]
  · have h8 : i - 8 < 8 := by omega
    have e : 8 + (i - 8) = i := by omega
    simp [h, h8, e]

@[simp] theorem hiByte_joinBytes (h l : Byte) : hiByte (joinBytes h l) = h := by
  apply BitVec.eq_of_getLsbD_eq
  intro i hi
  have h1 : ¬ 8 + i < 8 := by omega
  have h2 : 8 + i - 8 = i := by omega
  have h3 : (h ++ l : BitVec (8 + 8)).getLsbD (8 + i) = h.getLsbD i := by rw [BitVec.getLsbD_append, if_neg h1, h2]
  rw [hiByte, BitVec.getLsbD_extractLsb', decide_eq_true hi, Bool.true_and]
  exact h3

@[simp] theorem loByte_joinBytes (h l : Byte) : loByte (joinBytes h l) = l := by
  apply BitVec.eq_of_getLsbD_eq
  intro i hi
  have h3 : (h ++ l : BitVec (8 + 8)).getLsbD (0 + i) = l.getLsbD i := by
    rw [BitVec.getLsbD_append, if_pos (by omega), Nat.zero_add]
  rw [loByte, BitVec.getLsbD_extractLsb', decide_eq_true hi, Bool.true_and]
  exact h3

/-- Setting one bit (R80). -/
theorem setBit_getLsbD : ∀ (v : Byte) (k : Fin 8) (b : Bool) (j : Fin 8),
    (setBit v k b).getLsbD j = if j = k then b else v.getLsbD j := by
  decide

@[simp] theorem ofByte_byte (o : Opcode) : Opcode.ofByte o.byte = some o := by cases o <;> rfl

/-- A byte is an opcode exactly when it is that opcode's byte (R102). -/
theorem ofByte_iff {b : Byte} {o : Opcode} : Opcode.ofByte b = some o ↔ b = o.byte := by
  constructor
  · intro h
    unfold Opcode.ofByte at h
    split at h <;> cases h <;> (apply BitVec.eq_of_toNat_eq; assumption)
  · rintro rfl; exact ofByte_byte o

/-- An address frame that decodes is the frame of the address (R103). -/
theorem decodeAddressFrame_iff {bytes : List Byte} {a : Addr} :
    decodeAddressFrame bytes = .ok a ↔ bytes = addressFrame a := by
  constructor
  · intro h
    unfold decodeAddressFrame at h
    split at h
    · split at h
      · cases h; subst_vars; simp [addressFrame]
      · cases h
    · cases h
  · rintro rfl; simp [addressFrame, decodeAddressFrame]

end Sys2Proof
end

