-- ==== Sys2Proof/Laws/Memory.lean ====
section
/-! SUPPORT. The flash array: reading after writing, and that every operation keeps the canonical form. -/

namespace Sys2Proof.Machine

open Sys2Proof

/-! ## Lists of cells -/

theorem lookupCell_append (x : Nat) (l m : List Host.Cell) :
    lookupCell x (l ++ m) = (lookupCell x l).or (lookupCell x m) := by
  induction l with
  | nil => rfl
  | cons c l ih =>
    obtain ⟨y, b⟩ := c
    by_cases h : x = y <;> simp [lookupCell, h, ih]

theorem lookupCell_none {x : Nat} {l : List Host.Cell} (h : ∀ c ∈ l, c.1 ≠ x) : lookupCell x l = none := by
  induction l with
  | nil => rfl
  | cons c l ih =>
    obtain ⟨y, b⟩ := c
    have hy : x ≠ y := fun e => h (y, b) (by simp) e.symm
    simp only [lookupCell, hy, if_false]
    exact ih fun d hd => h d (by simp [hd])

theorem lookupCell_filter (x : Nat) (l : List Host.Cell) (f : Nat → Bool) :
    lookupCell x (l.filter fun c => f c.1) = if f x then lookupCell x l else none := by
  induction l with
  | nil => simp [lookupCell]
  | cons c l ih =>
    obtain ⟨y, b⟩ := c
    by_cases hy : f y = true
    · by_cases h : x = y
      · subst h; simp [lookupCell, hy]
      · simp [lookupCell, hy, h, ih]
    · by_cases h : x = y
      · subst h; simp [hy, ih]
      · simp [lookupCell, hy, h, ih]

theorem lookupCell_cellRun (x lo : Nat) (bs : List Byte) :
    lookupCell x (cellRun lo bs) = if lo ≤ x then bs[x - lo]? else none := by
  induction bs generalizing lo with
  | nil => simp [cellRun, lookupCell]
  | cons b bs ih =>
    by_cases h : x = lo
    · subst h; simp [cellRun, lookupCell]
    · by_cases h2 : lo ≤ x
      · have e : x - lo = (x - (lo + 1)) + 1 := by omega
        have h3 : lo + 1 ≤ x := by omega
        simp only [cellRun, lookupCell, h, if_false, ih, h3, h2, if_true]
        rw [e, List.getElem?_cons_succ]
      · have h3 : ¬ lo + 1 ≤ x := by omega
        simp [cellRun, lookupCell, h, h2, h3, ih]

theorem mem_cellRun {c : Host.Cell} {lo : Nat} {bs : List Byte} (h : c ∈ cellRun lo bs) :
    lo ≤ c.1 ∧ c.1 < lo + bs.length := by
  induction bs generalizing lo with
  | nil => simp [cellRun] at h
  | cons b bs ih =>
    simp only [cellRun, List.mem_cons] at h
    rcases h with rfl | h
    · simp
    · have := ih h
      simp only [List.length_cons]
      omega

theorem cellRun_rising (lo : Nat) (bs : List Byte) : (cellRun lo bs).Pairwise (fun c d => c.1 < d.1) := by
  induction bs generalizing lo with
  | nil => exact .nil
  | cons b bs ih => exact .cons (fun d hd => by have := mem_cellRun hd; simp; omega) (ih _)

/-! ## Reading and writing -/

@[simp] theorem write_epoch (m : Memory) (lo : Nat) (bs : List Byte) : (m.write lo bs).epoch = m.epoch := rfl

/-- Reading after writing: a stored byte inside the run, the old byte outside it. -/
theorem read_write (m : Memory) (lo x : Nat) (bs : List Byte) :
    (m.write lo bs).read x = if h : lo ≤ x ∧ x < lo + bs.length then bs[x - lo]'(by omega) else m.read x := by
  simp only [Memory.read, Memory.unlisted, write_epoch]
  simp only [Memory.write, lookupCell_append]
  rw [lookupCell_filter x m.cells (fun y => decide (y < lo)), lookupCell_cellRun,
    lookupCell_filter x m.cells (fun y => decide (lo + bs.length ≤ y))]
  by_cases h1 : x < lo
  · have h2 : ¬ lo ≤ x := by omega
    have h3 : ¬ lo + bs.length ≤ x := by omega
    simp [h1, h2, h3]
  · have h2 : lo ≤ x := by omega
    by_cases h3 : x < lo + bs.length
    · have h4 : x - lo < bs.length := by omega
      simp [h1, h2, h3, h4]
    · have h4 : bs[x - lo]? = none := List.getElem?_eq_none (by omega)
      have h5 : lo + bs.length ≤ x := by omega
      simp [h1, h2, h3, h4, h5]

theorem read_write_inside (m : Memory) (lo k : Nat) (bs : List Byte) (h : k < bs.length) :
    (m.write lo bs).read (lo + k) = bs[k] := by
  rw [read_write, dif_pos ⟨by omega, by omega⟩]
  simp

theorem read_write_outside (m : Memory) (lo x : Nat) (bs : List Byte) (h : x < lo ∨ lo + bs.length ≤ x) :
    (m.write lo bs).read x = m.read x := by
  rw [read_write, dif_neg (by omega)]

/-- A write inside the array keeps the canonical form. -/
theorem write_wf {m : Memory} (hm : m.wf) {lo : Nat} {bs : List Byte} (h : lo + bs.length ≤ arraySize) :
    (m.write lo bs).wf := by
  obtain ⟨hp, hb⟩ := hm
  refine ⟨?_, ?_⟩
  · refine List.pairwise_append.2 ⟨hp.filter _, List.pairwise_append.2 ⟨cellRun_rising _ _, hp.filter _, ?_⟩, ?_⟩
    · intro c hc d hd
      have := mem_cellRun hc
      have := List.of_mem_filter hd
      simp at this; omega
    · intro c hc d hd
      have h1 := List.of_mem_filter hc
      simp at h1
      rcases List.mem_append.1 hd with hd | hd
      · have := mem_cellRun hd; omega
      · have := List.of_mem_filter hd; simp at this; omega
  · intro c hc
    rcases List.mem_append.1 hc with hc | hc
    · exact hb c (List.mem_of_mem_filter hc)
    · rcases List.mem_append.1 hc with hc | hc
      · have := mem_cellRun hc; omega
      · exact hb c (List.mem_of_mem_filter hc)

/-- An array of which nothing is known. -/
theorem unspecified_wf (e : Nat) : ({ cells := [], epoch := e } : Memory).wf := ⟨.nil, by simp⟩

/-! ## Granules -/

theorem granuleStart_le (g a : Nat) : granuleStart g a ≤ a := Nat.div_mul_le_self a g

theorem lt_granuleEnd {g : Nat} (hg : 0 < g) (a : Nat) : a < granuleStart g a + g := by
  have := Nat.div_add_mod a g
  have := Nat.mod_lt a hg
  rw [granuleStart, Nat.mul_comm]
  omega

/-- The start of the granule that holds an aligned address is that address. -/
theorem granuleStart_aligned {g a : Nat} (h : a % g = 0) : granuleStart g a = a :=
  Nat.div_mul_cancel (Nat.dvd_of_mod_eq_zero h)

theorem granuleStart_mod (g a : Nat) : granuleStart g a % g = 0 := by simp [granuleStart]

/-- No window straddles the top of the array (R211, D20). -/
theorem windowEnd_le (p : Config.Params) {a : Nat} (ha : a < arraySize) : windowEnd p a ≤ arraySize := by
  have hd : p.window ∣ arraySize := by
    have : arraySize = 2 ^ 16 := rfl
    rw [this]
    exact Nat.pow_dvd_pow 2 (by have := p.windowLog.isLt; omega)
  obtain ⟨q, hq⟩ := hd
  have hw : 0 < p.window := Nat.two_pow_pos _
  have h1 : a / p.window < q := by
    rw [Nat.div_lt_iff_lt_mul hw, Nat.mul_comm, ← hq]
    exact ha
  have h2 : (a / p.window + 1) * p.window ≤ q * p.window := Nat.mul_le_mul_right _ h1
  have h3 : q * p.window = arraySize := by rw [Nat.mul_comm]; exact hq.symm
  have h4 : (a / p.window + 1) * p.window = granuleStart p.window a + p.window := by
    rw [Nat.add_mul, Nat.one_mul]; rfl
  rw [windowEnd]
  omega

/-! ## Erasing and programming -/

theorem sectorOf_end (p : Config.Params) {a : Nat} (ha : a < arraySize) :
    (sectorOf p a).1 + (sectorOf p a).2 ≤ arraySize := by
  have := granuleStart_le p.sectorSize a
  simp only [sectorOf]
  omega

theorem eraseSector_wf (p : Config.Params) {m : Memory} (hm : m.wf) {a : Nat} (ha : a < arraySize) :
    (m.eraseSector p a).wf :=
  write_wf hm (by simpa using sectorOf_end p ha)

theorem eraseAll_wf (p : Config.Params) {m : Memory} (hm : m.wf) : (m.eraseAll p).wf :=
  write_wf hm (by simp)

theorem programmedCells_length (p : Config.Params) (m : Memory) (d a : Nat) (bs : List Byte) :
    (programmedCells p m d a bs).length = bs.length := by
  induction bs generalizing d a with
  | nil => rfl
  | cons b bs ih => simp [programmedCells, ih]

@[simp] theorem keepWindow_epoch (p : Config.Params) (m : Memory) (d a : Nat) : (m.keepWindow p d a).epoch = d := rfl

theorem mem_keepWindow {p : Config.Params} {m : Memory} {d a : Nat} {c : Host.Cell} (h : c ∈ (m.keepWindow p d a).cells) :
    granuleStart p.window a ≤ c.1 ∧ c.1 < windowEnd p a := by
  have := mem_cellRun h
  simpa [windowEnd] using this

theorem keepWindow_wf (p : Config.Params) (m : Memory) (d : Nat) {a : Nat} (ha : a < arraySize) : (m.keepWindow p d a).wf := by
  refine ⟨cellRun_rising _ _, fun c hc => ?_⟩
  have := mem_keepWindow hc
  have := windowEnd_le p ha
  omega

/-- Inside the window every byte is as before. -/
theorem read_keepWindow (p : Config.Params) (m : Memory) (d a : Nat) {x : Nat} (h1 : granuleStart p.window a ≤ x)
    (h2 : x < windowEnd p a) : (m.keepWindow p d a).read x = m.read x := by
  have hx : x - granuleStart p.window a < p.window := by rw [windowEnd] at h2; omega
  have e : granuleStart p.window a + (x - granuleStart p.window a) = x := by omega
  rw [Memory.read, Memory.keepWindow, lookupCell_cellRun, if_pos h1]
  simp [hx, e]

/-- Once a window is restored the array is as it is where W = S_CHIP, and otherwise only the window is kept (93 U11). -/
theorem restored_cases (p : Config.Params) (m : Memory) (d a : Nat) :
    (p.sectorSize = p.window ∧ m.restored p d a = m) ∨
      (p.sectorSize ≠ p.window ∧ m.restored p d a = m.keepWindow p d a) := by
  unfold Memory.restored
  split
  · next h => exact .inl ⟨h, rfl⟩
  · next h => exact .inr ⟨h, rfl⟩

/-- Either way every byte of the window is as before. -/
theorem read_restored (p : Config.Params) (m : Memory) (d a : Nat) {x : Nat} (h1 : granuleStart p.window a ≤ x)
    (h2 : x < windowEnd p a) : (m.restored p d a).read x = m.read x := by
  obtain ⟨-, h⟩ | ⟨-, h⟩ := restored_cases p m d a
  · rw [h]
  · rw [h, read_keepWindow p m d a h1 h2]

theorem program_wf (p : Config.Params) {m : Memory} (hm : m.wf) (d : Nat) {a : Nat} (ha : a < arraySize) (bs : List Byte) :
    (m.program p d a bs).wf := by
  unfold Memory.program
  split
  · next h =>
    obtain ⟨-, e⟩ | ⟨-, e⟩ := restored_cases p (m.write a (programmedCells p m d a bs)) d a <;> rw [e]
    · exact write_wf hm (by rw [programmedCells_length]; exact h.2)
    · exact keepWindow_wf p _ d ha
  · exact unspecified_wf d

/-- The free values of the array after a PROGRAM are those of before or are numbered from `d`. -/
theorem program_epoch_cases (p : Config.Params) (m : Memory) (d a : Nat) (bs : List Byte) :
    (m.program p d a bs).epoch = m.epoch ∨ (m.program p d a bs).epoch = d := by
  unfold Memory.program
  split
  · obtain ⟨-, e⟩ | ⟨-, e⟩ := restored_cases p (m.write a (programmedCells p m d a bs)) d a <;> rw [e]
    · exact .inl rfl
    · exact .inr rfl
  · exact .inr rfl

@[simp] theorem eraseSector_epoch (p : Config.Params) (m : Memory) (a : Nat) : (m.eraseSector p a).epoch = m.epoch := rfl
@[simp] theorem eraseAll_epoch (p : Config.Params) (m : Memory) : (m.eraseAll p).epoch = m.epoch := rfl

/-- The sector of an address is the addresses with the same quotient (R90). -/
theorem mem_sectorOf (p : Config.Params) (a x : Nat) (hx : x < arraySize) :
    ((sectorOf p a).1 ≤ x ∧ x < (sectorOf p a).1 + (sectorOf p a).2) ↔
      (x / p.sectorSize = a / p.sectorSize ∧ 0 < p.sectorSize) := by
  simp only [sectorOf, granuleStart, arraySize] at hx ⊢
  rcases Nat.eq_zero_or_pos p.sectorSize with h | h
  · simp [h]
  · constructor
    · rintro ⟨h1, h2⟩
      refine ⟨?_, h⟩
      apply Nat.div_eq_of_lt_le
      · exact h1
      · rw [Nat.add_mul, Nat.one_mul]; omega
    · rintro ⟨h1, -⟩
      have h3 := Nat.div_mul_le_self x p.sectorSize
      have h4 := Nat.lt_div_mul_add (a := x) h
      rw [h1] at h3 h4
      omega

/-- SECTOR_ERASE erases exactly the sector (R83). -/
theorem read_eraseSector (p : Config.Params) (m : Memory) (a x : Nat) :
    (m.eraseSector p a).read x =
      if (sectorOf p a).1 ≤ x ∧ x < (sectorOf p a).1 + (sectorOf p a).2 then p.erased else m.read x := by
  rw [Memory.eraseSector, read_write]
  simp only [List.length_replicate, List.getElem_replicate]
  split <;> simp_all

/-- CHIP_ERASE erases every byte (R83). -/
theorem read_eraseAll (p : Config.Params) (m : Memory) {x : Nat} (hx : x < arraySize) :
    (m.eraseAll p).read x = p.erased := by
  rw [Memory.eraseAll, read_write, dif_pos ⟨Nat.zero_le _, by simpa using hx⟩]
  simp

/-- What each cell takes (R84). -/
theorem programmedCells_getElem? (p : Config.Params) (m : Memory) (d a k : Nat) (bs : List Byte) :
    (programmedCells p m d a bs)[k]? =
      (bs[k]?).map fun b => if m.read (a + k) = p.erased then b else Config.chipByte (d + k) := by
  induction bs generalizing d a k with
  | nil => rfl
  | cons b bs ih =>
    cases k with
    | zero => rfl
    | succ k => simp [programmedCells, ih, Nat.add_assoc, Nat.add_comm 1 k]

/-- Programming erased cells stores the bytes (R84). -/
theorem programmedCells_erased (p : Config.Params) (m : Memory) (d a : Nat) (bs : List Byte)
    (h : ∀ k < bs.length, m.read (a + k) = p.erased) : programmedCells p m d a bs = bs := by
  induction bs generalizing d a with
  | nil => rfl
  | cons b bs ih =>
    have h0 : m.read a = p.erased := h 0 (by simp)
    rw [programmedCells, if_pos h0, ih]
    intro k hk
    have := h (k + 1) (by simpa using hk)
    rwa [show a + 1 + k = a + (k + 1) by omega]

/-- PROGRAM inside one window is a write of the programmed cells, after which the window is restored (R84). -/
theorem program_inside (p : Config.Params) (m : Memory) (d a : Nat) (bs : List Byte)
    (h : a + bs.length ≤ windowEnd p a ∧ a + bs.length ≤ arraySize) :
    m.program p d a bs = (m.write a (programmedCells p m d a bs)).restored p d a := if_pos h

/-- With W different from S_CHIP only the bytes of the window are known afterwards (93 U11). -/
theorem program_inside_mismatched (p : Config.Params) (m : Memory) (d a : Nat) (bs : List Byte)
    (h : a + bs.length ≤ windowEnd p a ∧ a + bs.length ≤ arraySize) (hg : p.sectorSize ≠ p.window) :
    m.program p d a bs = (m.write a (programmedCells p m d a bs)).keepWindow p d a := by
  rw [program_inside p m d a bs h, Memory.restored, if_neg hg]

/-- With W = S_CHIP it is that write and nothing else. -/
theorem program_inside_matching (p : Config.Params) (m : Memory) (d a : Nat) (bs : List Byte)
    (h : a + bs.length ≤ windowEnd p a ∧ a + bs.length ≤ arraySize) (hg : p.sectorSize = p.window) :
    m.program p d a bs = m.write a (programmedCells p m d a bs) := by
  rw [program_inside p m d a bs h, Memory.restored, if_pos hg]

/-- PROGRAM past the window or the array leaves the array unspecified (R84). -/
theorem program_outside (p : Config.Params) (m : Memory) (d a : Nat) (bs : List Byte)
    (h : ¬ (a + bs.length ≤ windowEnd p a ∧ a + bs.length ≤ arraySize)) :
    m.program p d a bs = { cells := [], epoch := d } := if_neg h

/-- W bytes at the start of a window are inside it. -/
theorem aligned_fits (p : Config.Params) {a : Nat} (ha : a < arraySize) (h : a % p.window = 0) {n : Nat}
    (hn : n ≤ p.window) : a + n ≤ windowEnd p a ∧ a + n ≤ arraySize := by
  have h1 := windowEnd_le p ha
  have h2 : windowEnd p a = a + p.window := by rw [windowEnd, granuleStart_aligned h]
  omega

end Sys2Proof.Machine
end

