-- ==== Sys2Proof/Laws/Device.lean ====
section
/-! SUPPORT. What each shared operation does to a chip that is in step with the block: the parser follows the frame, nothing
stored changes before the release, and what the release applies. -/

namespace Sys2Proof.Machine

open Sys2Proof

/-! ## The parser -/

/-- The parser position after the whole bytes `bs`, or none where one of them breaks the framing. -/
def Parser.run (w : Nat) (busy : Option Mutation) : List Byte → Parser → Option Parser
  | [], q => some q
  | b :: bs, q => (q.next w busy b).bind (Parser.run w busy bs)

/-- The parser stands inside a transaction that it follows. -/
def Parser.live (q : Parser) : Prop := q ≠ .closed ∧ q ≠ .desync

theorem live_iff (c : Chip) : c.live = true ↔ c.parser.live := by
  unfold Chip.live Parser.live
  split <;> simp_all

theorem next_live {w : Nat} {busy : Option Mutation} {b : Byte} {q r : Parser} (h : q.next w busy b = some r) (hq : q.live) :
    r.live := by
  obtain ⟨h1, h2⟩ := hq
  cases q <;> simp only [Parser.next] at h
  case closed => exact absurd rfl h1
  case desync => exact absurd rfl h2
  case opcode =>
    split at h
    · cases h
    · next o _ =>
      split at h
      · cases h; cases o <;> simp [Parser.afterOpcode, Parser.live]
      · cases h
  case address2 cmd x => cases h; cases cmd <;> simp [Parser.afterAddress, Parser.live]
  case statusWrite v => cases v <;> simp at h; subst h; simp [Parser.live]
  all_goals first | (cases h; done) | (split at h <;> cases h <;> simp [Parser.live]) | (cases h; simp [Parser.live])

/-- A chip that is no longer busy takes whatever a busy one takes. -/
theorem next_mono {w : Nat} {busy : Option Mutation} {b : Byte} {q r : Parser} (h : q.next w busy b = some r) :
    q.next w none b = some r := by
  cases q <;> simp_all [Parser.next]
  case opcode =>
    split at h
    · cases h
    · split at h
      · simpa [opcodeTaken] using h
      · cases h
  case statusWrite v => cases v <;> simp_all

theorem run_mono {w : Nat} {busy : Option Mutation} {bs : List Byte} {q r : Parser} (h : Parser.run w busy bs q = some r) :
    Parser.run w none bs q = some r := by
  induction bs generalizing q with
  | nil => exact h
  | cons b bs ih =>
    simp only [Parser.run, Option.bind_eq_some_iff] at h ⊢
    obtain ⟨x, hx, h⟩ := h
    exact ⟨x, next_mono hx, ih h⟩

/-- The address frame of an addressed command (R103). -/
theorem run_addressFrame (w : Nat) (busy : Option Mutation) (cmd : AddressedCommand) (a : Addr) :
    Parser.run w busy (addressFrame a) (.address0 cmd) = some (Parser.afterAddress cmd a) := by
  simp [Parser.run, addressFrame, Parser.next, joinBytes_split]

/-- Data bytes of PROGRAM, no more than W of them. -/
theorem run_programming {w : Nat} (busy : Option Mutation) (a : Addr) (bs ds : List Byte) (h : ds.length + bs.length ≤ w) :
    Parser.run w busy bs (.programming a ds) = some (.programming a (bs.reverse ++ ds)) := by
  induction bs generalizing ds with
  | nil => rfl
  | cons b bs ih =>
    rw [List.length_cons] at h
    simp only [Parser.run, Parser.next]
    rw [if_pos (by omega), Option.bind_some, ih _ (by simp; omega)]
    simp

/-! ## A chip in step with the block -/

/-- `d` is `c` further on in its transaction, at parser position `q`: nothing stored has changed. -/
structure Follows (c d : Chip) (q : Parser) : Prop where
  array : d.array = c.array
  wel : d.wel = c.wel
  statusOther : d.statusOther = c.statusOther
  busy : d.busy = c.busy ∨ d.busy = none
  manufacturer : d.manufacturer = c.manufacturer
  device : d.device = c.device
  conforming : d.conforming = c.conforming
  parser : d.parser = q
  byteBoundary : d.bitCount = 0
  draws : c.draws ≤ d.draws

theorem Follows.trans {c d e : Chip} {q r : Parser} (h : Follows c d q) (g : Follows d e r) : Follows c e r where
  array := g.array.trans h.array
  wel := g.wel.trans h.wel
  statusOther := g.statusOther.trans h.statusOther
  busy := by rcases g.busy with e | e <;> rcases h.busy with f | f <;> simp [e, f]
  manufacturer := g.manufacturer.trans h.manufacturer
  device := g.device.trans h.device
  conforming := g.conforming.trans h.conforming
  parser := g.parser
  byteBoundary := g.byteBoundary
  draws := h.draws.trans g.draws

theorem Follows.notBusy {c d : Chip} {q : Parser} (h : Follows c d q) (hb : c.busy = none) : d.busy = none := by
  rcases h.busy with e | e <;> simp [e, hb]

/-- What comes next for a chip further on is what comes next by the parser position reached. -/
theorem Follows.run {w : Nat} {c d : Chip} {q r : Parser} {bs : List Byte} (h : Follows c d q)
    (hr : Parser.run w c.busy bs q = some r) : Parser.run w d.busy bs d.parser = some r := by
  rw [h.parser]
  rcases h.busy with e | e <;> rw [e]
  · exact hr
  · exact run_mono hr

theorem latch_busy (p : Config.Params) (c : Chip) : (c.latch p).busy = c.busy ∨ (c.latch p).busy = none := by
  unfold Chip.latch Chip.supplyStatus Chip.supplyFree
  split
  · split <;> (try split) <;> simp_all
  · simp

theorem exchange_follows (p : Config.Params) {c : Chip} {out : Byte} {q : Parser}
    (h : c.parser.next p.window c.busy out = some q) : Follows c (c.exchange p out) q := by
  have hn : (c.latch p).parser.next p.window (c.latch p).busy out = some q := by
    rw [latch_parser]
    rcases latch_busy p c with e | e <;> rw [e]
    · exact h
    · exact next_mono h
  have : c.exchange p out = { c.latch p with rx := out, bitCount := 0, parser := q } := by
    simp only [Chip.exchange, Chip.advance, hn]
  rw [this]
  exact ⟨by simp, by simp, by simp, latch_busy p c, by simp, by simp, by simp, rfl, rfl, latch_draws p c⟩

/-- The block is inside a transaction, at a byte boundary, not held. -/
structure Session (p : Config.Params) (s : State) : Prop where
  cfg : s.cfg = p
  clockLow : s.pins.sck = false
  selected : s.pins.cs = .asserted
  notHeld : s.pins.hold = .inactive
  byteBoundary : s.chip.bitCount = 0

/-- The block is idle on the bus, not held. -/
structure Rest (p : Config.Params) (s : State) : Prop where
  cfg : s.cfg = p
  clockLow : s.pins.sck = false
  busIdle : s.pins.cs = .released
  notHeld : s.pins.hold = .inactive

variable {p : Config.Params} {s : State}

/-- One byte inside a transaction. -/
theorem doTransfer_follows (hs : Session p s) (hl : s.chip.parser.live) {out : Byte} {q : Parser}
    (hn : s.chip.parser.next p.window s.chip.busy out = some q) :
    Follows s.chip (s.doTransfer out).chip q ∧ Session p (s.doTransfer out) ∧
      (s.doTransfer out).res.rb = (s.chip.latch p).tx := by
  have h := doTransfer_live out hs.clockLow hs.selected hs.notHeld ((live_iff _).2 hl) hs.byteBoundary
  rw [← hs.cfg] at hn
  have hf := exchange_follows s.cfg hn
  rw [h]
  refine ⟨hf, ⟨hs.cfg, rfl, rfl, hs.notHeld, hf.byteBoundary⟩, ?_⟩
  rw [← hs.cfg]
  rfl

theorem doSendBytes_follows (hs : Session p s) (hl : s.chip.parser.live) {bs : List Byte} {q : Parser}
    (hr : Parser.run p.window s.chip.busy bs s.chip.parser = some q) :
    Follows s.chip (s.doSendBytes bs).chip q ∧ Session p (s.doSendBytes bs) := by
  induction bs generalizing s with
  | nil =>
    cases hr
    exact ⟨⟨rfl, rfl, rfl, .inl rfl, rfl, rfl, rfl, rfl, hs.byteBoundary, Nat.le_refl _⟩, hs⟩
  | cons b bs ih =>
    simp only [Parser.run, Option.bind_eq_some_iff] at hr
    obtain ⟨x, hx, hr⟩ := hr
    obtain ⟨f, hs', -⟩ := doTransfer_follows hs hl hx
    obtain ⟨g, hs''⟩ := ih hs' (by rw [f.parser]; exact next_live hx hl) (f.run hr)
    exact ⟨f.trans g, hs''⟩

/-- `select` from rest. -/
theorem doSelect_follows (hs : Rest p s) : Follows s.chip s.doSelect.chip .opcode ∧ Session p s.doSelect := by
  rw [doSelect_idle hs.clockLow hs.busIdle hs.notHeld]
  exact ⟨⟨rfl, rfl, rfl, .inl rfl, rfl, rfl, rfl, rfl, rfl, Nat.le_refl _⟩, ⟨hs.cfg, rfl, rfl, hs.notHeld, rfl⟩⟩

/-- The opcode of a transaction begun from rest. -/
theorem doCommand_follows (hs : Rest p s) {b : Byte} {o : Opcode} (ho : Opcode.ofByte b = some o)
    (ht : opcodeTaken s.chip.busy o = true) :
    Follows s.chip (s.doCommand b).chip (Parser.afterOpcode o) ∧ Session p (s.doCommand b) := by
  obtain ⟨f, h1⟩ := doSelect_follows hs
  have hn : s.doSelect.chip.parser.next p.window s.doSelect.chip.busy b = some (Parser.afterOpcode o) := by
    have : Parser.run p.window s.chip.busy [b] .opcode = some (Parser.afterOpcode o) := by
      simp [Parser.run, Parser.next, ho, ht]
    simpa [Parser.run] using f.run this
  obtain ⟨g, h2, -⟩ := doTransfer_follows h1 (by rw [f.parser]; simp [Parser.live]) hn
  exact ⟨f.trans g, h2⟩

/-- `release` inside a transaction. -/
theorem doRelease_finishes (hs : Session p s) : s.doRelease.chip = s.chip.finish p ∧ Rest p s.doRelease := by
  rw [doRelease_selected hs.clockLow hs.selected hs.notHeld hs.byteBoundary, hs.cfg]
  exact ⟨rfl, ⟨hs.cfg, rfl, rfl, hs.notHeld⟩⟩

theorem opcodeTaken_notBusy {c : Chip} (h : c.busy = none) (o : Opcode) : opcodeTaken c.busy o = true := by
  simp [opcodeTaken, h]

/-- The opcode of an addressed command. -/
def AddressedCommand.opcode : AddressedCommand → Opcode
  | .read => .read
  | .program => .program
  | .sectorErase => .sectorErase

theorem afterOpcode_addressed (cmd : AddressedCommand) : Parser.afterOpcode cmd.opcode = .address0 cmd := by
  cases cmd <;> rfl

/-- The header of an addressed command from rest (R104). -/
theorem doHeader_follows (hs : Rest p s) (hb : s.chip.busy = none) (cmd : AddressedCommand) (a : Addr) :
    Follows s.chip ((s.doCommand cmd.opcode.byte).doFrameAddress a).chip (Parser.afterAddress cmd a) ∧
      Session p ((s.doCommand cmd.opcode.byte).doFrameAddress a) := by
  obtain ⟨f, h1⟩ := doCommand_follows hs (ofByte_byte cmd.opcode) (opcodeTaken_notBusy hb _)
  rw [afterOpcode_addressed] at f
  obtain ⟨g, h2⟩ := doSendBytes_follows h1 (by rw [f.parser]; simp [Parser.live])
    (f.run (run_addressFrame _ s.chip.busy cmd a))
  exact ⟨f.trans g, h2⟩

theorem Follows.kept {c d : Chip} {q : Parser} (h : Follows c d q) : c.StoreKept d :=
  ⟨fun x => by rw [h.array], h.wel, h.statusOther⟩

theorem State.Ready.rest (h : s.Ready) : Rest s.cfg s := ⟨rfl, h.clockLow, h.busIdle, h.notHeld⟩

theorem Rest.start (h : Rest p s) (i : Instr) : Rest p (s.start i) := ⟨h.cfg, h.clockLow, h.busIdle, h.notHeld⟩

theorem State.InFrame.session (h : s.InFrame) : Session s.cfg s :=
  ⟨rfl, h.clockLow, h.selected, h.notHeld, h.byteBoundary⟩

theorem State.InFrame.live (h : s.InFrame) : s.chip.parser.live := ⟨h.opened, h.synchronised⟩

/-! ## Whole transactions -/

/-- `d` is `c` after a whole transaction: the array, the latch and the other status bits are as given, the rest as in `c`,
and no transaction is open. -/
structure After (c d : Chip) (array : Memory) (wel : Bool) (statusOther : Byte) : Prop where
  array : d.array = array
  wel : d.wel = wel
  statusOther : d.statusOther = statusOther
  notBusy : c.busy = none → d.busy = none
  manufacturer : d.manufacturer = c.manufacturer
  device : d.device = c.device
  conforming : d.conforming = c.conforming
  parser : d.parser = .closed
  byteBoundary : d.bitCount = 0
  draws : c.draws ≤ d.draws

theorem After.trans {c d e : Chip} {a b : Memory} {w x : Bool} {t u : Byte} (h : After c d a w t) (g : After d e b x u) :
    After c e b x u where
  array := g.array
  wel := g.wel
  statusOther := g.statusOther
  notBusy := fun hb => g.notBusy (h.notBusy hb)
  manufacturer := g.manufacturer.trans h.manufacturer
  device := g.device.trans h.device
  conforming := g.conforming.trans h.conforming
  parser := g.parser
  byteBoundary := g.byteBoundary
  draws := h.draws.trans g.draws

theorem After.rested {c d : Chip} {m : Memory} {w : Bool} {t : Byte} (h : After c d m w t) (hb : c.busy = none) :
    c.Rested d := ⟨h.notBusy hb, h.parser, h.byteBoundary, h.conforming, h.manufacturer, h.device⟩

theorem After.kept {c d : Chip} (h : After c d c.array c.wel c.statusOther) : c.StoreKept d :=
  ⟨fun x => by rw [h.array], h.wel, h.statusOther⟩

/-- After a whole transaction from rest, block and chip are at rest again. -/
theorem After.ready {m : Memory} {w : Bool} {t : Byte} {u : State} (h : After s.chip u.chip m w t) (hs : s.Ready)
    (hu : Rest p u) (hi : u.inited = true) : u.Ready :=
  ⟨hi, hu.clockLow, hu.busIdle, hu.notHeld, h.conforming.trans hs.conforming, h.notBusy hs.notBusy, h.parser, h.byteBoundary⟩

/-- After an operation from rest that leaves the chip at rest, block and chip are at rest again. -/
theorem State.Ready.again {t : State} (hs : s.Ready) (hc : s.chip.Rested t.chip) (hi : t.inited = s.inited)
    (hk : t.pins.sck = false) (hr : t.pins.cs = .released) (hh : t.pins.hold = s.pins.hold) : t.Ready :=
  ⟨hi.trans hs.inited, hk, hr, hh.trans hs.notHeld, hc.conforming.trans hs.conforming, hc.notBusy, hc.closed,
    hc.byteBoundary⟩

/-- A release that applies nothing (R67, R81, R82). -/
theorem Follows.closes {c d : Chip} {q : Parser} (h : Follows c d q)
    (hq : q = .status true ∨ q = .ident 2 ∨ ∃ n, q = .reading n) : After c (d.finish p) c.array c.wel c.statusOther := by
  have e : d.finish p = { d with parser := .closed } := by
    rcases hq with rfl | rfl | ⟨n, rfl⟩ <;> simp [Chip.finish, h.parser]
  rw [e]
  exact ⟨h.array, h.wel, h.statusOther, h.notBusy, h.manufacturer, h.device, h.conforming, rfl, h.byteBoundary, h.draws⟩

/-- WREN and WRDI (R79, R90). -/
theorem doPlainCommand_after (hs : Rest p s) (hb : s.chip.busy = none) :
    After s.chip (s.doPlainCommand .wren).chip s.chip.array true s.chip.statusOther ∧ Rest p (s.doPlainCommand .wren) ∧
    After s.chip (s.doPlainCommand .wrdi).chip s.chip.array false s.chip.statusOther ∧ Rest p (s.doPlainCommand .wrdi) := by
  obtain ⟨f, h1⟩ := doCommand_follows hs (ofByte_byte .wren) (opcodeTaken_notBusy hb _)
  obtain ⟨g, h2⟩ := doCommand_follows hs (ofByte_byte .wrdi) (opcodeTaken_notBusy hb _)
  obtain ⟨e1, r1⟩ := doRelease_finishes h1
  obtain ⟨e2, r2⟩ := doRelease_finishes h2
  simp only [State.doPlainCommand, e1, e2, Chip.finish, f.parser, g.parser, Parser.afterOpcode]
  exact ⟨⟨f.array, rfl, f.statusOther, f.notBusy, f.manufacturer, f.device, f.conforming, rfl, f.byteBoundary, f.draws⟩, r1,
    ⟨g.array, rfl, g.statusOther, g.notBusy, g.manufacturer, g.device, g.conforming, rfl, g.byteBoundary, g.draws⟩, r2⟩

/-- The mutations, once their wait is over: with the latch set the array is `array'`, without it nothing changes; the latch is
clear either way (R79, R90). -/
theorem Follows.mutates {c d : Chip} {q : Parser} (h : Follows c d q) (m : Mutation) (array' : Memory) (hb : c.busy = none)
    (k : Nat) :
    After c (({ d.mutate m array' with draws := d.draws + k } : Chip).settle m) (if c.wel then array' else c.array) false
      c.statusOther := by
  refine ⟨?_, rfl, h.statusOther, fun _ => ?_, h.manufacturer, h.device, h.conforming, rfl, h.byteBoundary, ?_⟩
  · simp [Chip.settle, Chip.mutate, h.wel, h.array]
  · cases hw : d.wel <;> simp [Chip.settle, Chip.mutate, hw, h.notBusy hb]
  · exact h.draws.trans (Nat.le_add_right _ _)

@[simp] theorem latencyWait_chip (s : State) (m : Mutation) (u : DelayUnit) (n : BitVec 32) :
    (s.latencyWait m u n).chip = s.chip.settle m := rfl

theorem latencyWait_rest (hs : Rest p s) (m : Mutation) (u : DelayUnit) (n : BitVec 32) : Rest p (s.latencyWait m u n) :=
  ⟨hs.cfg, hs.clockLow, hs.busIdle, hs.notHeld⟩

/-- CHIP_ERASE and its wait (R83, R197). -/
theorem doChipErase_after (hs : Rest p s) (hb : s.chip.busy = none) :
    After s.chip s.doChipErase.chip (if s.chip.wel then s.chip.array.eraseAll p else s.chip.array) false s.chip.statusOther ∧
      Rest p s.doChipErase := by
  obtain ⟨f, h1⟩ := doCommand_follows hs (ofByte_byte .chipErase) (opcodeTaken_notBusy hb _)
  obtain ⟨e1, r1⟩ := doRelease_finishes h1
  refine ⟨?_, latencyWait_rest r1 _ _ _⟩
  simp only [State.doChipErase, State.doPlainCommand, latencyWait_chip]
  rw [e1, Chip.finish, f.parser, f.array]
  exact f.mutates .chipErase (s.chip.array.eraseAll p) hb 0

/-- SECTOR_ERASE and its wait (R83, R194). -/
theorem doSectorErase_after (hs : Rest p s) (hb : s.chip.busy = none) (a : Addr) :
    After s.chip (s.doSectorErase a).chip (if s.chip.wel then s.chip.array.eraseSector p a.toNat else s.chip.array) false
      s.chip.statusOther ∧ Rest p (s.doSectorErase a) := by
  obtain ⟨f, h1⟩ := doHeader_follows hs hb .sectorErase a
  obtain ⟨e1, r1⟩ := doRelease_finishes h1
  simp only [AddressedCommand.opcode, Parser.afterAddress] at f e1 r1
  simp only [State.doSectorErase]
  refine ⟨?_, latencyWait_rest r1 _ _ _⟩
  rw [latencyWait_chip, e1, Chip.finish, f.parser, f.array]
  exact f.mutates .sectorErase (s.chip.array.eraseSector p a.toNat) hb 0

/-- PROGRAM with the merged window, and its wait (R84, R214 to R216). -/
theorem doProgramTransaction_after (hs : Rest p s) (hb : s.chip.busy = none) (a : Addr) :
    ∃ d, s.chip.draws ≤ d ∧ d < (s.doProgramTransaction a).chip.draws ∧
      After s.chip (s.doProgramTransaction a).chip
        (if s.chip.wel then s.chip.array.program p d a.toNat (s.mergedWindow a) else s.chip.array) false s.chip.statusOther ∧
      Rest p (s.doProgramTransaction a) := by
  obtain ⟨f, h1⟩ := doHeader_follows hs hb .program a
  simp only [AddressedCommand.opcode, Parser.afterAddress] at f h1
  have hw : (s.mergedWindow a).length = p.window := by rw [mergedWindow_length, hs.cfg]
  have hr := run_programming s.chip.busy a (s.mergedWindow a) [] (Nat.le_of_eq (by simpa using hw))
  rw [List.append_nil] at hr
  obtain ⟨g, h2⟩ := doSendBytes_follows (bs := s.mergedWindow a) h1 (by rw [f.parser]; simp [Parser.live]) (f.run hr)
  obtain ⟨e1, r1⟩ := doRelease_finishes h2
  have fg := f.trans g
  generalize hX : ((s.doCommand Opcode.program.byte).doFrameAddress a).doSendBytes (s.mergedWindow a) = X at *
  have hT : s.doProgramTransaction a =
      (X.doRelease.latencyWait .program .us X.doRelease.programWait).forgetBuffer := by
    simp only [State.doProgramTransaction]
    rw [hX]
  have hchip : (s.doProgramTransaction a).chip =
      ({ X.chip.mutate .program (s.chip.array.program p X.chip.draws a.toNat (s.mergedWindow a)) with
        draws := X.chip.draws + ((s.mergedWindow a).length + 1) } : Chip).settle .program := by
    rw [hT]
    show X.doRelease.chip.settle .program = _
    rw [e1]
    simp [Chip.finish, g.parser, fg.array, Nat.add_assoc, hw]
  refine ⟨X.chip.draws, fg.draws, ?_, ?_, ?_⟩
  · rw [hchip]; simp only [Chip.settle]; omega
  · rw [hchip]; exact fg.mutates .program _ hb _
  · rw [hT]; exact ⟨r1.cfg, r1.clockLow, r1.busIdle, r1.notHeld⟩

/-! ## Bytes the chip supplies -/

/-- The status byte of a conforming chip that is not busy (R80, R90). -/
theorem latch_status {c : Chip} (hc : c.conforming = true) (hb : c.busy = none) {x : Bool} (hq : c.parser = .status x) :
    (c.latch p).tx = c.statusByte p := by
  simp [Chip.latch, Chip.supplyStatus, hc, hq, hb]

/-- A busy conforming chip either shows a byte with the busy bit set, or is done and shows its status byte (R86; 93 U14). -/
theorem latch_busyStatus {c : Chip} (hc : c.conforming = true) {m : Mutation} (hb : c.busy = some m) {x : Bool}
    (hq : c.parser = .status x) :
    (∃ v, (c.latch p).tx = setBit v p.busyBit true ∧ (c.latch p).busy = some m) ∨
      ((c.latch p).tx = c.statusByte p ∧ (c.latch p).busy = none) := by
  cases hd : Config.chipBit c.draws
  · right; simp [Chip.latch, Chip.supplyStatus, hc, hq, hb, hd]
  · left; exact ⟨Config.chipByte c.draws, by simp [Chip.latch, Chip.supplyStatus, hc, hq, hb, hd]⟩

/-- The ID bytes (R81). -/
theorem latch_ident {c : Chip} (hc : c.conforming = true) :
    (c.parser = .ident 0 → (c.latch p).tx = c.manufacturer) ∧ (c.parser = .ident 1 → (c.latch p).tx = c.device) := by
  constructor <;> intro hq <;> simp [Chip.latch, hc, hq]

/-- The next array byte (R82). -/
theorem latch_reading {c : Chip} (hc : c.conforming = true) {a : Nat} (hq : c.parser = .reading a) (ha : a < arraySize) :
    (c.latch p).tx = c.array.read a := by
  simp [Chip.latch, hc, hq, ha]

/-- The product ID as a number (R170, R171 a). -/
theorem productId_toNat (a b : Byte) : (productId a b).toNat = a.toNat * 256 + b.toNat := by
  have := b.isLt
  have := a.isLt
  simp only [productId, BitVec.toNat_or, BitVec.toNat_shiftLeft, BitVec.toNat_setWidth]
  rw [Nat.mod_eq_of_lt (a := a.toNat) (by omega), Nat.mod_eq_of_lt (a := b.toNat) (by omega), Nat.shiftLeft_eq,
    Nat.mod_eq_of_lt (by omega)]
  rw [← Nat.shiftLeft_eq, ← Nat.shiftLeft_add_eq_or_of_lt (by omega), Nat.shiftLeft_eq]

theorem statusByte_congr {c d : Chip} (hw : d.wel = c.wel) (ho : d.statusOther = c.statusOther) :
    d.statusByte p = c.statusByte p := by
  simp [Chip.statusByte, hw, ho]

/-- RDSR (R81, R168). A chip that may be busy keeps everything stored as well; what it answers is said only of a conforming
chip that is not. -/
theorem doReadStatus_after (hs : Rest p s) :
    After s.chip s.doReadStatus.chip s.chip.array s.chip.wel s.chip.statusOther ∧ Rest p s.doReadStatus ∧
      (s.chip.conforming = true → s.chip.busy = none → s.doReadStatus.res.rb = s.chip.statusByte p) := by
  obtain ⟨f, h1⟩ := doCommand_follows hs (ofByte_byte .rdsr) (by simp [opcodeTaken])
  simp only [Parser.afterOpcode] at f
  obtain ⟨g, h2, hrb⟩ := doTransfer_follows (out := (s.doCommand Opcode.rdsr.byte).cfg.dummy) (q := .status true) h1
    (by rw [f.parser]; simp [Parser.live]) (by rw [f.parser]; rfl)
  obtain ⟨e1, r1⟩ := doRelease_finishes h2
  simp only [State.doReadStatus, State.doReadByte, Bool.false_eq_true, if_false]
  refine ⟨?_, r1, fun hc hb => ?_⟩
  · rw [e1]; exact (f.trans g).closes (.inl rfl)
  · have : ∀ t : State, t.doRelease.res = t.res := fun _ => rfl
    rw [this, hrb, latch_status (f.conforming.trans hc) (f.notBusy hb) f.parser]
    exact statusByte_congr f.wel f.statusOther

/-- RDID (R81, R170). -/
theorem doReadProductId_after (hs : Rest p s) (hb : s.chip.busy = none) :
    After s.chip s.doReadProductId.chip s.chip.array s.chip.wel s.chip.statusOther ∧ Rest p s.doReadProductId ∧
      (s.chip.conforming = true → s.doReadProductId.res.rw = productId s.chip.manufacturer s.chip.device ∧
        s.doReadProductId.res.rb = s.chip.device) := by
  obtain ⟨f, h1⟩ := doCommand_follows hs (ofByte_byte .rdid) (opcodeTaken_notBusy hb _)
  simp only [Parser.afterOpcode] at f
  obtain ⟨g, h2, hr1⟩ := doTransfer_follows (out := (s.doCommand Opcode.rdid.byte).cfg.dummy) (q := .ident 1) h1
    (by rw [f.parser]; simp [Parser.live]) (by rw [f.parser]; rfl)
  generalize hX : (s.doCommand Opcode.rdid.byte).doTransfer (s.doCommand Opcode.rdid.byte).cfg.dummy = X at *
  obtain ⟨k, h3, hr2⟩ := doTransfer_follows (out := X.cfg.dummy) (q := .ident 2) h2
    (by rw [g.parser]; simp [Parser.live]) (by rw [g.parser]; rfl)
  obtain ⟨e1, r1⟩ := doRelease_finishes h3
  have hT : s.doReadProductId = (X.doTransfer X.cfg.dummy).doRelease.withProductId
      (productId X.res.rb (X.doTransfer X.cfg.dummy).doRelease.res.rb) := by
    simp only [State.doReadProductId, State.doReadByte, Bool.false_eq_true, if_false, if_true, hX]
  have fg := f.trans g
  refine ⟨?_, ?_, fun hc => ?_⟩
  · rw [hT]
    show After _ (X.doTransfer X.cfg.dummy).doRelease.chip _ _ _
    rw [e1]
    exact (fg.trans k).closes (.inr (.inl rfl))
  · rw [hT]; exact ⟨r1.cfg, r1.clockLow, r1.busIdle, r1.notHeld⟩
  · have e2 : ∀ t : State, t.doRelease.res = t.res := fun _ => rfl
    have b1 := hr1.trans ((latch_ident (f.conforming.trans hc)).1 f.parser)
    have b2 := hr2.trans ((latch_ident (fg.conforming.trans hc)).2 g.parser)
    rw [hT, e2, b1, b2, f.manufacturer, fg.device]
    exact ⟨rfl, by rw [← fg.device, ← b2]; rfl⟩

/-- WRSR (R85, R90, R172). Accepted, it may leave the chip busy, and no wait ends that; once the chip has finished it is as
after any whole transaction. -/
theorem doWriteStatus_after (hs : Rest p s) (hb : s.chip.busy = none) (v : Byte) :
    After s.chip (s.doWriteStatus v).chip.settled s.chip.array false
      (if s.chip.wel then Config.wrsrStatus s.chip.statusOther v else s.chip.statusOther) ∧ Rest p (s.doWriteStatus v) ∧
      (s.doWriteStatus v).chip.busy = if s.chip.wel then some .statusWrite else none := by
  obtain ⟨f, h1⟩ := doCommand_follows hs (ofByte_byte .wrsr) (opcodeTaken_notBusy hb _)
  simp only [Parser.afterOpcode] at f
  obtain ⟨g, h2, -⟩ := doTransfer_follows (out := v) (q := .statusWrite (some v)) h1
    (by rw [f.parser]; simp [Parser.live]) (by rw [f.parser]; rfl)
  obtain ⟨e1, r1⟩ := doRelease_finishes h2
  have fg := f.trans g
  refine ⟨?_, r1, ?_⟩
  · simp only [State.doWriteStatus, e1, Chip.finish, Chip.settled, g.parser, fg.wel, fg.statusOther]
    exact ⟨fg.array, rfl, rfl, fun _ => rfl, fg.manufacturer, fg.device, fg.conforming, rfl, fg.byteBoundary, fg.draws⟩
  · simp only [State.doWriteStatus, e1, Chip.finish, g.parser, fg.wel, fg.notBusy hb]

/-- The bytes of a continuation read (R82). -/
theorem doReadBytes_after (n : Nat) {s : State} (hs : Session p s) {a : Nat} (hq : s.chip.parser = .reading a)
    (ha : a + (n + 1) ≤ arraySize) :
    After s.chip (s.doReadBytes (n + 1)).2.chip s.chip.array s.chip.wel s.chip.statusOther ∧
      Rest p (s.doReadBytes (n + 1)).2 ∧
      (s.chip.conforming = true →
        (s.doReadBytes (n + 1)).1 = (List.range (n + 1)).map fun k => s.chip.array.read (a + k)) := by
  induction n generalizing s a with
  | zero =>
    obtain ⟨g, h2, hr⟩ := doTransfer_follows (out := s.cfg.dummy) (q := .reading (a + 1)) hs
      (by rw [hq]; simp [Parser.live]) (by rw [hq]; simp [Parser.next]; omega)
    obtain ⟨e1, r1⟩ := doRelease_finishes h2
    simp only [State.doReadBytes, State.doReadByte, Nat.lt_irrefl, decide_false, Bool.false_eq_true, if_false]
    refine ⟨?_, r1, fun hc => ?_⟩
    · rw [e1]; exact g.closes (.inr (.inr ⟨_, rfl⟩))
    · have e2 : ∀ t : State, t.doRelease.res = t.res := fun _ => rfl
      rw [e2, hr, latch_reading hc hq (by omega)]
      simp
  | succ n ih =>
    obtain ⟨g, h2, hr⟩ := doTransfer_follows (out := s.cfg.dummy) (q := .reading (a + 1)) hs
      (by rw [hq]; simp [Parser.live]) (by rw [hq]; simp [Parser.next]; omega)
    obtain ⟨f, r1, hb⟩ := ih h2 g.parser (by omega)
    rw [State.doReadBytes]
    simp only [State.doReadByte, Nat.zero_lt_succ, decide_true, if_true]
    refine ⟨?_, r1, fun hc => ?_⟩
    · rw [g.array, g.wel, g.statusOther] at f
      exact ⟨f.array, f.wel, f.statusOther, fun h => f.notBusy (g.notBusy h), f.manufacturer.trans g.manufacturer,
        f.device.trans g.device, f.conforming.trans g.conforming, f.parser, f.byteBoundary, g.draws.trans f.draws⟩
    · rw [hb (g.conforming.trans hc), hr, latch_reading hc hq (by omega), List.range_succ_eq_map (n := n + 1), g.array]
      simp [Nat.add_assoc, Nat.add_comm 1]

/-- A READ transaction inside the array (R82, R190). -/
theorem doReadTransaction_after (hs : Rest p s) (hb : s.chip.busy = none) (a : Addr) {n : Nat}
    (hn : a.toNat + n ≤ arraySize) :
    After s.chip (s.doReadTransaction a n).2.chip s.chip.array s.chip.wel s.chip.statusOther ∧
      Rest p (s.doReadTransaction a n).2 ∧
      (s.chip.conforming = true →
        (s.doReadTransaction a n).1 = (List.range n).map fun k => s.chip.array.read (a.toNat + k)) := by
  obtain ⟨f, h1⟩ := doHeader_follows hs hb .read a
  simp only [AddressedCommand.opcode, Parser.afterAddress] at f h1
  cases n with
  | zero =>
    obtain ⟨e1, r1⟩ := doRelease_finishes h1
    simp only [State.doReadTransaction, if_true]
    exact ⟨by rw [e1]; exact f.closes (.inr (.inr ⟨_, rfl⟩)), r1, fun _ => rfl⟩
  | succ n =>
    obtain ⟨g, r1, hd⟩ := doReadBytes_after n h1 f.parser (by omega)
    simp only [State.doReadTransaction, Nat.succ_ne_zero, if_false]
    refine ⟨?_, r1, fun hc => ?_⟩
    · rw [f.array, f.wel, f.statusOther] at g
      exact ⟨g.array, g.wel, g.statusOther, fun h => g.notBusy (f.notBusy h), g.manufacturer.trans f.manufacturer,
        g.device.trans f.device, g.conforming.trans f.conforming, g.parser, g.byteBoundary, f.draws.trans g.draws⟩
    · rw [hd (f.conforming.trans hc), f.array]

theorem clampedLength_fits (a : Addr) (len : Count) : a.toNat + clampedLength a len ≤ arraySize := by
  have := a.isLt
  simp only [clampedLength, arraySize]
  omega

end Sys2Proof.Machine
end

