-- ==== Sys2Proof/Laws/Latch.lean ====
section
/-! SUPPORT. The shared operations neither look at nor change the operand registers and the sequencer position, but for the
PROGRAM transaction, which looks at the operand registers. So a host operation and the wire frame of its format do the same. -/

namespace Sys2Proof.Machine

open Sys2Proof

/-- `s` with other operand registers and another sequencer position. -/
def State.relatch (o : OperandRegs) (q : Option Instr) (s : State) : State := { s with opr := o, pc := q }

variable (o : OperandRegs) (q : Option Instr) (s : State)

@[simp] theorem relatch_cfg : (s.relatch o q).cfg = s.cfg := rfl
@[simp] theorem relatch_tim : (s.relatch o q).tim = s.tim := rfl
@[simp] theorem relatch_res : (s.relatch o q).res = s.res := rfl
@[simp] theorem relatch_chip : (s.relatch o q).chip = s.chip := rfl
@[simp] theorem relatch_pins : (s.relatch o q).pins = s.pins := rfl

theorem shiftBit_relatch (k : Nat) : (s.relatch o q).shiftBit k = (s.shiftBit k).relatch o q := rfl

theorem shiftBits_relatch (n : Nat) : State.shiftBits n (s.relatch o q) = (State.shiftBits n s).relatch o q := by
  induction n generalizing s with
  | zero => rfl
  | succ n ih => rw [State.shiftBits, shiftBit_relatch, ih]; rfl

theorem doTransfer_relatch (b : Byte) : (s.relatch o q).doTransfer b = (s.doTransfer b).relatch o q := by
  have h := shiftBits_relatch o q { s with sh := { s.sh with out := b, inp := 0#8 } } 8
  simp only [State.doTransfer]
  exact (congrArg (fun t : State =>
    { t.pinSck false with res := { (t.pinSck false).res with rb := (t.pinSck false).sh.inp } }) h)

theorem doSelect_relatch : (s.relatch o q).doSelect = s.doSelect.relatch o q := rfl
theorem doRelease_relatch : (s.relatch o q).doRelease = s.doRelease.relatch o q := rfl

theorem doReadByte_relatch (c : Bool) : (s.relatch o q).doReadByte c = (s.doReadByte c).relatch o q := by
  cases c <;> simp [State.doReadByte, doTransfer_relatch, doRelease_relatch]

theorem doSendBytes_relatch (bs : List Byte) : (s.relatch o q).doSendBytes bs = (s.doSendBytes bs).relatch o q := by
  induction bs generalizing s with
  | nil => rfl
  | cons b bs ih => rw [State.doSendBytes, doTransfer_relatch, ih]; rfl

theorem doReadBytes_relatch (n : Nat) :
    (s.relatch o q).doReadBytes n = ((s.doReadBytes n).1, (s.doReadBytes n).2.relatch o q) := by
  induction n generalizing s with
  | zero => rfl
  | succ n ih => simp [State.doReadBytes, doReadByte_relatch, ih]

theorem doCommand_relatch (b : Byte) : (s.relatch o q).doCommand b = (s.doCommand b).relatch o q := by
  simp only [State.doCommand, doSelect_relatch, doTransfer_relatch]

theorem doFrameAddress_relatch (a : Addr) : (s.relatch o q).doFrameAddress a = (s.doFrameAddress a).relatch o q :=
  doSendBytes_relatch o q s _

theorem doPlainCommand_relatch (c : Opcode) : (s.relatch o q).doPlainCommand c = (s.doPlainCommand c).relatch o q := by
  simp only [State.doPlainCommand, doCommand_relatch, doRelease_relatch]

theorem doReadStatus_relatch : (s.relatch o q).doReadStatus = s.doReadStatus.relatch o q := by
  simp only [State.doReadStatus, doCommand_relatch, doReadByte_relatch]

theorem doReadProductId_relatch : (s.relatch o q).doReadProductId = s.doReadProductId.relatch o q := by
  simp only [State.doReadProductId, doCommand_relatch, doReadByte_relatch]
  rfl

theorem doWriteStatus_relatch (v : Byte) : (s.relatch o q).doWriteStatus v = (s.doWriteStatus v).relatch o q := by
  simp only [State.doWriteStatus, doCommand_relatch, doTransfer_relatch, doRelease_relatch]

theorem doReadTransaction_relatch (a : Addr) (n : Nat) :
    (s.relatch o q).doReadTransaction a n = ((s.doReadTransaction a n).1, (s.doReadTransaction a n).2.relatch o q) := by
  cases n with
  | zero => simp only [State.doReadTransaction, doCommand_relatch, doFrameAddress_relatch, doRelease_relatch, if_true]
  | succ n =>
    simp only [State.doReadTransaction, doCommand_relatch, doFrameAddress_relatch, doReadBytes_relatch, Nat.succ_ne_zero,
      if_false]

theorem doRead_relatch (a : Addr) (n : Nat) : (s.relatch o q).doRead a n = (s.doRead a n).relatch o q := by
  simp only [State.doRead, doReadTransaction_relatch]
  rfl

theorem doSectorErase_relatch (a : Addr) : (s.relatch o q).doSectorErase a = (s.doSectorErase a).relatch o q := by
  simp only [State.doSectorErase, doCommand_relatch, doFrameAddress_relatch, doRelease_relatch]
  rfl

theorem doChipErase_relatch : (s.relatch o q).doChipErase = s.doChipErase.relatch o q := by
  simp only [State.doChipErase, doPlainCommand_relatch]
  rfl

end Sys2Proof.Machine
end

