-- ==== Sys2Proof/Laws/Effects.lean ====
section
/-! SUPPORT. What any operation does to the block, said once for all of them: the operations that move no byte write out what
they leave, and the operations that move a byte are `exec_moves`. -/

namespace Sys2Proof.Machine

open Sys2Proof

/-! ## The shape and the waits of a byte trace -/

theorem clockAfter_append (b : Bool) (es fs : List Event) :
    clockAfter b (es ++ fs) = (clockAfter b es).bind fun c => clockAfter c fs := by
  induction es generalizing b with
  | nil => rfl
  | cons e es ih => cases e <;> simp only [List.cons_append, clockAfter, ih] <;> cases b <;> simp

theorem clockAfter_byteEvent (h : BitVec 16) (e : ByteEvent) : clockAfter false (e.expand h) = some false := by
  cases e <;> simp [ByteEvent.expand, bitEvents, clockAfter]

/-- Every byte trace has the clock shape of R139 b, c. -/
theorem clockAfter_expandTrace (h : BitVec 16) (es : List ByteEvent) : clockAfter false (expandTrace h es) = some false := by
  induction es with
  | nil => rfl
  | cons e es ih => rw [expandTrace, clockAfter_append, clockAfter_byteEvent]; exact ih

/-- Bytes are moved only while chip-select is asserted. -/
def bytesOnlySelected : ChipSelect → List ByteEvent → Bool
  | _, [] => true
  | _, .sel :: es => bytesOnlySelected .asserted es
  | _, .rel :: es => bytesOnlySelected .released es
  | cs, .x _ _ :: es => cs == .asserted && bytesOnlySelected cs es
  | cs, _ :: es => bytesOnlySelected cs es

/-- Then the clock goes high only while it is (R22 a). -/
theorem clockOnlySelected_expandTrace (h : BitVec 16) (es : List ByteEvent) (cs : ChipSelect)
    (hb : bytesOnlySelected cs es = true) : clockOnlySelected cs (expandTrace h es) = true := by
  induction es generalizing cs with
  | nil => rfl
  | cons e es ih =>
    cases e <;>
      simp_all [expandTrace, ByteEvent.expand, bitEvents, clockOnlySelected, bytesOnlySelected]
    obtain ⟨rfl, hb⟩ := hb
    exact ih _ hb

theorem bytesOnlySelected_asserted {es fs : List ByteEvent} (he : ∀ e ∈ es, ∃ o i, e = .x o i) :
    bytesOnlySelected .asserted (es ++ fs) = bytesOnlySelected .asserted fs := by
  induction es with
  | nil => rfl
  | cons e es ih =>
    obtain ⟨o, i, rfl⟩ := he e List.mem_cons_self
    simp [bytesOnlySelected, ih fun e h => he e (List.mem_cons_of_mem _ h)]

theorem exchanges_x (os is : List Byte) : ∀ e ∈ exchanges os is, ∃ o i, e = .x o i := by
  induction os generalizing is with
  | nil => simp [exchanges]
  | cons o os ih =>
    cases is with
    | nil => simp [exchanges]
    | cons i is =>
      intro e h
      rcases List.mem_cons.1 h with rfl | h
      · exact ⟨o, i, rfl⟩
      · exact ih is e h

/-- The requested waits of a byte trace at half period `h`. -/
def traceWait (h : BitVec 16) (es : List ByteEvent) : Nat × Nat := waitTotal (expandTrace h es)

theorem waitTotal_append (es fs : List Event) :
    waitTotal (es ++ fs) = ((waitTotal es).1 + (waitTotal fs).1, (waitTotal es).2 + (waitTotal fs).2) := by
  induction es with
  | nil => simp [waitTotal]
  | cons e es ih =>
    cases e with
    | wait u n => cases u <;> simp [waitTotal, ih] <;> omega
    | _ => simpa [waitTotal] using ih

section
variable (h : BitVec 16) (es fs : List ByteEvent)

@[simp] theorem traceWait_nil : traceWait h [] = (0, 0) := rfl
@[simp] theorem traceWait_append :
    traceWait h (es ++ fs) = ((traceWait h es).1 + (traceWait h fs).1, (traceWait h es).2 + (traceWait h fs).2) := by
  simp [traceWait, waitTotal_append]
@[simp] theorem traceWait_sel : traceWait h (.sel :: es) = traceWait h es := rfl
@[simp] theorem traceWait_rel : traceWait h (.rel :: es) = traceWait h es := rfl
@[simp] theorem traceWait_x (o i : Byte) :
    traceWait h (.x o i :: es) = ((traceWait h es).1 + 16 * h.toNat, (traceWait h es).2) := by
  have hh := h.isLt
  simp only [traceWait, expandTrace, ByteEvent.expand, bitEvents, List.cons_append, List.nil_append, waitTotal,
    Prod.mk.injEq, BitVec.toNat_setWidth, and_true]
  rw [Nat.mod_eq_of_lt (by omega)]
  omega
@[simp] theorem traceWait_us (n : BitVec 32) :
    traceWait h (.waitUs n :: es) = ((traceWait h es).1 + n.toNat, (traceWait h es).2) := rfl
@[simp] theorem traceWait_ms (n : BitVec 32) :
    traceWait h (.waitMs n :: es) = ((traceWait h es).1, (traceWait h es).2 + n.toNat) := rfl
end

theorem traceWait_map (h : BitVec 16) (d : Byte) (ins : List Byte) :
    traceWait h (ins.map (ByteEvent.x d)) = (16 * h.toNat * ins.length, 0) := by
  induction ins with
  | nil => rfl
  | cons i ins ih => simp [ih, Nat.mul_add]

theorem traceWait_exchanges (h : BitVec 16) (os is : List Byte) (hl : is.length = os.length) :
    traceWait h (exchanges os is) = (16 * h.toNat * os.length, 0) := by
  induction os generalizing is with
  | nil => rfl
  | cons o os ih =>
    match is, hl with
    | i :: is, hl => simp [exchanges, ih is (by simpa using hl), Nat.mul_add]

/-! ## Operations that move a byte -/

/-- What an operation that moves a byte leaves of the block. -/
structure Moves (i : Instr) (s t : State) (es : List ByteEvent) : Prop where
  cfg : t.cfg = s.cfg
  inbox : t.inbox = s.inbox
  refusals : t.refusals = s.refusals
  wireLog : t.wireLog = s.logged es
  pc : t.pc = none
  inited : t.inited = s.inited
  clockLow : t.pins.sck = false
  hold : t.pins.hold = s.pins.hold
  misoDir : t.pins.misoDir = s.pins.misoDir
  opr : t.opr = operandsAfter s.opr i
  tim : t.tim = s.tim
  rw : i ≠ .readProductId → i ≠ .rdidFrame → t.res.rw = s.res.rw
  read : (∀ a len, i ≠ .read a len) → (∀ a, i ≠ .readFrame a) → t.res.rn = s.res.rn ∧ t.res.dout = s.res.dout
  doutLength : s.res.dout.length = s.res.rn.toNat → t.res.dout.length = t.res.rn.toNat
  bufferLength : s.buf.length = s.cfg.window → t.buf.length = t.cfg.window
  waits : s.tim.tBp.toNat * s.cfg.window < 2 ^ 32 → traceWait s.tim.halfPeriod es = requestedWait s i
  selected : s.pins.cs = .asserted ∨ disciplined i s = true → bytesOnlySelected s.pins.cs es = true

theorem ofNat_clamped (a : Addr) (len : Count) : (BitVec.ofNat 17 (clampedLength a len)).toNat = clampedLength a len := by
  have := len.isLt
  simp only [BitVec.toNat_ofNat, clampedLength]
  omega

theorem programWait_toNat {s : State} (h : s.tim.tBp.toNat * s.cfg.window < 2 ^ 32) :
    (s.tim.tBp * BitVec.ofNat 32 s.cfg.window).toNat = s.tim.tBp.toNat * s.cfg.window := by
  simp only [BitVec.toNat_mul, BitVec.toNat_ofNat]
  rw [Nat.mul_mod, Nat.mod_mod, ← Nat.mul_mod, Nat.mod_eq_of_lt h]

/-- The block after an operation that moved the bytes of `es` and changed at most the result registers besides. -/
theorem moves_afterBytes {i : Instr} {s : State} {o : OperandRegs} {es : List ByteEvent} (cs : ChipSelect) (out inp : Byte)
    (c : Chip) (ho : o = operandsAfter s.opr i)
    (hw : traceWait s.tim.halfPeriod es = requestedWait s i)
    (hs : s.pins.cs = .asserted ∨ disciplined i s = true → bytesOnlySelected s.pins.cs es = true) :
    Moves i s ((s.relatch o none).afterBytes es cs out inp c) es :=
  ⟨rfl, rfl, rfl, rfl, rfl, rfl, rfl, rfl, rfl, ho, rfl, fun _ _ => rfl, fun _ _ => ⟨rfl, rfl⟩, id, id, fun _ => hw, hs⟩

/-- The block after a product ID read. -/
theorem moves_withProductId {i : Instr} {s : State} {es : List ByteEvent} (cs : ChipSelect) (out inp : Byte) (c : Chip)
    (w : BitVec 16) (hi : i = .readProductId ∨ i = .rdidFrame) (ho : s.opr = operandsAfter s.opr i)
    (hw : traceWait s.tim.halfPeriod es = requestedWait s i)
    (hs : s.pins.cs = .asserted ∨ disciplined i s = true → bytesOnlySelected s.pins.cs es = true) :
    Moves i s (((s.relatch s.opr none).afterBytes es cs out inp c).withProductId w) es :=
  ⟨rfl, rfl, rfl, rfl, rfl, rfl, rfl, rfl, rfl, ho, rfl, fun h g => (hi.elim h g).elim, fun _ _ => ⟨rfl, rfl⟩, id, id,
    fun _ => hw, hs⟩

/-- The block after an array read. -/
theorem moves_withReadData {i : Instr} {s : State} {o : OperandRegs} {es : List ByteEvent} (cs : ChipSelect)
    (out inp : Byte) (c : Chip) {n : Nat} {ins : List Byte} (hi : (∃ a len, i = .read a len) ∨ ∃ a, i = .readFrame a)
    (ho : o = operandsAfter s.opr i) (hl : ins.length = (BitVec.ofNat 17 n).toNat)
    (hw : traceWait s.tim.halfPeriod es = requestedWait s i)
    (hs : s.pins.cs = .asserted ∨ disciplined i s = true → bytesOnlySelected s.pins.cs es = true) :
    Moves i s (((s.relatch o none).afterBytes es cs out inp c).withReadData n ins) es :=
  ⟨rfl, rfl, rfl, rfl, rfl, rfl, rfl, rfl, rfl, ho, rfl, fun _ _ => rfl,
    fun h g => by rcases hi with ⟨a, len, e⟩ | ⟨a, e⟩; exact absurd e (h a len); exact absurd e (g a),
    fun _ => hl, id, fun _ => hw, hs⟩

/-- The block after a PROGRAM transaction. -/
theorem moves_forgetBuffer {i : Instr} {s : State} {o : OperandRegs} {es : List ByteEvent} (cs : ChipSelect)
    (out inp : Byte) (c : Chip) (ho : o = operandsAfter s.opr i)
    (hw : s.tim.tBp.toNat * s.cfg.window < 2 ^ 32 → traceWait s.tim.halfPeriod es = requestedWait s i)
    (hs : s.pins.cs = .asserted ∨ disciplined i s = true → bytesOnlySelected s.pins.cs es = true) :
    Moves i s ((s.relatch o none).afterBytes es cs out inp c).forgetBuffer es :=
  ⟨rfl, rfl, rfl, rfl, rfl, rfl, rfl, rfl, rfl, ho, rfl, fun _ _ => rfl, fun _ _ => ⟨rfl, rfl⟩, id,
    fun _ => by simp [State.forgetBuffer], hw, hs⟩

/-- `i` runs in `s` and moves bytes. -/
def Runs (i : Instr) (s : State) : Prop := ∃ t es, exec i s = .next t ∧ Moves i s t es

variable {s : State}

theorem transferByte_runs (hi : s.inited = true) (b : Byte) : Runs (.transferByte b) s := by
  obtain ⟨x, c, h⟩ := doTransfer_block b ((s.start (.transferByte b)).latchB b)
  refine ⟨_, _, ?_, moves_afterBytes (o := { s.opr with b := b }) s.pins.cs b x c rfl (es := [.x b x]) ?_ ?_⟩
  · simp only [exec, execTransferByte]; rw [operate_inited hi, h]; rfl
  · simp [requestedWait, byteWait]
  · simp [bytesOnlySelected, disciplined, State.inTransaction]
    tauto

theorem readByte_runs (hi : s.inited = true) (c : Bool) : Runs (.readByte c) s := by
  obtain ⟨x, d, h⟩ := doReadByte_block c ((s.start (.readByte c)).latchC c)
  refine ⟨_, _, ?_, moves_afterBytes (o := { s.opr with c := c }) (if c then s.pins.cs else .released) s.cfg.dummy x d rfl
    (es := readByteTrace c s.cfg.dummy x) ?_ ?_⟩
  · simp only [exec, execReadByte]; rw [operate_inited hi, h]; rfl
  · cases c <;> simp [requestedWait, byteWait, readByteTrace]
  · cases c <;> simp [bytesOnlySelected, disciplined, State.inTransaction, readByteTrace] <;> tauto

theorem sendCommand_runs (hi : s.inited = true) (b : Byte) : Runs (.sendCommand b) s := by
  obtain ⟨x, c, h⟩ := doCommand_block b ((s.start (.sendCommand b)).latchB b)
  refine ⟨_, _, ?_, moves_afterBytes (o := { s.opr with b := b }) .asserted b x c rfl
    (es := [.sel, .x b x]) ?_ fun _ => rfl⟩
  · simp only [exec, execSendCommand]; rw [operate_inited hi, h]; rfl
  · simp [requestedWait, byteWait]

theorem writeEnable_runs (hi : s.inited = true) : Runs .writeEnable s := by
  obtain ⟨x, c, h⟩ := doPlainCommand_block .wren (s.start .writeEnable)
  refine ⟨_, _, ?_, moves_afterBytes (o := s.opr) .released 0x06#8 x c rfl (es := plainTrace 0x06#8 x) ?_ fun _ => rfl⟩
  · simp only [exec, execWriteEnable]; rw [perform_inited hi, h]; rfl
  · simp [requestedWait, byteWait, plainTrace]

theorem wrenFrame_runs (hi : s.inited = true) : Runs .wrenFrame s := by
  obtain ⟨x, c, h⟩ := doPlainCommand_block .wren (s.start .wrenFrame)
  refine ⟨_, _, ?_, moves_afterBytes (o := s.opr) .released 0x06#8 x c rfl (es := plainTrace 0x06#8 x) ?_ fun _ => rfl⟩
  · simp only [exec, execWrenFrame]; rw [perform_inited hi, h]; rfl
  · simp [requestedWait, byteWait, plainTrace]

theorem writeDisable_runs (hi : s.inited = true) : Runs .writeDisable s := by
  obtain ⟨x, c, h⟩ := doPlainCommand_block .wrdi (s.start .writeDisable)
  refine ⟨_, _, ?_, moves_afterBytes (o := s.opr) .released 0x04#8 x c rfl (es := plainTrace 0x04#8 x) ?_ fun _ => rfl⟩
  · simp only [exec, execWriteDisable]; rw [perform_inited hi, h]; rfl
  · simp [requestedWait, byteWait, plainTrace]

theorem wrdiFrame_runs (hi : s.inited = true) : Runs .wrdiFrame s := by
  obtain ⟨x, c, h⟩ := doPlainCommand_block .wrdi (s.start .wrdiFrame)
  refine ⟨_, _, ?_, moves_afterBytes (o := s.opr) .released 0x04#8 x c rfl (es := plainTrace 0x04#8 x) ?_ fun _ => rfl⟩
  · simp only [exec, execWrdiFrame]; rw [perform_inited hi, h]; rfl
  · simp [requestedWait, byteWait, plainTrace]

theorem readStatus_runs (hi : s.inited = true) : Runs .readStatus s := by
  obtain ⟨x, y, c, h⟩ := doReadStatus_block (s.start .readStatus)
  refine ⟨_, _, ?_, moves_afterBytes (o := s.opr) .released s.cfg.dummy y c rfl
    (es := [.sel, .x 0x05#8 x, .x s.cfg.dummy y, .rel]) ?_ fun _ => rfl⟩
  · simp only [exec, execReadStatus]; rw [perform_inited hi, h]; rfl
  · simp [requestedWait, byteWait]; omega

theorem rdsrFrame_runs (hi : s.inited = true) : Runs .rdsrFrame s := by
  obtain ⟨x, y, c, h⟩ := doReadStatus_block (s.start .rdsrFrame)
  refine ⟨_, _, ?_, moves_afterBytes (o := s.opr) .released s.cfg.dummy y c rfl
    (es := [.sel, .x 0x05#8 x, .x s.cfg.dummy y, .rel]) ?_ fun _ => rfl⟩
  · simp only [exec, execRdsrFrame]; rw [perform_inited hi, h]; rfl
  · simp [requestedWait, byteWait]; omega

theorem writeStatusRegister_runs (hi : s.inited = true) (v : Byte) : Runs (.writeStatusRegister v) s := by
  obtain ⟨x, y, c, h⟩ := doWriteStatus_block v ((s.start (.writeStatusRegister v)).latchB v)
  refine ⟨_, _, ?_, moves_afterBytes (o := { s.opr with b := v }) .released v y c rfl
    (es := [.sel, .x 0x01#8 x, .x v y, .rel]) ?_ fun _ => rfl⟩
  · simp only [exec, execWriteStatusRegister]; rw [operate_inited hi, h]; rfl
  · simp [requestedWait, byteWait]; omega

theorem wrsrFrame_runs (hi : s.inited = true) (v : Byte) : Runs (.wrsrFrame v) s := by
  obtain ⟨x, y, c, h⟩ := doWriteStatus_block v (s.start (.wrsrFrame v))
  refine ⟨_, _, ?_, moves_afterBytes (o := s.opr) .released v y c rfl
    (es := [.sel, .x 0x01#8 x, .x v y, .rel]) ?_ fun _ => rfl⟩
  · simp only [exec, execWrsrFrame]; rw [perform_inited hi, h]; rfl
  · simp [requestedWait, byteWait]; omega

theorem frameAddress_runs (hi : s.inited = true) (a : Addr) : Runs (.frameAddress a) s := by
  obtain ⟨x, y, z, c, h⟩ := doFrameAddress_block a (s.start (.frameAddress a))
  refine ⟨_, _, ?_, moves_afterBytes (o := s.opr) s.pins.cs (loByte a) z c rfl
    (es := [.x 0x00#8 x, .x (hiByte a) y, .x (loByte a) z]) ?_ ?_⟩
  · simp only [exec, execFrameAddress]; rw [perform_inited hi, h]; rfl
  · simp [requestedWait, byteWait]; omega
  · simp [bytesOnlySelected, disciplined, State.inTransaction]; tauto

theorem sectorErase_runs (hi : s.inited = true) (a : Addr) : Runs (.sectorErase a) s := by
  obtain ⟨x, y, z, w, c, h⟩ := doSectorErase_block a ((s.start (.sectorErase a)).latchA a)
  refine ⟨_, _, ?_, moves_afterBytes (o := { s.opr with a := a }) .released (loByte a) w c rfl
    (es := eraseTrace a x y z w s.tim.tSe) ?_ fun _ => rfl⟩
  · simp only [exec, execSectorErase]; rw [operate_inited hi, h]; rfl
  · simp [requestedWait, byteWait, eraseTrace, headerTrace]; omega

theorem sectorEraseFrame_runs (hi : s.inited = true) (a : Addr) : Runs (.sectorEraseFrame a) s := by
  obtain ⟨x, y, z, w, c, h⟩ := doSectorErase_block a (s.start (.sectorEraseFrame a))
  refine ⟨_, _, ?_, moves_afterBytes (o := s.opr) .released (loByte a) w c rfl
    (es := eraseTrace a x y z w s.tim.tSe) ?_ fun _ => rfl⟩
  · simp only [exec, execSectorEraseFrame]; rw [perform_inited hi, h]; rfl
  · simp [requestedWait, byteWait, eraseTrace, headerTrace]; omega

theorem chipErase_runs (hi : s.inited = true) : Runs .chipErase s := by
  obtain ⟨x, c, h⟩ := doChipErase_block (s.start .chipErase)
  refine ⟨_, _, ?_, moves_afterBytes (o := s.opr) .released 0x62#8 x c rfl
    (es := [.sel, .x 0x62#8 x, .rel, .waitMs s.tim.tCe]) ?_ fun _ => rfl⟩
  · simp only [exec, execChipErase]; rw [perform_inited hi, h]; rfl
  · simp [requestedWait, byteWait]

theorem chipEraseFrame_runs (hi : s.inited = true) : Runs .chipEraseFrame s := by
  obtain ⟨x, c, h⟩ := doChipErase_block (s.start .chipEraseFrame)
  refine ⟨_, _, ?_, moves_afterBytes (o := s.opr) .released 0x62#8 x c rfl
    (es := [.sel, .x 0x62#8 x, .rel, .waitMs s.tim.tCe]) ?_ fun _ => rfl⟩
  · simp only [exec, execChipEraseFrame]; rw [perform_inited hi, h]; rfl
  · simp [requestedWait, byteWait]

theorem readProductId_runs (hi : s.inited = true) : Runs .readProductId s := by
  obtain ⟨x, y, z, c, h⟩ := doReadProductId_block (s.start .readProductId)
  refine ⟨_, _, ?_, moves_withProductId .released s.cfg.dummy z c (productId y z) (by simp) rfl
    (es := [.sel, .x 0x15#8 x, .x s.cfg.dummy y, .x s.cfg.dummy z, .rel]) ?_ fun _ => rfl⟩
  · simp only [exec, execReadProductId]; rw [perform_inited hi, h]; rfl
  · simp [requestedWait, byteWait]; omega

theorem rdidFrame_runs (hi : s.inited = true) : Runs .rdidFrame s := by
  obtain ⟨x, y, z, c, h⟩ := doReadProductId_block (s.start .rdidFrame)
  refine ⟨_, _, ?_, moves_withProductId .released s.cfg.dummy z c (productId y z) (by simp) rfl
    (es := [.sel, .x 0x15#8 x, .x s.cfg.dummy y, .x s.cfg.dummy z, .rel]) ?_ fun _ => rfl⟩
  · simp only [exec, execRdidFrame]; rw [perform_inited hi, h]; rfl
  · simp [requestedWait, byteWait]; omega

theorem read_runs (hi : s.inited = true) (a : Addr) (len : Count) : Runs (.read a len) s := by
  obtain ⟨x, y, z, w, ins, c, hl, h⟩ := doRead_block a (clampedLength a len) ((s.start (.read a len)).latchAL a len)
  refine ⟨_, _, ?_, moves_withReadData (o := { s.opr with a := a, l := len }) .released (readLast a w s.cfg.dummy ins).1
    (readLast a w s.cfg.dummy ins).2 c (by simp) rfl (hl.trans (ofNat_clamped a len).symm)
    (es := readFrameTrace s.cfg.dummy a x y z w ins) ?_ fun _ => ?_⟩
  · simp only [exec, execRead]; rw [operate_inited hi, h]; rfl
  · simp [readFrameTrace, headerTrace, readTrace, traceWait_map, hl, requestedWait, byteWait, clampedLength, arraySize,
      Nat.mul_add]
    omega
  · simp only [readFrameTrace, headerTrace, readTrace, List.cons_append, List.nil_append, bytesOnlySelected]
    simp [bytesOnlySelected_asserted, bytesOnlySelected]

theorem readFrame_runs (hi : s.inited = true) (a : Addr) : Runs (.readFrame a) s := by
  obtain ⟨x, y, z, w, ins, c, hl, h⟩ := doRead_block a (clampedLength a s.opr.l) (s.start (.readFrame a))
  refine ⟨_, _, ?_, moves_withReadData (o := s.opr) .released (readLast a w s.cfg.dummy ins).1
    (readLast a w s.cfg.dummy ins).2 c (by simp) rfl (hl.trans (ofNat_clamped a s.opr.l).symm)
    (es := readFrameTrace s.cfg.dummy a x y z w ins) ?_ fun _ => ?_⟩
  · simp only [exec, execReadFrame]; rw [perform_inited hi, h]; rfl
  · simp [readFrameTrace, headerTrace, readTrace, traceWait_map, hl, requestedWait, byteWait, clampedLength, arraySize,
      Nat.mul_add]
    omega
  · simp only [readFrameTrace, headerTrace, readTrace, List.cons_append, List.nil_append, bytesOnlySelected]
    simp [bytesOnlySelected_asserted, bytesOnlySelected]

theorem programFrame_runs (hi : s.inited = true) (a : Addr) : Runs (.programFrame a) s := by
  obtain ⟨x, y, z, w, outs, c, hl, h⟩ := doProgramTransaction_block a (s.start (.programFrame a))
  have hml := mergedWindow_length (s.start (.programFrame a)) a
  generalize (s.start (.programFrame a)).mergedWindow a = ms at h hml
  replace hml : ms.length = s.cfg.window := hml
  replace hl : outs.length = s.cfg.window := hl
  refine ⟨_, _, ?_, moves_forgetBuffer (o := s.opr) .released (lastByte ms) (lastByte outs) c rfl
    (es := programFrameTrace a x y z w ms outs s.programWait) (fun hf => ?_) fun _ => ?_⟩
  · simp only [exec, execProgramFrame]; rw [perform_inited hi, h]; rfl
  · have hp := programWait_toNat hf
    simp [programFrameTrace, headerTrace, traceWait_exchanges _ _ _ (hl.trans hml.symm), hml, requestedWait, byteWait,
      State.programWait, hp, Nat.mul_add]
    omega
  · simp only [programFrameTrace, headerTrace, List.cons_append, List.nil_append, bytesOnlySelected,
      beq_self_eq_true, Bool.true_and]
    rw [bytesOnlySelected_asserted (exchanges_x _ _)]
    rfl

theorem program_runs (hi : s.inited = true) (a : Addr) (len : Count) (data : List Byte) :
    Runs (.program a len data) s := by
  obtain ⟨x1, y1, z1, w1, ins, x2, x3, y3, z3, w3, x4, x5, y5, z5, w5, outs, c, hl, ho, h⟩ :=
    doProgram_block a ((s.start (.program a len data)).latchALD a len data)
  have hml := mergedWindow_length (((s.start (.program a len data)).latchALD a len data).withBuffer ins) a
  generalize (((s.start (.program a len data)).latchALD a len data).withBuffer ins).mergedWindow a = ms at h hml
  replace hml : ms.length = s.cfg.window := hml
  replace hl : ins.length = s.cfg.window := hl
  have ho' : outs.length = ms.length := ho.trans hml.symm
  refine ⟨_, _, ?_, moves_forgetBuffer (o := { s.opr with a := a, l := len, din := data }) .released (lastByte ms)
    (lastByte outs) c rfl
    (es := readFrameTrace s.cfg.dummy (windowStartAddr s.cfg a) x1 y1 z1 w1 ins ++ plainTrace 0x06#8 x2 ++
      eraseTrace a x3 y3 z3 w3 s.tim.tSe ++ plainTrace 0x06#8 x4 ++ programFrameTrace a x5 y5 z5 w5 ms outs s.programWait)
    (fun hf => ?_) fun _ => ?_⟩
  · simp only [exec, execProgram]; rw [operate_inited hi, h]; rfl
  · have hp := programWait_toNat hf
    simp [programFrameTrace, headerTrace, readFrameTrace, readTrace, plainTrace, eraseTrace, traceWait_map, hl,
      traceWait_exchanges _ _ _ ho', hml, requestedWait, byteWait, State.programWait, hp, Nat.mul_add,
      Nat.two_mul]
    omega
  · simp only [readFrameTrace, plainTrace, eraseTrace, readTrace, programFrameTrace, headerTrace, List.cons_append,
      List.nil_append, List.append_assoc, bytesOnlySelected, beq_self_eq_true, Bool.true_and]
    rw [bytesOnlySelected_asserted (by simp)]
    simp only [bytesOnlySelected, beq_self_eq_true, Bool.true_and]
    rw [bytesOnlySelected_asserted (exchanges_x _ _)]
    rfl

/-- Every operation that moves a byte (R112, R276). -/
theorem exec_moves (i : Instr) (s : State) (hi : s.inited = true) (hm : movesByte i = true) :
    ∃ t es, exec i s = .next t ∧ Moves i s t es := by
  cases i with
  | init | configureClockPeriod _ | select | release | hold | resume => exact absurd hm Bool.false_ne_true
  | transferByte b => exact transferByte_runs hi b
  | readByte c => exact readByte_runs hi c
  | sendCommand b => exact sendCommand_runs hi b
  | writeEnable => exact writeEnable_runs hi
  | wrenFrame => exact wrenFrame_runs hi
  | writeDisable => exact writeDisable_runs hi
  | wrdiFrame => exact wrdiFrame_runs hi
  | readStatus => exact readStatus_runs hi
  | rdsrFrame => exact rdsrFrame_runs hi
  | writeStatusRegister v => exact writeStatusRegister_runs hi v
  | wrsrFrame v => exact wrsrFrame_runs hi v
  | frameAddress a => exact frameAddress_runs hi a
  | sectorErase a => exact sectorErase_runs hi a
  | sectorEraseFrame a => exact sectorEraseFrame_runs hi a
  | chipErase => exact chipErase_runs hi
  | chipEraseFrame => exact chipEraseFrame_runs hi
  | readProductId => exact readProductId_runs hi
  | rdidFrame => exact rdidFrame_runs hi
  | read a len => exact read_runs hi a len
  | readFrame a => exact readFrame_runs hi a
  | programFrame a => exact programFrame_runs hi a
  | program a len data => exact program_runs hi a len data

/-! ## Every operation -/

/-- Before `init` (X8). -/
theorem exec_refused (i : Instr) (s : State) (hi : s.inited = false) (h1 : i ≠ .init)
    (h2 : ∀ k, i ≠ .configureClockPeriod k) :
    exec i s = .next (s.refuse .notInitialised) := by
  cases i with
  | init => exact absurd rfl h1
  | configureClockPeriod k => exact absurd rfl (h2 k)
  | _ => exact operate_refused hi _ _ _

/-- What the six operations that move no byte leave, and `configureClockPeriod(0)`. -/
def Still (i : Instr) (s t : State) : Prop :=
  (∃ k, k ≠ 0#16 ∧ i = .configureClockPeriod k ∧
    t = { s with pc := none, opr := { s.opr with k := k }, tim := { s.tim with halfPeriod := halfPeriodOf k } }) ∨
  (∃ c, i = .init ∧
    t = { s with
      pc := none
      inited := true
      pins := { sck := false, mosi := true, cs := .released, hold := .inactive, misoDir := .input }
      wireLog := [.hold .inactive, .cs .released, .mosi true, .sck false] ++ s.wireLog
      chip := c }) ∨
  (∃ c, i = .select ∧ t = (s.afterEdges [.sel] .asserted c).finish) ∨
  (∃ c, i = .release ∧ t = (s.afterEdges [.rel] .released c).finish) ∨
  (i = .hold ∧
    t = { s with
      pc := none
      pins := { s.pins with hold := .active }
      wireLog := .hold .active :: s.wireLog
      chip := if !s.inTransaction then s.chip.loseAt s.pins.cs else s.chip }) ∨
  (i = .resume ∧
    t = { s with
      pc := none
      pins := { s.pins with hold := .inactive }
      wireLog := .hold .inactive :: s.wireLog
      chip := if !s.paused then s.chip.loseAt s.pins.cs else s.chip })

theorem exec_still (i : Instr) (s : State) (hm : movesByte i = false)
    (hi : s.inited = true ∨ i = .init ∨ ∃ k, i = .configureClockPeriod k) :
    ∃ t, exec i s = .next t ∧ ((i = .configureClockPeriod 0#16 ∧ t = s.refuse .zeroFrequency) ∨ Still i s t) := by
  have hi' : (i ≠ .init) → (∀ k, i ≠ .configureClockPeriod k) → s.inited = true := fun a b => by
    rcases hi with h | h | ⟨k, h⟩
    · exact h
    · exact absurd h a
    · exact absurd h (b k)
  clear hi
  cases i with
  | init => exact ⟨_, rfl, .inr (.inr (.inl ⟨_, rfl, rfl⟩))⟩
  | configureClockPeriod k =>
    by_cases hk : k = 0#16
    · subst hk; exact ⟨_, rfl, .inl ⟨rfl, rfl⟩⟩
    · refine ⟨_, ?_, .inr (.inl ⟨k, hk, rfl, rfl⟩)⟩
      simp only [exec, execConfigureClockPeriod, hk, if_false]; rfl
  | select =>
    obtain ⟨c, h⟩ := doSelect_block (s.start .select)
    refine ⟨_, ?_, .inr (.inr (.inr (.inl ⟨c, rfl, rfl⟩)))⟩
    simp only [exec, execSelect]; rw [perform_inited (hi' (by simp) (by simp)), h]; rfl
  | release =>
    obtain ⟨c, h⟩ := doRelease_block (s.start .release)
    refine ⟨_, ?_, .inr (.inr (.inr (.inr (.inl ⟨if s.pins.cs == .released then c.loseClosed else c, rfl, rfl⟩))))⟩
    simp only [exec, execRelease]; rw [perform_inited (hi' (by simp) (by simp)), h]; rfl
  | hold =>
    refine ⟨_, ?_, .inr (.inr (.inr (.inr (.inr (.inl ⟨rfl, rfl⟩)))))⟩
    simp only [exec, execHold]; rw [perform_inited (hi' (by simp) (by simp))]; rfl
  | resume =>
    refine ⟨_, ?_, .inr (.inr (.inr (.inr (.inr (.inr ⟨rfl, rfl⟩)))))⟩
    simp only [exec, execResume]; rw [perform_inited (hi' (by simp) (by simp))]; rfl
  | _ => cases hm

/-- Every operation in every state: it is refused, or moves bytes, or is one of the six others. -/
theorem exec_cases (i : Instr) (s : State) : ∃ t, exec i s = .next t ∧
    ((∃ r, t = s.refuse r ∧ (s.inited = false ∨ i = .configureClockPeriod 0#16)) ∨
      (movesByte i = true ∧ s.inited = true ∧ ∃ es, Moves i s t es) ∨ Still i s t) := by
  by_cases hm : movesByte i = true
  · cases hi : s.inited
    · refine ⟨_, exec_refused i s hi ?_ ?_, .inl ⟨_, rfl, .inl rfl⟩⟩ <;> (intros; rintro rfl; cases hm)
    · obtain ⟨t, es, h1, h2⟩ := exec_moves i s hi hm
      exact ⟨t, h1, .inr (.inl ⟨hm, rfl, es, h2⟩)⟩
  · by_cases h : s.inited = true ∨ i = .init ∨ ∃ k, i = .configureClockPeriod k
    · obtain ⟨t, h1, h2⟩ := exec_still i s (by simpa using hm) h
      refine ⟨t, h1, ?_⟩
      rcases h2 with ⟨a, b⟩ | h2
      · exact .inl ⟨_, b, .inr a⟩
      · exact .inr (.inr h2)
    · simp only [not_or, not_exists] at h
      exact ⟨_, exec_refused i s (by simpa using h.1) h.2.1 h.2.2, .inl ⟨_, rfl, .inl (by simpa using h.1)⟩⟩

end Sys2Proof.Machine
end

