-- ==== Sys2Proof/Laws/Invariant.lean ====
section
/-! SUPPORT. Every shared operation keeps the chip's part of `State.Inv`, in every state and whatever the host does. -/

namespace Sys2Proof.Machine

open Sys2Proof

/-- The chip's part of the invariant, and the low clock it rests on; and nothing of the array is known from before the draw
number `e`. -/
structure State.ChipSound (e : Nat) (s : State) : Prop where
  clockLow : s.pins.sck = false
  arrayWf : s.chip.array.wf
  arrayFresh : s.chip.array.epoch < s.chip.draws
  since : e ≤ s.chip.array.epoch
  byteBoundary : s.chip.bitCount = 0
  parserFollowsCs : s.chip.parser = .closed ↔ s.pins.cs = .released
  parserBounded : s.chip.parser.bounded = true

theorem State.Inv.chipSound {s : State} (h : s.Inv) : s.ChipSound 0 :=
  ⟨h.clockLow, h.arrayWf, h.arrayFresh, Nat.zero_le _, h.byteBoundary, h.parserFollowsCs, h.parserBounded⟩

variable {s : State} {e : Nat}

theorem next_bounded {w : Nat} {busy : Option Mutation} {b : Byte} {q r : Parser} (h : q.next w busy b = some r)
    (hq : q.bounded = true) : r.bounded = true := by
  cases q <;> simp only [Parser.next] at h
  case opcode =>
    split at h
    · cases h
    · next o _ =>
      split at h
      · cases h; cases o <;> rfl
      · cases h
  case address2 cmd x =>
    cases h
    cases cmd
    · have := (joinBytes x b).isLt
      simp only [Parser.afterAddress, Parser.bounded, decide_eq_true_eq, arraySize]
      omega
    · rfl
    · rfl
  case statusWrite v => cases v <;> simp at h; subst h; rfl
  case ident n => split at h <;> cases h; simp only [Parser.bounded, decide_eq_true_eq]; omega
  case reading n => split at h <;> cases h; simp only [Parser.bounded, decide_eq_true_eq]; omega
  all_goals first | (cases h; done) | (split at h <;> cases h <;> rfl) | (cases h; rfl)

theorem exchange_array (p : Config.Params) (c : Chip) (out : Byte) (h : c.array.wf) (hd : c.array.epoch < c.draws) :
    (c.exchange p out).array.wf ∧ (c.exchange p out).array.epoch < (c.exchange p out).draws ∧
      c.array.epoch ≤ (c.exchange p out).array.epoch := by
  have := latch_draws p c
  unfold Chip.exchange Chip.advance
  split
  · exact ⟨by simpa using h, by simp; omega, by simp⟩
  · exact ⟨unspecified_wf _, by simp, by simp; omega⟩

theorem exchange_parser (p : Config.Params) (c : Chip) (out : Byte) (hl : c.parser.live) (hb : c.parser.bounded = true) :
    (c.exchange p out).bitCount = 0 ∧ (c.exchange p out).parser ≠ .closed ∧ (c.exchange p out).parser.bounded = true := by
  unfold Chip.exchange Chip.advance
  split
  · next q hq =>
    simp only [latch_parser] at hq
    exact ⟨rfl, (next_live hq hl).1, next_bounded hq hb⟩
  · exact ⟨rfl, by simp, rfl⟩

theorem doSelect_sound (h : s.ChipSound e) : s.doSelect.ChipSound e := by
  have hd := Nat.le_of_lt (Nat.lt_of_le_of_lt h.since h.arrayFresh)
  rw [doSelect_eq, h.clockLow, onSck_same]
  cases hc : s.pins.cs <;> cases hh : s.pins.hold <;> simp only [Chip.onCs]
  · exact ⟨rfl, h.arrayWf, h.arrayFresh, h.since, rfl, by simp, rfl⟩
  all_goals exact ⟨rfl, unspecified_wf _, by simp, hd, rfl, by simp, rfl⟩

/-- A release, whatever stands in the parser, leaves the array in canonical form and no transaction open. -/
theorem finish_sound (p : Config.Params) (c : Chip) (hw : c.array.wf) (hd : c.array.epoch < c.draws)
    (hb : c.bitCount = 0) :
    (c.finish p).array.wf ∧ (c.finish p).array.epoch < (c.finish p).draws ∧ (c.finish p).bitCount = 0 ∧
      (c.finish p).parser = .closed ∧ c.array.epoch ≤ (c.finish p).array.epoch := by
  have ite_wf : ∀ (b : Bool) (m : Memory), m.wf → (if b then m else c.array).wf := by
    intro b m hm; cases b; exact hw; exact hm
  have ite_since : ∀ (b : Bool) (m : Memory), c.array.epoch ≤ m.epoch → c.array.epoch ≤ (if b then m else c.array).epoch := by
    intro b m hm; cases b <;> simp_all
  have ite_epoch : ∀ (b : Bool) (m : Memory), m.epoch < c.draws → (if b then m else c.array).epoch < c.draws := by
    intro b m hm; cases b <;> simp_all
  unfold Chip.finish
  split
  case h_1 h => exact ⟨hw, hd, hb, h, Nat.le_refl _⟩
  case h_4 => exact ⟨ite_wf _ _ (eraseAll_wf p hw), ite_epoch _ _ hd, hb, rfl, ite_since _ _ (Nat.le_refl _)⟩
  case h_9 a _ => exact ⟨ite_wf _ _ (eraseSector_wf p hw a.isLt), ite_epoch _ _ hd, hb, rfl, ite_since _ _ (Nat.le_refl _)⟩
  case h_10 a ds _ =>
    have he := program_epoch_cases p c.array c.draws a.toNat ds.reverse
    split
    case isFalse => exact ⟨unspecified_wf _, by simp, rfl, rfl, Nat.le_of_lt hd⟩
    refine ⟨ite_wf _ _ (program_wf p hw _ a.isLt _), ?_, hb, rfl, ite_since _ _ (by omega)⟩
    simp only [Chip.mutate]
    have : (c.array.program p c.draws a.toNat ds.reverse).epoch ≤ c.draws := by omega
    cases c.wel
    · simpa using by omega
    · simpa using by omega
  all_goals first | exact ⟨hw, hd, hb, rfl, Nat.le_refl _⟩ | exact ⟨unspecified_wf _, by simp, rfl, rfl, Nat.le_of_lt hd⟩

theorem doRelease_sound (h : s.ChipSound e) : s.doRelease.ChipSound e := by
  have hp := h.parserFollowsCs
  rw [doRelease_eq, h.clockLow, onSck_same]
  cases hc : s.pins.cs
  · simp only [Chip.onCs]
    exact ⟨rfl, h.arrayWf, h.arrayFresh, h.since, h.byteBoundary, by simpa [hc] using hp, h.parserBounded⟩
  · simp only [Chip.onCs]
    split
    · obtain ⟨h1, h2, h3, h4, h5⟩ := finish_sound s.cfg s.chip h.arrayWf h.arrayFresh h.byteBoundary
      exact ⟨rfl, h1, h2, h.since.trans h5, h3, by simp [h4], by simp [h4, Parser.bounded]⟩
    · exact ⟨rfl, unspecified_wf _, by simp, Nat.le_of_lt (Nat.lt_of_le_of_lt h.since h.arrayFresh), rfl, by simp, rfl⟩

theorem doTransfer_sound (out : Byte) (h : s.ChipSound e) : (s.doTransfer out).ChipSound e := by
  have hp := h.parserFollowsCs
  obtain ⟨i, c, ht, he⟩ := doTransfer_eq out s
  rw [h.clockLow] at ht
  rw [he]
  obtain ⟨-, hl⟩ | ⟨-, -, -, rfl⟩ | ⟨h1, -, h3, -, rfl⟩ := transferSees_cases h.byteBoundary ht
  · refine ⟨rfl, ⟨by simp [hl.cells], by simp [hl.cells]⟩, hl.epoch,
      (Nat.le_of_lt (Nat.lt_of_le_of_lt h.since h.arrayFresh)).trans hl.fresh, hl.byteBoundary h.byteBoundary, ?_, ?_⟩ <;>
      simp only [State.afterBytes, hl.parser] <;> cases s.pins.cs <;> simp [lostAt, Parser.bounded]
  · exact ⟨rfl, h.arrayWf, Nat.lt_of_lt_of_le h.arrayFresh (Nat.le_add_right _ _), h.since, h.byteBoundary, hp,
      h.parserBounded⟩
  · obtain ⟨h4, h5, h9⟩ := exchange_array s.cfg s.chip out h.arrayWf h.arrayFresh
    obtain ⟨h6, h7, h8⟩ := exchange_parser s.cfg s.chip out ((live_iff _).1 h3) h.parserBounded
    exact ⟨rfl, h4, h5, h.since.trans h9, h6, by simp [h7, h1], h8⟩

/-- What the chip's part of the invariant does not look at may change. -/
theorem State.ChipSound.congr {t : State} (h : s.ChipSound e) (hp : t.pins.sck = s.pins.sck) (hc : t.pins.cs = s.pins.cs)
    (hd : t.chip = s.chip) : t.ChipSound e :=
  ⟨hp.trans h.clockLow, hd ▸ h.arrayWf, hd ▸ h.arrayFresh, hd ▸ h.since, hd ▸ h.byteBoundary, by rw [hd, hc]; exact h.parserFollowsCs,
    hd ▸ h.parserBounded⟩

theorem doReadByte_sound (c : Bool) (h : s.ChipSound e) : (s.doReadByte c).ChipSound e := by
  cases c
  · exact doRelease_sound (doTransfer_sound _ h)
  · exact doTransfer_sound _ h

theorem doSendBytes_sound (bs : List Byte) {s : State} (h : s.ChipSound e) : (s.doSendBytes bs).ChipSound e := by
  induction bs generalizing s with
  | nil => exact h
  | cons b bs ih => exact ih (doTransfer_sound b h)

theorem doReadBytes_sound (n : Nat) {s : State} (h : s.ChipSound e) : (s.doReadBytes n).2.ChipSound e := by
  induction n generalizing s with
  | zero => exact h
  | succ n ih => exact ih (doReadByte_sound _ h)

theorem doCommand_sound (op : Byte) (h : s.ChipSound e) : (s.doCommand op).ChipSound e := doTransfer_sound op (doSelect_sound h)

theorem doFrameAddress_sound (a : Addr) (h : s.ChipSound e) : (s.doFrameAddress a).ChipSound e := doSendBytes_sound _ h

theorem doPlainCommand_sound (o : Opcode) (h : s.ChipSound e) : (s.doPlainCommand o).ChipSound e :=
  doRelease_sound (doCommand_sound _ h)

theorem doReadStatus_sound (h : s.ChipSound e) : s.doReadStatus.ChipSound e := doReadByte_sound _ (doCommand_sound _ h)

theorem doReadProductId_sound (h : s.ChipSound e) : s.doReadProductId.ChipSound e :=
  (doReadByte_sound false (doReadByte_sound true (doCommand_sound Opcode.rdid.byte h))).congr rfl rfl rfl

theorem doWriteStatus_sound (v : Byte) (h : s.ChipSound e) : (s.doWriteStatus v).ChipSound e :=
  doRelease_sound (doTransfer_sound v (doCommand_sound _ h))

theorem doReadTransaction_sound (a : Addr) (n : Nat) (h : s.ChipSound e) : (s.doReadTransaction a n).2.ChipSound e := by
  unfold State.doReadTransaction
  split
  · exact doRelease_sound (doFrameAddress_sound a (doCommand_sound _ h))
  · exact doReadBytes_sound n (doFrameAddress_sound a (doCommand_sound _ h))

theorem doRead_sound (a : Addr) (n : Nat) (h : s.ChipSound e) : (s.doRead a n).ChipSound e :=
  (doReadTransaction_sound a n h).congr rfl rfl rfl

theorem latencyWait_sound (m : Mutation) (u : DelayUnit) (n : BitVec 32) (h : s.ChipSound e) :
    (s.latencyWait m u n).ChipSound e :=
  ⟨h.clockLow, h.arrayWf, h.arrayFresh, h.since, h.byteBoundary, h.parserFollowsCs, h.parserBounded⟩

theorem doSectorErase_sound (a : Addr) (h : s.ChipSound e) : (s.doSectorErase a).ChipSound e :=
  latencyWait_sound _ _ _ (doRelease_sound (doFrameAddress_sound a (doCommand_sound _ h)))

theorem doChipErase_sound (h : s.ChipSound e) : s.doChipErase.ChipSound e :=
  latencyWait_sound _ _ _ (doPlainCommand_sound .chipErase h)

theorem doProgramTransaction_sound (a : Addr) (h : s.ChipSound e) : (s.doProgramTransaction a).ChipSound e :=
  (latencyWait_sound .program .us 0#32
    (doRelease_sound (doSendBytes_sound (s.mergedWindow a)
      (doFrameAddress_sound a (doCommand_sound Opcode.program.byte h))))).congr rfl rfl rfl

theorem doReadWindow_sound (a : Addr) (h : s.ChipSound e) : (s.doReadWindow a).ChipSound e :=
  (doReadTransaction_sound _ _ h).congr rfl rfl rfl

theorem doProgram_sound (a : Addr) (h : s.ChipSound e) : (s.doProgram a).ChipSound e :=
  doProgramTransaction_sound a (doPlainCommand_sound _ (doSectorErase_sound a (doPlainCommand_sound _ (doReadWindow_sound a h))))

theorem doInit_sound (h : s.ChipSound e) : s.doInit.ChipSound e :=
  (doRelease_sound h).congr rfl rfl (by rw [doRelease_eq]; rfl)

/-- A breach seen only by the operation issued. -/
theorem breachedIf_sound (b : Bool) (h : s.ChipSound e) : (s.breachedIf b).ChipSound e := by
  cases b with
  | false => exact h
  | true =>
    have l := lost_loseAt s.chip s.pins.cs
    refine ⟨h.clockLow, ⟨?_, ?_⟩, l.epoch, (h.since.trans (Nat.le_of_lt h.arrayFresh)).trans l.fresh,
      l.byteBoundary h.byteBoundary, ?_, ?_⟩ <;> simp only [breachedIf_chip, breachedIf_pins, if_true]
    · rw [l.cells]; exact .nil
    · rw [l.cells]; simp
    · rw [l.parser]; cases s.pins.cs <;> simp [lostAt]
    · rw [l.parser]; cases s.pins.cs <;> rfl

theorem pinHold_sound (v : HoldLine) (h : s.ChipSound e) : (s.pinHold v).ChipSound e := h.congr rfl rfl rfl

theorem hostWaits_sound (h : s.ChipSound e) : s.hostWaits.ChipSound e :=
  ⟨h.clockLow, h.arrayWf, h.arrayFresh, h.since, h.byteBoundary, h.parserFollowsCs, h.parserBounded⟩

theorem finish_chipSound (h : s.ChipSound e) : s.finish.ChipSound e := h.congr rfl rfl rfl

theorem operate_sound {i : Instr} {latch body : State → State} (hl : ∀ j, (latch (s.start j)).ChipSound e)
    (hb : ∀ u : State, u.ChipSound e → (body u).ChipSound e) (h : s.ChipSound e) {t : State}
    (he : s.operate i latch body = .next t) : t.ChipSound e := by
  cases hi : s.inited
  · rw [operate_refused hi] at he; cases he; exact h.congr rfl rfl rfl
  · rw [operate_inited hi] at he; cases he; exact finish_chipSound (hb _ (hl _))

/-- Every operation keeps the chip's part of the invariant. -/
theorem exec_sound (i : Instr) (t : State) (h : s.ChipSound e) (he : exec i s = .next t) : t.ChipSound e := by
  have hs : ∀ j, (s.start j).ChipSound e := fun j => h.congr rfl rfl rfl
  cases i with
  | init => cases he; exact finish_chipSound (breachedIf_sound _ (doInit_sound (hs _)))
  | configureClockPeriod k =>
    simp only [exec, execConfigureClockPeriod] at he
    split at he <;> cases he <;> exact h.congr rfl rfl rfl
  | select => exact operate_sound (latch := id) hs (fun _ => doSelect_sound) h he
  | release => exact operate_sound (latch := id) hs (fun _ hu => breachedIf_sound _ (doRelease_sound hu)) h he
  | hold => exact operate_sound (latch := id) hs (fun _ hu => breachedIf_sound _ (pinHold_sound .active hu)) h he
  | resume => exact operate_sound (latch := id) hs (fun _ hu => breachedIf_sound _ (pinHold_sound .inactive hu)) h he
  | transferByte b =>
    exact operate_sound (latch := State.latchB b) (fun _ => h.congr rfl rfl rfl) (fun _ => doTransfer_sound b) h he
  | readByte c =>
    exact operate_sound (latch := State.latchC c) (fun _ => h.congr rfl rfl rfl) (fun _ => doReadByte_sound c) h he
  | sendCommand b =>
    exact operate_sound (latch := State.latchB b) (fun _ => h.congr rfl rfl rfl) (fun _ => doCommand_sound b) h he
  | writeEnable => exact operate_sound (latch := id) hs (fun _ => doPlainCommand_sound _) h he
  | writeDisable => exact operate_sound (latch := id) hs (fun _ => doPlainCommand_sound _) h he
  | wrenFrame => exact operate_sound (latch := id) hs (fun _ => doPlainCommand_sound _) h he
  | wrdiFrame => exact operate_sound (latch := id) hs (fun _ => doPlainCommand_sound _) h he
  | readStatus => exact operate_sound (latch := id) hs (fun _ => doReadStatus_sound) h he
  | rdsrFrame => exact operate_sound (latch := id) hs (fun _ => doReadStatus_sound) h he
  | readProductId => exact operate_sound (latch := id) hs (fun _ => doReadProductId_sound) h he
  | rdidFrame => exact operate_sound (latch := id) hs (fun _ => doReadProductId_sound) h he
  | writeStatusRegister b =>
    exact operate_sound (latch := State.latchB b) (fun _ => h.congr rfl rfl rfl) (fun _ => doWriteStatus_sound b) h he
  | wrsrFrame b => exact operate_sound (latch := id) hs (fun _ => doWriteStatus_sound b) h he
  | frameAddress a => exact operate_sound (latch := id) hs (fun _ => doFrameAddress_sound a) h he
  | read a len =>
    exact operate_sound (latch := State.latchAL a len) (fun _ => h.congr rfl rfl rfl) (fun _ => doRead_sound a _) h he
  | readFrame a => exact operate_sound (latch := id) hs (fun _ => doRead_sound a _) h he
  | sectorErase a =>
    exact operate_sound (latch := State.latchA a) (fun _ => h.congr rfl rfl rfl) (fun _ => doSectorErase_sound a) h he
  | sectorEraseFrame a => exact operate_sound (latch := id) hs (fun _ => doSectorErase_sound a) h he
  | chipErase => exact operate_sound (latch := id) hs (fun _ => doChipErase_sound) h he
  | chipEraseFrame => exact operate_sound (latch := id) hs (fun _ => doChipErase_sound) h he
  | program a len data =>
    exact operate_sound (latch := State.latchALD a len data) (fun _ => h.congr rfl rfl rfl) (fun _ => doProgram_sound a) h he
  | programFrame a => exact operate_sound (latch := id) hs (fun _ => doProgramTransaction_sound a) h he

theorem halfPeriodOf_pos (k : BitVec 16) : 1 ≤ (halfPeriodOf k).toNat := by
  simp only [halfPeriodOf, BitVec.toNat_ofNat]
  have : 500 / k.toNat ≤ 500 := Nat.div_le_self _ _
  omega

end Sys2Proof.Machine
end

