-- ==== Sys2Proof/Laws/Breach.lean ====
section
/-! SUPPORT. What a breach of the call discipline costs: a command begun in an open transaction, or bytes moved outside one,
leave nothing known of the array (60_exceptions.md R233; 92 D18; log 11). -/

namespace Sys2Proof.Machine

open Sys2Proof

variable {s : State} {e : Nat}

/-- The block is inside a transaction that the chip does not follow, and nothing of the array is known, from the draw number
`e` on. -/
structure State.Adrift (e : Nat) (s : State) : Prop where
  clockLow : s.pins.sck = false
  selected : s.pins.cs = .asserted
  desync : s.chip.parser = .desync
  cells : s.chip.array.cells = []
  since : e ≤ s.chip.array.epoch
  fresh : s.chip.array.epoch < s.chip.draws
  byteBoundary : s.chip.bitCount = 0

/-- `select` inside an open transaction (R135 b). -/
theorem doSelect_adrift (hk : s.pins.sck = false) (hc : s.pins.cs = .asserted) : s.doSelect.Adrift s.chip.draws := by
  rw [doSelect_eq, hk, hc, onSck_same]
  exact ⟨rfl, rfl, rfl, rfl, Nat.le_refl _, by simp [Chip.onCs], rfl⟩

/-- Bytes moved while the chip does not follow change nothing of that. -/
theorem doTransfer_adrift (out : Byte) (h : s.Adrift e) : (s.doTransfer out).Adrift e := by
  obtain ⟨i, c, ht, he⟩ := doTransfer_eq out s
  rw [h.clockLow] at ht
  rw [he]
  obtain ⟨-, hl⟩ | ⟨-, -, -, rfl⟩ | ⟨-, -, hl, -, -⟩ := transferSees_cases h.byteBoundary ht
  · exact ⟨rfl, h.selected, by rw [afterBytes_chip, hl.parser, h.selected]; rfl, hl.cells,
      (h.since.trans (Nat.le_of_lt h.fresh)).trans hl.fresh, hl.epoch, hl.byteBoundary h.byteBoundary⟩
  · exact ⟨rfl, h.selected, h.desync, h.cells, h.since, Nat.lt_of_lt_of_le h.fresh (Nat.le_add_right _ _), h.byteBoundary⟩
  · simp [Chip.live, h.desync] at hl

theorem doSendBytes_adrift (bs : List Byte) {s : State} (h : s.Adrift e) : (s.doSendBytes bs).Adrift e := by
  induction bs generalizing s with
  | nil => exact h
  | cons b bs ih => exact ih (doTransfer_adrift b h)

/-- A command begun inside an open transaction (R161 b). -/
theorem doCommand_adrift (op : Byte) (hk : s.pins.sck = false) (hc : s.pins.cs = .asserted) :
    (s.doCommand op).Adrift s.chip.draws := doTransfer_adrift op (doSelect_adrift hk hc)

/-- The release afterwards ends the transaction, and the array stays unknown. -/
theorem doRelease_adrift (h : s.Adrift e) : s.doRelease.chip.array.cells = [] ∧ e ≤ s.doRelease.chip.array.epoch ∧
    s.doRelease.chip.parser = .closed := by
  have hd := h.since.trans (Nat.le_of_lt h.fresh)
  rw [doRelease_eq, h.clockLow, h.selected, onSck_same]
  simp only [afterEdges_chip, Chip.onCs]
  split
  · simp [Chip.finish, h.desync, hd]
  · simp [hd]

theorem doReadBytes_adrift (n : Nat) {s : State} (h : s.Adrift e) :
    (s.doReadBytes (n + 1)).2.chip.array.cells = [] ∧ e ≤ (s.doReadBytes (n + 1)).2.chip.array.epoch ∧
      (s.doReadBytes (n + 1)).2.chip.parser = .closed := by
  induction n generalizing s with
  | zero => exact doRelease_adrift (doTransfer_adrift _ h)
  | succ n ih =>
    rw [State.doReadBytes]
    simp only [State.doReadByte, Nat.zero_lt_succ, decide_true, if_true]
    exact ih (doTransfer_adrift _ h)

/-- A byte moved while the chip is not selected or is paused (R139 f, g). -/
theorem doTransfer_offClock (out : Byte) (hk : s.pins.sck = false) (ho : offClock s.pins.cs s.pins.hold) :
    Lost (lostAt s.pins.cs) s.chip (s.doTransfer out).chip := by
  obtain ⟨i, c, ht, he⟩ := doTransfer_eq out s
  rw [hk] at ht
  rw [he]
  exact transferSees_offClock ho ht

end Sys2Proof.Machine
end

