-- ==== Sys2Proof/Laws/Program.lean ====
section
/-! SUPPORT. What the whole of `program` does to a chip that is in step with the block (43_program_rmw.md). -/

namespace Sys2Proof.Machine

open Sys2Proof

variable {p : Config.Params} {s : State}

/-- The window start fits the 16-bit address (R211). -/
theorem windowStartAddr_toNat (p : Config.Params) (a : Addr) : (windowStartAddr p a).toNat = windowStart p a := by
  have := granuleStart_le p.window a.toNat
  have := a.isLt
  simp only [windowStartAddr, windowStart, BitVec.toNat_ofNat]
  omega

theorem windowStart_end (p : Config.Params) (a : Addr) : windowStart p a + p.window ≤ arraySize :=
  windowEnd_le p a.isLt

/-- Steps 1 and 2 (R211, R212): the buffer holds the window, and nothing stored changes. -/
theorem doReadWindow_after (hs : Rest p s) (hb : s.chip.busy = none) (a : Addr) :
    After s.chip (s.doReadWindow a).chip s.chip.array s.chip.wel s.chip.statusOther ∧ Rest p (s.doReadWindow a) ∧
      (s.chip.conforming = true →
        (s.doReadWindow a).buf = (List.range p.window).map fun k => s.chip.array.read (windowStart p a + k)) := by
  have h := doReadTransaction_after hs hb (windowStartAddr s.cfg a) (n := s.cfg.window)
    (by rw [windowStartAddr_toNat]; exact windowStart_end s.cfg a)
  obtain ⟨h1, h2, h3⟩ := h
  rw [windowStartAddr_toNat, hs.cfg] at h3
  refine ⟨h1, ⟨h2.cfg, h2.clockLow, h2.busIdle, h2.notHeld⟩, fun hc => ?_⟩
  rw [← h3 hc, ← hs.cfg]
  rfl

theorem doPlainCommand_mergedWindow (o : Opcode) (s : State) (a : Addr) :
    (s.doPlainCommand o).mergedWindow a = s.mergedWindow a := by
  obtain ⟨i, c, h⟩ := doPlainCommand_block o s
  rw [h, afterBytes_mergedWindow]

theorem doSectorErase_mergedWindow (s : State) (a b : Addr) : (s.doSectorErase b).mergedWindow a = s.mergedWindow a := by
  obtain ⟨i, j, k, l, c, h⟩ := doSectorErase_block b s
  rw [h, afterBytes_mergedWindow]

theorem doReadWindow_mergedWindow (s : State) (a b : Addr) :
    (s.doReadWindow b).mergedWindow a = (s.withBuffer (s.doReadWindow b).buf).mergedWindow a := by
  obtain ⟨i, j, k, l, ins, c, -, h⟩ := doReadWindow_block b s
  rw [h, afterBytes_mergedWindow]
  rfl

/-- The whole of `program` (R210): the array is the erased one with the merged window programmed at the address. The merged
window is the one of the buffer read in step 2. -/
theorem doProgram_after (hs : Rest p s) (hb : s.chip.busy = none) (a : Addr) :
    ∃ d buf, s.chip.draws ≤ d ∧ d < (s.doProgram a).chip.draws ∧
      (s.chip.conforming = true → buf = (List.range p.window).map fun k => s.chip.array.read (windowStart p a + k)) ∧
      After s.chip (s.doProgram a).chip
        ((s.chip.array.eraseSector p a.toNat).program p d a.toNat ((s.withBuffer buf).mergedWindow a)) false
        s.chip.statusOther ∧ Rest p (s.doProgram a) := by
  obtain ⟨h1, r1, hbuf⟩ := doReadWindow_after hs hb a
  obtain ⟨h2, r2, -, -⟩ := doPlainCommand_after r1 (h1.notBusy hb)
  have g2 := h1.trans h2
  obtain ⟨h3, r3⟩ := doSectorErase_after r2 (g2.notBusy hb) a
  have g3 := g2.trans h3
  obtain ⟨h4, r4, -, -⟩ := doPlainCommand_after r3 (g3.notBusy hb)
  have g4 := g3.trans h4
  obtain ⟨d, hd, hd', h5, r5⟩ := doProgramTransaction_after r4 (g4.notBusy hb) a
  have g5 := g4.trans h5
  refine ⟨d, (s.doReadWindow a).buf, g4.draws.trans hd, hd', hbuf, ?_, r5⟩
  rw [h4.wel, if_pos rfl, h4.array, h3.array, h2.wel, if_pos rfl, h2.array, h1.array, h4.statusOther, h3.statusOther,
    h2.statusOther, h1.statusOther, doPlainCommand_mergedWindow, doSectorErase_mergedWindow, doPlainCommand_mergedWindow,
    doReadWindow_mergedWindow] at g5
  exact g5

theorem mergedWindow_getElem (s : State) (a : Addr) (k : Nat) (hk : k < (s.mergedWindow a).length) :
    (s.mergedWindow a)[k] = s.mergedByte a (windowStart s.cfg a + k) := by
  simp [State.mergedWindow]

/-- At a window start, with the chip's sector equal to the window, the erased sector is the window. -/
theorem sectorOf_window (hg : p.granuleMatches) (a : Addr) : sectorOf p a.toNat = (windowStart p a, p.window) := by
  have := windowStart_end p a
  simp only [windowStart] at this
  have hg' : p.sectorSize = p.window := hg
  simp only [sectorOf, windowStart, hg']
  rw [Nat.min_eq_left (by omega)]

/-- What `program` achieves (R221). -/
theorem program_merges (hg : p.granuleMatches) {m : Memory} {d : Nat} {a : Addr} (ha : p.aligned a) {ms : List Byte}
    (hl : ms.length = p.window) (x : Nat) :
    ((m.eraseSector p a.toNat).program p d a.toNat ms).read x =
      if h : a.toNat ≤ x ∧ x < a.toNat + p.window then ms[x - a.toNat]'(by omega) else m.read x := by
  have hws : windowStart p a = a.toNat := granuleStart_aligned ha
  have hin := aligned_fits p a.isLt ha (n := ms.length) (by omega)
  have herased : ∀ k < ms.length, (m.eraseSector p a.toNat).read (a.toNat + k) = p.erased := by
    intro k hk
    rw [read_eraseSector, sectorOf_window hg, hws, if_pos (by omega)]
  rw [program_inside_matching _ _ _ _ _ hin hg, programmedCells_erased _ _ _ _ _ herased, read_write]
  by_cases h : a.toNat ≤ x ∧ x < a.toNat + p.window
  · rw [dif_pos h, dif_pos (by omega)]
  · rw [dif_neg h, dif_neg (by omega), read_eraseSector, sectorOf_window hg, hws, if_neg (by simpa using h)]

end Sys2Proof.Machine
end

