-- ==== Sys2Proof/Laws/Discipline.lean ====
section
/-! SUPPORT. What the call discipline gives: the next byte of a well-sequenced host follows the frame, and what a disciplined
release, byte or whole transaction keeps of `State.InSync`. -/

namespace Sys2Proof.Machine

open Sys2Proof

variable {p : Config.Params} {s t : State}

theorem takesOut_next {busy : Option Mutation} {b : Byte} {q : Parser} (h : q.takesOut p busy b = true)
    (ha : ∀ a ds, q = .programming a ds → p.aligned a) :
    ∃ r, q.next p.window busy b = some r ∧ ∀ a ds, r = .programming a ds → p.aligned a := by
  cases q with
  | opcode =>
    simp only [Parser.takesOut, Option.any_eq_true] at h
    obtain ⟨o, ho, ht⟩ := h
    exact ⟨Parser.afterOpcode o, by simp [Parser.next, ho, ht], by cases o <;> simp [Parser.afterOpcode]⟩
  | statusWrite v => cases v <;> simp [Parser.takesOut] at h; exact ⟨_, rfl, by simp⟩
  | address0 c => simp [Parser.takesOut] at h; exact ⟨.address1 c, by simp [Parser.next, h], by simp⟩
  | address1 c => exact ⟨_, rfl, by simp⟩
  | address2 c x =>
    refine ⟨_, rfl, ?_⟩
    cases c <;> simp [Parser.afterAddress]
    simpa [Parser.takesOut] using h
  | programming a ds =>
    simp [Parser.takesOut] at h
    exact ⟨.programming a (b :: ds), by simp [Parser.next, h], by intro a' ds' e; cases e; exact ha a ds rfl⟩
  | status x => simp [Parser.takesOut] at h; exact ⟨.status true, by simp [Parser.next, h.1], by simp⟩
  | ident n => simp [Parser.takesOut] at h; exact ⟨.ident (n + 1), by simp [Parser.next, h], by simp⟩
  | reading a => simp [Parser.takesOut] at h; exact ⟨.reading (a + 1), by simp [Parser.next, h], by simp⟩
  | _ => simp [Parser.takesOut] at h

theorem givesIn_next {w : Nat} {busy : Option Mutation} {b : Byte} {c : Bool} {q : Parser} (h : q.givesIn c = true) :
    ∃ r, q.next w busy b = some r ∧ (r = .status true ∨ (∃ n, r = .ident n) ∨ ∃ n, r = .reading n) ∧
      (c = false → ∀ p, r.complete p = true) := by
  cases q with
  | status x => simp [Parser.givesIn] at h; exact ⟨.status true, by simp [Parser.next, h], by simp, fun _ _ => rfl⟩
  | ident n =>
    simp [Parser.givesIn] at h
    rcases h with rfl | ⟨rfl, rfl⟩
    · exact ⟨.ident 2, rfl, by simp, fun _ _ => rfl⟩
    · exact ⟨.ident 1, rfl, by simp, by simp⟩
  | reading a => simp [Parser.givesIn] at h; exact ⟨.reading (a + 1), by simp [Parser.next, h], by simp, fun _ _ => rfl⟩
  | _ => simp [Parser.givesIn] at h

/-- What a well-sequenced operation from `s` to `t` keeps: the chip in step with the block and, with W = S_CHIP (R274),
the array known. -/
structure Keeps (s t : State) : Prop where
  byteBoundary : t.chip.bitCount = 0
  synchronised : t.chip.parser ≠ .desync
  parserFollowsCs : t.chip.parser = .closed ↔ t.pins.cs = .released
  heldOnlySelected : t.pins.cs = .released → t.pins.hold = .inactive
  parserBounded : t.chip.parser.bounded = true
  programmingAligned : ∀ a ds, t.chip.parser = .programming a ds → s.cfg.aligned a
  epoch : s.cfg.granuleMatches → t.chip.array.epoch = s.chip.array.epoch

/-- A whole transaction from rest. -/
theorem After.keeps {m : Memory} {w : Bool} {st : Byte} (h : After s.chip t.chip m w st) (hr : Rest s.cfg t)
    (he : s.cfg.granuleMatches → m.epoch = s.chip.array.epoch) : Keeps s t :=
  ⟨h.byteBoundary, by rw [h.parser]; simp, by simp [h.parser, hr.busIdle], fun _ => hr.notHeld, by rw [h.parser]; rfl,
    by simp [h.parser], fun hg => by rw [h.array, he hg]⟩

/-- A stretch inside a transaction. -/
theorem Follows.keeps {q : Parser} (h : Follows s.chip t.chip q) (hs : Session s.cfg t) (hl : q.live)
    (hb : q.bounded = true) (ha : ∀ a ds, q = .programming a ds → s.cfg.aligned a) : Keeps s t :=
  ⟨h.byteBoundary, by rw [h.parser]; exact hl.2, by simp [h.parser, hs.selected, hl.1],
    (by rw [hs.selected]; intro e; cases e), by rw [h.parser]; exact hb, by rw [h.parser]; exact ha, fun _ => by rw [h.array]⟩

theorem ite_epoch (b : Bool) {m m' : Memory} (h : m'.epoch = m.epoch) : (if b then m' else m).epoch = m.epoch := by
  cases b <;> simp [h]

/-- PROGRAM at a window start of no more than a window leaves the array known, with W = S_CHIP. -/
theorem program_epoch (hg : p.granuleMatches) (m : Memory) (d : Nat) (a : Addr) (ds : List Byte) (ha : p.aligned a)
    (hl : ds.length ≤ p.window) : (m.program p d a.toNat ds).epoch = m.epoch := by
  rw [program_inside_matching _ _ _ _ _ (aligned_fits p a.isLt ha hl) hg]
  rfl

/-- The release of a whole frame. -/
theorem finish_keeps (hc : t.chip = s.chip.finish s.cfg) (hr : Rest s.cfg t) (hb : s.chip.bitCount = 0)
    (hcomp : s.chip.parser.complete s.cfg = true) (ha : ∀ a ds, s.chip.parser = .programming a ds → s.cfg.aligned a) :
    Keeps s t := by
  have h : t.chip.bitCount = 0 ∧ t.chip.parser = .closed ∧
      (s.cfg.granuleMatches → t.chip.array.epoch = s.chip.array.epoch) := by
    rw [hc]
    cases hq : s.chip.parser with
    | command o =>
      cases o <;> simp [Parser.complete, hq] at hcomp <;> simp [Chip.finish, hq, Chip.mutate, hb]
      cases s.chip.wel <;> simp
    | status b => cases b <;> simp [Parser.complete, hq] at hcomp; simp [Chip.finish, hq, hb]
    | ident n => simp [Parser.complete, hq] at hcomp; subst hcomp; simp [Chip.finish, hq, hb]
    | statusWrite v => cases v <;> simp [Parser.complete, hq] at hcomp; simp [Chip.finish, hq, hb]
    | reading n => simp [Chip.finish, hq, hb]
    | eraseReady a => simp [Chip.finish, hq, hb, Chip.mutate]; cases s.chip.wel <;> simp
    | programming a ds =>
      simp [Parser.complete, hq] at hcomp
      simp [Chip.finish, hq, hb, Chip.mutate, hcomp]
      cases s.chip.wel <;> simp
      exact fun hg => program_epoch hg _ _ _ _ (ha a ds hq) (by simp [hcomp])
    | _ => simp [Parser.complete, hq] at hcomp
  exact ⟨h.1, by rw [h.2.1]; simp, by simp [h.2.1, hr.busIdle], fun _ => hr.notHeld, by rw [h.2.1]; rfl, by simp [h.2.1],
    h.2.2⟩

/-- A well-sequenced host at rest finds no transaction open. -/
theorem State.InSync.rest (h : s.InSync) (hr : s.atRest = true) : Rest s.cfg s ∧ s.chip.parser = .closed := by
  simp only [State.atRest, Bool.and_eq_true, beq_iff_eq] at hr
  exact ⟨⟨rfl, h.clockLow, hr.1, hr.2⟩, h.parserFollowsCs.2 hr.1⟩

/-- Inside a transaction the chip follows it. -/
theorem State.InSync.session (h : s.InSync) (hr : s.inTransaction = true) : Session s.cfg s ∧ s.chip.parser.live := by
  simp only [State.inTransaction, Bool.and_eq_true, beq_iff_eq] at hr
  exact ⟨⟨rfl, h.clockLow, hr.1, hr.2, h.byteBoundary⟩,
    fun h' => by rw [h.parserFollowsCs.1 h'] at hr; simp at hr, h.synchronised⟩

end Sys2Proof.Machine
end

