-- ==== Sys2Proof/Laws/PerInstr.lean ====
section
/-! SUPPORT. Statements made of every instruction as syntax, one lemma per constructor. -/

namespace Sys2Proof.Laws.LegalEncoding

open Sys2Proof

/-- A request of the shape the encoding tables allow: a host code R112 assigns, a wire header that begins with one of the nine
opcodes and has the length its format gives it, or the three bytes of an address frame with the first one 0x00 (R100 to R104,
R112). -/
def legal : Request → Bool
  | .host op _ => hostCodeAssigned op.toNat
  | .wire [] => false
  | .wire (b :: rest) =>
    match Opcode.ofByte b with
    | some .wrsr => rest.length == 1
    | some .read | some .program | some .sectorErase => rest.length == 3 && rest.head? == some 0x00#8
    | some _ => rest.isEmpty
    | none => false
  | .internal bytes => bytes.length == 3 && bytes.head? == some 0x00#8
  | .hostWait => false

/-- The encoding of `i` is legal. -/
def Statement (i : Instr) : Prop := legal (encode i) = true

theorem wrenFrame : Statement .wrenFrame := rfl
theorem wrdiFrame : Statement .wrdiFrame := rfl
theorem rdsrFrame : Statement .rdsrFrame := rfl
theorem wrsrFrame (v : Byte) : Statement (.wrsrFrame v) := rfl
theorem readFrame (a : Addr) : Statement (.readFrame a) := rfl
theorem programFrame (a : Addr) : Statement (.programFrame a) := rfl
theorem sectorEraseFrame (a : Addr) : Statement (.sectorEraseFrame a) := rfl
theorem chipEraseFrame : Statement .chipEraseFrame := rfl
theorem rdidFrame : Statement .rdidFrame := rfl
theorem init : Statement .init := rfl
theorem configureClockPeriod (k : BitVec 16) : Statement (.configureClockPeriod k) := rfl
theorem select : Statement .select := rfl
theorem release : Statement .release := rfl
theorem transferByte (b : Byte) : Statement (.transferByte b) := rfl
theorem readByte (c : Bool) : Statement (.readByte c) := rfl
theorem sendCommand (op : Byte) : Statement (.sendCommand op) := rfl
theorem writeEnable : Statement .writeEnable := rfl
theorem writeDisable : Statement .writeDisable := rfl
theorem readStatus : Statement .readStatus := rfl
theorem readProductId : Statement .readProductId := rfl
theorem writeStatusRegister (v : Byte) : Statement (.writeStatusRegister v) := rfl
theorem read (a : Addr) (len : Count) : Statement (.read a len) := rfl
theorem sectorErase (a : Addr) : Statement (.sectorErase a) := rfl
theorem chipErase : Statement .chipErase := rfl
theorem program (a : Addr) (len : Count) (data : List Byte) : Statement (.program a len data) := rfl
theorem hold : Statement .hold := rfl
theorem resume : Statement .resume := rfl
theorem frameAddress (a : Addr) : Statement (.frameAddress a) := rfl

end Sys2Proof.Laws.LegalEncoding
end

