-- ==== Sys2Proof/Tests/Slice0.lean ====
section
/-! SUPPORT. Tests. Expected values are from spec/95_test_vectors.md (T1 to T24, S1 to S5, P1 to P6) and, for words, from the
encoding tables R102, R103, R112; and for every statement with hypotheses a state and operands that meet them. -/

namespace Sys2Proof.Tests

open Sys2Proof Sys2Proof.Machine

set_option maxRecDepth 20000

/-! ## Well-formedness and decoding -/

/-- R110: `data: u8[length]`. -/
theorem test_wellFormed_refuses_short_data : (Instr.program 0#16 2#17 [0x80#8]).wellFormed = false := by decide

theorem test_wellFormed_refuses_long_data : (Instr.program 0#16 0#17 [0x80#8]).wellFormed = false := by decide

theorem test_wellFormed_accepts : (Instr.program 0xFFFF#16 1#17 [0x80#8]).wellFormed = true := by decide

/-- The wire opcodes of R102 and the frames of R103, R104, written out bit by bit. -/
theorem test_decode_wire :
    decode (.wire [0b00000110#8]) = .ok .wrenFrame ∧ decode (.wire [0b00000100#8]) = .ok .wrdiFrame ∧
    decode (.wire [0b00000101#8]) = .ok .rdsrFrame ∧
    decode (.wire [0b00000001#8, 0b10001100#8]) = .ok (.wrsrFrame 0x8C#8) ∧
    decode (.wire [0b00000011#8, 0b00000000#8, 0b11111111#8, 0b11111000#8]) = .ok (.readFrame 0xFFF8#16) ∧
    decode (.wire [0b00000010#8, 0b00000000#8, 0b00000001#8, 0b00000000#8]) = .ok (.programFrame 0x0100#16) ∧
    decode (.wire [0b01010010#8, 0b00000000#8, 0b00010010#8, 0b00110100#8]) = .ok (.sectorEraseFrame 0x1234#16) ∧
    decode (.wire [0b01100010#8]) = .ok .chipEraseFrame ∧ decode (.wire [0b00010101#8]) = .ok .rdidFrame ∧
    decode (.internal [0b00000000#8, 0b00000001#8, 0b00000000#8]) = .ok (.frameAddress 0x0100#16) := by decide

/-- The host codes of R112, written out bit by bit. -/
theorem test_decode_host :
    let p : HostPorts := { addr := 0x1234#16, len := 1#17, byte := 0xA5#8, cont := true, khz := 250#16, din := [0x80#8] }
    decode (.host 0b00000#5 p) = .ok .init ∧ decode (.host 0b00001#5 p) = .ok (.configureClockPeriod 250#16) ∧
    decode (.host 0b00010#5 p) = .ok .select ∧ decode (.host 0b00011#5 p) = .ok .release ∧
    decode (.host 0b00100#5 p) = .ok (.transferByte 0xA5#8) ∧ decode (.host 0b00101#5 p) = .ok (.readByte true) ∧
    decode (.host 0b01000#5 p) = .ok (.sendCommand 0xA5#8) ∧ decode (.host 0b01001#5 p) = .ok .writeEnable ∧
    decode (.host 0b01010#5 p) = .ok .writeDisable ∧ decode (.host 0b01011#5 p) = .ok .readStatus ∧
    decode (.host 0b01100#5 p) = .ok .readProductId ∧ decode (.host 0b01101#5 p) = .ok (.writeStatusRegister 0xA5#8) ∧
    decode (.host 0b01110#5 p) = .ok (.read 0x1234#16 1#17) ∧ decode (.host 0b01111#5 p) = .ok (.sectorErase 0x1234#16) ∧
    decode (.host 0b10000#5 p) = .ok .chipErase ∧ decode (.host 0b10001#5 p) = .ok (.program 0x1234#16 1#17 [0x80#8]) ∧
    decode (.host 0b10010#5 p) = .ok .hold ∧ decode (.host 0b10011#5 p) = .ok .resume := by decide

/-- R107, R108, R113: what is no instruction; and R273: a wait of the host is none. -/
theorem test_decode_refuses :
    decode (.host 0x06#5 {}) = .error (.reservedHostCode 0x06#5) ∧
    decode (.host 0x1F#5 {}) = .error (.reservedHostCode 0x1F#5) ∧
    decode (.wire [0x07#8]) = .error (.notAnOpcode 0x07#8) ∧
    decode (.wire [0x03#8, 0x01#8, 0x00#8, 0x00#8]) = .error (.reservedAddressByte 0x01#8) ∧
    decode (.wire [0x06#8, 0x00#8]) = .error .headerLength ∧
    decode .hostWait = .error .noOperation := by decide

/-- R112, R230: no operand is checked, so a data stream of another length is taken as it is. -/
theorem test_decode_short_data :
    decode (.host 0x11#5 { len := 2#17, din := [0x80#8] }) = .ok (.program 0#16 2#17 [0x80#8]) := by decide

/-- The words of spec/opcode_table.json, one of each width. -/
theorem test_table_words :
    decodeTableWord 8 0x06 = some .wrenFrame ∧ decodeTableWord 16 0x018C = some (.wrsrFrame 0x8C#8) ∧
    decodeTableWord 32 0x03001234 = some (.readFrame 0x1234#16) ∧ decodeTableWord 8 0x13 = some .resume ∧
    decodeTableWord 24 0x001234 = some (.frameAddress 0x1234#16) := by decide

/-- T10: the bytes of the address frame. -/
theorem test_addressFrame :
    addressFrame 0x1234#16 = [0x00#8, 0x12#8, 0x34#8] ∧ addressFrame 0x8000#16 = [0x00#8, 0x80#8, 0x00#8] ∧
    addressFrame 0xFFF8#16 = [0x00#8, 0xFF#8, 0xF8#8] ∧ addressFrame 0x00FF#16 = [0x00#8, 0x00#8, 0xFF#8] := by decide

/-! ## A bench -/

/-- The parameters of the test vectors, with a window and a sector of `2 ^ w` bytes. -/
def params (w : Fin 17) : Config.Params := { Config.reference with windowLog := w, sectorSize := 2 ^ w.val }

/-- After reset and `init`, with the given array cells and latch. -/
def bench (w : Fin 17) (cells : List Host.Cell) (wel : Bool) : State :=
  { State.resetWith (params w) with
    inited := true
    pins := { sck := false, mosi := true, cs := .released, hold := .inactive, misoDir := .input }
    chip := { Chip.reset 0x1F#8 0x65#8 with array := { cells := cells, epoch := 0 }, wel := wel } }

/-- Inside a transaction, the chip at `q`. -/
def inside (q : Parser) (w : Fin 17) (cells : List Host.Cell) (wel : Bool) : State :=
  let s := bench w cells wel
  { s with pins := { s.pins with cs := .asserted }, chip := { s.chip with parser := q } }

/-- `f` of the state after the instructions, one after the other. -/
def run {α : Type} (is : List Instr) (s : State) (f : State → α) : Option α :=
  match execAll is s with
  | .next t => some (f t)
  | _ => none

/-- The levels of `mosi` in the trace, eight to a byte, first to last. -/
def bytesOf : List Bool → List Byte
  | a :: b :: c :: d :: e :: f :: g :: h :: rest =>
    shiftIn (shiftIn (shiftIn (shiftIn (shiftIn (shiftIn (shiftIn (shiftIn 0#8 a) b) c) d) e) f) g) h :: bytesOf rest
  | _ => []

/-- The out bytes in the trace. -/
def sent (s : State) : List Byte :=
  bytesOf (s.wireTrace.filterMap fun e => match e with
    | .mosi b => some b
    | _ => none)

/-- What stands in the trace beside bytes: chip-select, the hold line, waits of milliseconds. -/
def marks (s : State) : List Event :=
  s.wireTrace.filter fun e => match e with
    | .cs _ | .hold _ | .wait .ms _ => true
    | _ => false

/-! ## The bus operations -/

/-- T1. -/
theorem test_init :
    run [.init] State.reset (fun t => (t.wireTrace, t.pins, t.inited)) =
      some ([.sck false, .mosi true, .cs .released, .hold .inactive],
        { sck := false, mosi := true, cs := .released, hold := .inactive, misoDir := .input }, true) := by decide

/-- T5. -/
theorem test_configureClockPeriod :
    ([1, 2, 3, 7, 100, 250, 251, 499, 500, 501, 65535].map fun k =>
      run [.configureClockPeriod (BitVec.ofNat 16 k)] State.reset (fun t => t.tim.halfPeriod.toNat)) =
      [500, 250, 166, 71, 5, 2, 1, 1, 1, 1, 1].map some := by decide

/-- T5, T8: refused, and the half period stays. -/
theorem test_configureClockPeriod_zero :
    run [.configureClockPeriod 0#16] State.reset (fun t => (t.tim.halfPeriod, t.refusals, t.wireLog)) =
      some (1#16, [.zeroFrequency], []) := by decide

/-- T2. -/
theorem test_select_release :
    run [.select] (bench 5 [] false) (fun t => (t.wireTrace, t.busState)) =
      some ([.sck false, .cs .asserted], .selected) ∧
    run [.release] (inside (.status true) 5 [] false) (fun t => (t.wireTrace, t.busState, t.chip.parser)) =
      some ([.sck false, .cs .released], .idle, .closed) := by decide

/-- T8: before `init`. -/
theorem test_select_refused :
    run [.select] State.reset (fun t => (t.wireLog, t.refusals, t.pins.cs)) = some ([], [.notInitialised], .released) := by
  decide

/-- T3: `transferByte(0xA5)` at half period 2 while the chip supplies 0x3C. -/
theorem test_transferByte :
    let s := inside (.reading 0) 5 [(0, 0x3C#8)] false
    run [.transferByte 0xA5#8] { s with tim := { s.tim with halfPeriod := 2#16 } }
        (fun t => (t.wireTrace, t.res.rb, t.pins.mosi)) =
      some ([.sck false, .mosi true, .wait .us 2#32, .sck true, .sample false, .wait .us 2#32,
        .sck false, .mosi false, .wait .us 2#32, .sck true, .sample false, .wait .us 2#32,
        .sck false, .mosi true, .wait .us 2#32, .sck true, .sample true, .wait .us 2#32,
        .sck false, .mosi false, .wait .us 2#32, .sck true, .sample true, .wait .us 2#32,
        .sck false, .mosi false, .wait .us 2#32, .sck true, .sample true, .wait .us 2#32,
        .sck false, .mosi true, .wait .us 2#32, .sck true, .sample true, .wait .us 2#32,
        .sck false, .mosi false, .wait .us 2#32, .sck true, .sample false, .wait .us 2#32,
        .sck false, .mosi true, .wait .us 2#32, .sck true, .sample false, .wait .us 2#32, .sck false], 0x3C#8, true) := by
  decide

/-- T4, the rows that fix the bit order: a lone first bit is bit 7. -/
theorem test_transferByte_order :
    run [.transferByte 0x80#8] (inside (.reading 0) 5 [(0, 0x80#8)] false) (fun t => (sent t, t.res.rb)) =
      some ([0x80#8], 0x80#8) ∧
    run [.transferByte 0x01#8] (inside (.reading 0) 5 [(0, 0x01#8)] false) (fun t => (sent t, t.res.rb)) =
      some ([0x01#8], 0x01#8) := by decide

/-- T6. -/
theorem test_readByte :
    run [.readByte true] (inside (.ident 0) 5 [] false) (fun t => (sent t, t.res.rb, t.busState)) =
      some ([0xFF#8], 0x1F#8, .selected) ∧
    run [.readByte false] (inside (.ident 1) 5 [] false) (fun t => (sent t, t.res.rb, t.busState)) =
      some ([0xFF#8], 0x65#8, .idle) := by decide

/-! ## Commands -/

/-- T9. -/
theorem test_sendCommand :
    run [.sendCommand 0x03#8] (bench 5 [] false) (fun t => (sent t, t.busState, t.chip.parser)) =
      some ([0x03#8], .selected, .address0 .read) := by decide

/-- T9, T19 R79. -/
theorem test_writeEnable :
    run [.writeEnable] (bench 5 [] false) (fun t => (sent t, marks t, t.chip.wel)) =
      some ([0x06#8], [.cs .asserted, .cs .released], true) := by decide

/-- T9. That the latch is cleared is log 10. -/
theorem test_writeDisable :
    run [.writeDisable] (bench 5 [] true) (fun t => (sent t, marks t, t.chip.wel)) =
      some ([0x04#8], [.cs .asserted, .cs .released], false) := by decide

/-- T9: the latch shows at bit 1. -/
theorem test_readStatus :
    run [.readStatus] (bench 5 [] true) (fun t => (sent t, t.res.rb)) = some ([0x05#8, 0xFF#8], 0x02#8) ∧
    run [.readStatus] (bench 5 [] false) (fun t => t.res.rb) = some 0x00#8 := by decide

/-- S3. -/
theorem test_readProductId :
    run [.readProductId] (bench 5 [] false) (fun t => (sent t, t.res.rw)) =
      some ([0x15#8, 0xFF#8, 0xFF#8], 0x1F65#16) := by decide

/-- T9: no sign effect, no lost bit. -/
theorem test_productId_order : productId 0x80#8 0x01#8 = 0x8001#16 ∧ productId 0xEF#8 0x10#8 = 0xEF10#16 := by decide

/-- T9. -/
theorem test_writeStatusRegister :
    run [.writeStatusRegister 0x8C#8] (bench 5 [] false) (fun t => (sent t, marks t)) =
      some ([0x01#8, 0x8C#8], [.cs .asserted, .cs .released]) := by decide

/-- T11: the pause writes the hold line and leaves the place in the frame. -/
theorem test_hold_resume :
    run [.hold, .resume, .readByte true] (inside (.reading 0x10) 5 [(0x10, 0x10#8)] false)
      (fun t => (marks t, t.res.rb)) = some ([.hold .active, .hold .inactive], 0x10#8) := by decide

/-- T10, R103: from the READ opcode. -/
theorem test_frameAddress :
    run [.frameAddress 0x1234#16] (inside (.address0 .read) 5 [] false) (fun t => (sent t, t.chip.parser)) =
      some ([0x00#8, 0x12#8, 0x34#8], .reading 0x1234) := by decide

/-! ## Array operations -/

/-- T12. -/
theorem test_clamp :
    clampedLength 0#16 0x10001#17 = 0x10000 ∧ clampedLength 1#16 0x10000#17 = 0xFFFF ∧ clampedLength 0xFFF8#16 16#17 = 8 ∧
    clampedLength 0xFFF8#16 7#17 = 7 ∧ clampedLength 0xFFFF#16 0x1FFFF#17 = 1 ∧ clampedLength 0x1234#16 0#17 = 0 := by decide

/-- T13, at the last two bytes of the array. -/
theorem test_read :
    run [.read 0xFFFE#16 16#17] (bench 5 [(0xFFFE, 0x01#8), (0xFFFF, 0x00#8)] false)
      (fun t => (sent t, t.res.rn, t.res.dout, t.busState)) =
      some ([0x03#8, 0x00#8, 0xFF#8, 0xFE#8, 0xFF#8, 0xFF#8], 2#17, [0x01#8, 0x00#8], .idle) := by decide

/-- T15. -/
theorem test_read_nothing :
    run [.read 0x0040#16 0#17] (bench 5 [] false) (fun t => (sent t, t.res.rn, t.res.dout, t.busState)) =
      some ([0x03#8, 0x00#8, 0x00#8, 0x40#8], 0#17, [], .idle) := by decide

/-- T16: the address is sent unrounded, the sector 0x20 to 0x3F is erased, the latch is cleared. -/
theorem test_sectorErase :
    run [.sectorErase 0x0025#16] (bench 5 [(0x1F, 0x1F#8), (0x20, 0x20#8), (0x40, 0x40#8)] true)
      (fun t => (sent t, marks t, t.chip.wel, [0x1F, 0x20, 0x3F, 0x40].map t.chip.array.read)) =
      some ([0x52#8, 0x00#8, 0x00#8, 0x25#8], [.cs .asserted, .cs .released, .wait .ms 20#32], false,
        [0x1F#8, 0xFF#8, 0xFF#8, 0x40#8]) := by decide

/-- T19: without the latch nothing changes, and the wait is made all the same. -/
theorem test_sectorErase_unlatched :
    run [.sectorErase 0x0100#16] (bench 5 [(0x100, 0x01#8)] false) (fun t => (marks t, t.chip.array.read 0x100)) =
      some ([.cs .asserted, .cs .released, .wait .ms 20#32], 0x01#8) := by decide

/-- T18, the trace; the array is `Memory.eraseAll`, by R83. -/
theorem test_chipErase :
    run [.chipErase] (bench 5 [(0x100, 0x01#8)] false) (fun t => (sent t, marks t, t.chip.array.read 0x100)) =
      some ([0x62#8], [.cs .asserted, .cs .released, .wait .ms 200#32], 0x01#8) := by decide

/-! ## program -/

/-- T20. -/
theorem test_windowStart :
    windowStart (params 5) 0x0025#16 = 0x20 ∧ windowStart (params 5) 0xFFFF#16 = 0xFFE0 ∧
    windowStart (params 8) 0x1234#16 = 0x1200 ∧ windowStart (params 0) 0x1234#16 = 0x1234 ∧
    windowStart (params 16) 0x1234#16 = 0 := by decide

/-- T21 with W = 4: `AA` where the caller's byte falls, the buffer elsewhere. -/
theorem test_merge :
    (((bench 2 [] false).latchALD 0x0041#16 2#17 [0xAA#8, 0xBB#8]).withBuffer [0x40#8, 0x41#8, 0x42#8, 0x43#8]).mergedWindow
      0x0041#16 = [0x40#8, 0xAA#8, 0xBB#8, 0x43#8] := by decide

/-- P3 with W = 2: five transactions; the second byte of the window is preserved. -/
theorem test_program :
    run [.program 0x0010#16 1#17 [0x80#8]] (bench 1 [(0x10, 0x10#8), (0x11, 0x11#8)] false)
      (fun t => (sent t, t.chip.wel, [0x10, 0x11].map t.chip.array.read)) =
      some ([0x03#8, 0x00#8, 0x00#8, 0x10#8, 0xFF#8, 0xFF#8, 0x06#8, 0x52#8, 0x00#8, 0x00#8, 0x10#8, 0x06#8,
        0x02#8, 0x00#8, 0x00#8, 0x10#8, 0x80#8, 0x11#8], false, [0x80#8, 0x11#8]) := by decide

/-- P4 with W = 2: from an address inside the window nothing is known of the array afterwards. -/
theorem test_program_unaligned :
    run [.program 0x0011#16 1#17 [0x80#8]] (bench 1 [(0x10, 0x10#8), (0x11, 0x11#8)] false) (fun t => t.chip.array.cells) =
      some [] := by decide

/-- R215: a data stream of one byte where `length` says two; what is known of it is sent. -/
theorem test_program_short_data :
    run [.program 0x0010#16 2#17 [0x80#8]] (bench 1 [(0x10, 0x10#8), (0x11, 0x11#8)] false)
      (fun t => ((sent t).take 17, marks t, t.busState)) =
      some ([0x03#8, 0x00#8, 0x00#8, 0x10#8, 0xFF#8, 0xFF#8, 0x06#8, 0x52#8, 0x00#8, 0x00#8, 0x10#8, 0x06#8,
        0x02#8, 0x00#8, 0x00#8, 0x10#8, 0x80#8], [.cs .asserted, .cs .released, .cs .asserted, .cs .released, .cs .asserted,
        .cs .released, .wait .ms 20#32, .cs .asserted, .cs .released, .cs .asserted, .cs .released], .idle) := by decide

/-- R222, 93 U11: a window of two bytes on a chip with sectors of four; only the window is known afterwards. -/
theorem test_program_small_window :
    let s := bench 1 [(0x0E, 0x0E#8), (0x10, 0x10#8), (0x11, 0x11#8), (0x12, 0x12#8)] false
    run [.program 0x0010#16 1#17 [0x80#8]] { s with cfg := { s.cfg with sectorSize := 4 } } (fun t => t.chip.array.cells) =
      some [(0x10, 0x80#8), (0x11, 0x11#8)] := by decide

/-! ## Breaches and waits of the host -/

/-- R161 b, R233: a command begun in an open READ transaction. -/
theorem test_command_in_open_transaction :
    run [.sendCommand 0x05#8] (inside (.reading 0) 5 [(0, 0x3C#8)] true)
      (fun t => (sent t, t.busState, t.chip.parser, t.chip.array)) =
      some ([0x05#8], .selected, .desync, { cells := [], epoch := 1 }) := by decide

/-- R107, R161 c: a byte that is no opcode is sent, and the chip is desynchronised. -/
theorem test_command_no_opcode :
    run [.sendCommand 0x07#8] (bench 5 [(0, 0x3C#8)] true) (fun t => (sent t, t.busState, t.chip.parser, t.chip.array.cells)) =
      some ([0x07#8], .selected, .desync, []) := by decide

/-- R131 c, R137 a, R266: `init` while Selected and `release` while Idle; the transaction is over and nothing is known. -/
theorem test_breaches_of_pairing :
    run [.init] (inside (.status true) 5 [(0, 0x3C#8)] true) (fun t => (t.pins.cs, t.chip.parser, t.chip.array)) =
      some (.released, .closed, { cells := [], epoch := 1 }) ∧
    run [.release] (bench 5 [(0, 0x3C#8)] true) (fun t => (t.wireTrace, t.chip.parser, t.chip.array)) =
      some ([.sck false, .cs .released], .closed, { cells := [], epoch := 1 }) ∧
    run [.init] (bench 5 [(0, 0x3C#8)] true) (fun t => t.chip.array.cells) = some [(0, 0x3C#8)] := by decide

/-- R267: `hold` twice, and `resume` that no `hold` stands before, inside a transaction and while Idle. -/
theorem test_breaches_of_pausing :
    run [.hold, .hold] (inside (.reading 0) 5 [(0, 0x3C#8)] true) (fun t => (t.chip.parser, t.chip.array.cells)) =
      some (.desync, []) ∧
    run [.resume] (inside (.reading 0) 5 [(0, 0x3C#8)] true) (fun t => (t.chip.parser, t.chip.array.cells)) =
      some (.desync, []) ∧
    run [.resume] (bench 5 [(0, 0x3C#8)] true) (fun t => (t.chip.parser, t.chip.array.cells)) = some (.closed, []) := by
  decide

/-- R78, R100, R270: a second status byte, and a PROGRAM frame with one data byte where W = 2. -/
theorem test_breaches_of_format :
    run [.readByte true] (inside (.status true) 5 [(0, 0x3C#8)] true) (fun t => (t.chip.parser, t.chip.array.cells)) =
      some (.desync, []) ∧
    run [.release] (inside (.programming 0#16 [0x80#8]) 1 [(0, 0xFF#8)] true)
      (fun t => (t.chip.parser, t.chip.array.cells)) = some (.closed, []) := by decide

/-- R273: the chip may be busy after an accepted WRSR, until the host waits. -/
theorem test_busy_after_statusWrite :
    run [.writeStatusRegister 0x00#8] (bench 5 [] true) (fun t => t.chip.busy) = some (some .statusWrite) ∧
    run [.writeStatusRegister 0x00#8] (bench 5 [] false) (fun t => t.chip.busy) = some none ∧
    (let s := bench 5 [] false
     match step { s with chip := { s.chip with busy := some .statusWrite }, inbox := [.hostWait] } with
      | .next t => (t.chip.busy, t.inbox)
      | _ => (some .unknown, [.hostWait])) = (none, []) := by decide

/-! ## Wire frames -/

/-- The wire frames are the transactions of R100: T9. -/
theorem test_plain_frames :
    run [.wrenFrame] (bench 5 [] false) (fun t => (sent t, t.chip.wel)) = some ([0x06#8], true) ∧
    run [.wrdiFrame] (bench 5 [] true) (fun t => (sent t, t.chip.wel)) = some ([0x04#8], false) ∧
    run [.chipEraseFrame] (bench 5 [] false) (fun t => (sent t, marks t)) =
      some ([0x62#8], [.cs .asserted, .cs .released, .wait .ms 200#32]) := by decide

theorem test_status_frames :
    run [.rdsrFrame] (bench 5 [] true) (fun t => (sent t, t.res.rb)) = some ([0x05#8, 0xFF#8], 0x02#8) ∧
    run [.wrsrFrame 0x8C#8] (bench 5 [] false) (fun t => (sent t, t.opr.b)) = some ([0x01#8, 0x8C#8], 0#8) ∧
    run [.rdidFrame] (bench 5 [] false) (fun t => (sent t, t.res.rw)) =
      some ([0x15#8, 0xFF#8, 0xFF#8], 0x1F65#16) := by decide

/-- READ and SECTOR_ERASE on the wire: T13, T17. -/
theorem test_addressed_frames :
    let s := bench 5 [(0xFFFF, 0x00#8)] true
    run [.readFrame 0xFFFF#16] { s with opr := { s.opr with l := 2#17 } } (fun t => (sent t, t.res.rn, t.res.dout)) =
      some ([0x03#8, 0x00#8, 0xFF#8, 0xFF#8, 0xFF#8], 1#17, [0x00#8]) ∧
    run [.sectorEraseFrame 0xFFFF#16] s (fun t => (sent t, [0xFFE0, 0xFFFF].map t.chip.array.read)) =
      some ([0x52#8, 0x00#8, 0xFF#8, 0xFF#8], [0xFF#8, 0xFF#8]) := by decide

/-- PROGRAM on the wire, W = 1, into an erased cell (R84). -/
theorem test_programFrame :
    let s := bench 0 [(0x10, 0xFF#8)] true
    run [.programFrame 0x0010#16] { s with opr := { s.opr with a := 0x0010#16, l := 1#17, din := [0x80#8] } }
      (fun t => (sent t, t.chip.array.read 0x10)) = some ([0x02#8, 0x00#8, 0x00#8, 0x10#8, 0x80#8], 0x80#8) := by decide

/-! ## Steps -/

/-- The host hands `init` over and the block takes it; a reserved code is refused (T8). -/
theorem test_step :
    (match step (State.reset.withFetchWord 8 0x00) with
      | .next t => (t.inited, t.inbox)
      | _ => (false, [])) = (true, []) ∧
    (match step { State.reset with inbox := [.host 0x1F#5 {}] } with
      | .next t => t.refusals
      | _ => []) = [.reservedCode 0x1F#5] := by decide

/-! ## Witnesses: for each statement with hypotheses, a state and operands that meet them, clause by clause -/

/-- An erased window of two bytes at 0x0010, and two written bytes beside it. -/
def cells : List Host.Cell := [(0x0E, 0x0E#8), (0x10, 0xFF#8), (0x11, 0xFF#8), (0xFFFF, 0x42#8)]

theorem ready_bench (w : Fin 17) (cs : List Host.Cell) (l : Bool) : (bench w cs l).Ready := ⟨rfl, rfl, rfl, rfl, rfl, rfl, rfl, rfl⟩

theorem inFrame_inside {q : Parser} (h1 : q ≠ .closed) (h2 : q ≠ .desync) (w : Fin 17) (cs : List Host.Cell) (l : Bool) :
    (inside q w cs l).InFrame := ⟨rfl, rfl, rfl, rfl, rfl, h1, h2⟩

theorem inSync_bench (w : Fin 17) (cs : List Host.Cell) (l : Bool) : (bench w cs l).InSync :=
  ⟨rfl, rfl, rfl, by simp [bench, Chip.reset], ⟨fun _ => rfl, fun _ => rfl⟩, fun _ => rfl, rfl, by simp [bench, Chip.reset]⟩

theorem inSync_inside {q : Parser} (h1 : q ≠ .closed) (h2 : q ≠ .desync) (h3 : q.bounded = true)
    (h4 : ∀ a ds, q ≠ .programming a ds) (w : Fin 17) (cs : List Host.Cell) (l : Bool) : (inside q w cs l).InSync :=
  ⟨rfl, rfl, rfl, h2, ⟨fun h => absurd h h1, nofun⟩, nofun, h3, fun a ds h => absurd h (h4 a ds)⟩

theorem inv_bench : (bench 5 [] false).Inv :=
  ⟨rfl, rfl, by decide, by decide, by simp [bench, State.resetWith], rfl, ⟨.nil, by simp [bench, Chip.reset]⟩, by decide, rfl,
    ⟨fun _ => rfl, fun _ => rfl⟩, rfl⟩

/-- Inside a READ transaction at the last byte. -/
theorem inv_inside : (inside (.reading 0xFFFF) 5 [(0xFFFF, 0x42#8)] false).Inv :=
  ⟨rfl, rfl, by decide, by decide, by simp [inside, bench, State.resetWith], rfl, by decide, by decide, rfl, by decide,
    by decide⟩

/-- DecodeOfEncode has no hypothesis; both are instructions it speaks of. -/
theorem witness_DecodeOfEncode :
    (Instr.program 0xFFFF#16 2#17 [0x00#8, 0xFF#8]).wellFormed = true ∧ (Instr.readFrame 0xFFFF#16).wellFormed = true := by
  decide

/-- With ports the operation latches, and with one it does not. -/
theorem witness_EncodeOfDecode :
    (∀ op ports, Request.host 0x11#5 { addr := 0xFFFF#16, len := 1#17, din := [0x80#8] } = .host op ports →
      ports.din.length = ports.len.toNat) ∧
    decode (.host 0x11#5 { addr := 0xFFFF#16, len := 1#17, din := [0x80#8] }) = .ok (.program 0xFFFF#16 1#17 [0x80#8]) ∧
    decode (.wire [0x02#8, 0x00#8, 0xFF#8, 0xFF#8]) = .ok (.programFrame 0xFFFF#16) ∧
    decode (.internal [0x00#8, 0x00#8, 0x01#8]) = .ok (.frameAddress 1#16) ∧
    decode (.host 0x13#5 { byte := 7#8 }) = .ok .resume := by
  refine ⟨?_, by decide⟩
  rintro op ports ⟨⟩
  rfl

theorem witness_OpcodeSetClosed :
    Opcode.ofByte 0x62#8 = some .chipErase ∧ decode (.wire [0x62#8]) = .ok .chipEraseFrame ∧
    decode (.wire [0x03#8, 0x00#8, 0x00#8, 0x00#8]) = .ok (.readFrame 0#16) ∧
    4 ≤ [0x03#8, 0x00#8, 0x00#8, 0x00#8].length := by decide

theorem witness_StepRunsDecoded :
    let s := State.reset.withFetchWord 32 0x0300FFFF
    s.pc = none ∧ s.inbox = [.wire [0x03#8, 0x00#8, 0xFF#8, 0xFF#8]] ∧
      decode (.wire [0x03#8, 0x00#8, 0xFF#8, 0xFF#8]) = .ok (.readFrame 0xFFFF#16) := by decide

theorem witness_StepIdleOrHung :
    (State.reset.pc = none ∧ State.reset.inbox = []) ∧
    (let s := { State.reset with inbox := [.hostWait] }
     s.pc = none ∧ s.inbox = .hostWait :: []) ∧ (State.reset.start .readStatus).pc ≠ none := by decide

theorem witness_ReservedCodesRefused :
    let s (op : BitVec 5) : State := { State.reset with inbox := [.host op {}] }
    ([0x06#5, 0x07#5, 0x14#5, 0x1F#5].all fun op =>
      ((op == 0x06#5) || (op == 0x07#5) || decide (0x14 ≤ op.toNat)) && (s op).pc.isNone && (s op).inbox == [.host op {}]) =
      true := by decide

theorem witness_RefusedBeforeInit :
    State.reset.inited = false ∧ Instr.select ≠ .init ∧ ∀ k, Instr.select ≠ .configureClockPeriod k :=
  ⟨rfl, by decide, by intro k; simp⟩

theorem witness_EveryOperationFinishes : State.reset.pc = none := rfl

theorem witness_ConfigureClockPeriodResult : (0#16 : BitVec 16) = 0#16 ∧ (1#16 : BitVec 16) ≠ 0#16 ∧ 0xFFFF#16 ≠ 0#16 := by
  decide

theorem witness_InitResult :
    (State.reset.pins.sck = false ∧ State.reset.pins.cs = .released) ∧ (inside (.status true) 5 [] false).pins.cs = .asserted :=
  ⟨by decide, rfl⟩

theorem witness_SelectResult : (bench 5 [] false).inited = true ∧ (inside .opcode 5 [] false).inited = true := ⟨rfl, rfl⟩

theorem witness_ReleaseResult : (bench 5 [] false).inited = true ∧ (inside .opcode 5 [] false).inited = true := ⟨rfl, rfl⟩

theorem witness_TransferByteResult : (bench 5 [] false).inited = true := rfl

/-- A status read of a chip that may be busy after a WRSR. -/
def busyInside : State :=
  let s := inside (.status false) 5 [] false
  { s with chip := { s.chip with busy := some .statusWrite } }

/-- Each read phase, at its boundary: the status byte, both ID bytes, the last array byte; and the status byte while busy. -/
theorem witness_TransferFollowsFrame :
    (∀ q ∈ [Parser.status false, .ident 0, .ident 1, .reading 0xFFFF],
      (inside q 5 [] false).InFrame ∧ (inside q 5 [] false).chip.conforming = true ∧
        (inside q 5 [] false).chip.busy = none) ∧
    [Parser.status false, .ident 0, .ident 1, .reading 0xFFFF].map (Parser.next 32 none 0xFF#8) =
      [some (.status true), some (.ident 1), some (.ident 2), some (.reading 0x10000)] ∧
    busyInside.InFrame ∧ busyInside.chip.conforming = true ∧ busyInside.chip.busy = some .statusWrite ∧
      busyInside.chip.parser.next busyInside.cfg.window busyInside.chip.busy 0xFF#8 = some (.status true) := by
  refine ⟨fun q hq => ⟨inFrame_inside ?_ ?_ _ _ _, rfl, rfl⟩, by decide,
    ⟨rfl, rfl, rfl, rfl, rfl, by decide, by decide⟩, rfl, rfl, rfl⟩ <;> rintro rfl <;> simp at hq

/-- A byte after a whole WREN, a second status byte, a data byte past W, and a read past the last array byte. -/
theorem witness_StrayByteDesynchronises :
    ((inside (.status true) 5 [] false).InFrame ∧ (inside (.status true) 5 [] false).chip.parser.next 32 none 0xFF#8 = none) ∧
    ((inside (.programming 0#16 [0x80#8]) 0 [] false).InFrame ∧
      (inside (.programming 0#16 [0x80#8]) 0 [] false).chip.parser.next 1 none 0xFF#8 = none) ∧
    ((inside (.command .wren) 5 [] false).InFrame ∧
      (inside (.command .wren) 5 [] false).chip.parser.next 32 none 0x00#8 = none) ∧
    (inside (.reading 0x10000) 5 [] false).InFrame ∧
      (inside (.reading 0x10000) 5 [] false).chip.parser.next 32 none 0xFF#8 = none :=
  ⟨⟨inFrame_inside (by simp) (by simp) _ _ _, rfl⟩, ⟨inFrame_inside (by simp) (by simp) _ _ _, rfl⟩,
    ⟨inFrame_inside (by simp) (by simp) _ _ _, rfl⟩, inFrame_inside (by simp) (by simp) _ _ _, rfl⟩

theorem witness_ReadByteResult : (inside (.ident 0) 5 [] false).inited = true := rfl

theorem witness_BusStateTable :
    (bench 5 [] false).inited = true ∧ (bench 5 [] false).busState = .idle ∧ (inside .opcode 5 [] false).inited = true ∧
      (inside .opcode 5 [] false).busState = .selected := by decide

/-- Inside a transaction, inside one while Paused, and between two. -/
theorem witness_HoldResumeResult :
    ((inside .opcode 5 [] false).inited = true ∧ (inside .opcode 5 [] false).pins.cs = .asserted ∧
      (inside .opcode 5 [] false).pins.hold = .inactive) ∧
    (let s := inside .opcode 5 [] false
     let t := { s with pins := { s.pins with hold := .active } }
     t.inited = true ∧ t.pins.cs = .asserted ∧ t.pins.hold = .active) ∧
    (bench 5 [] false).inited = true ∧ (bench 5 [] false).pins.cs = .released ∧ (bench 5 [] false).pins.hold = .inactive :=
  ⟨⟨rfl, rfl, rfl⟩, ⟨rfl, rfl, rfl⟩, rfl, rfl, rfl⟩

theorem witness_SendCommandResult : (bench 5 [] false).inited = true ∧ (inside .opcode 5 [] false).inited = true := ⟨rfl, rfl⟩

/-- The select clause and the release from `Idle`; every opcode from rest; each disjunct of the release clause, a whole frame
that changes no byte of the array; a command begun in an open transaction; a byte outside one. -/
theorem witness_TransactionBoundaries :
    ((bench 5 [] false).inited = true ∧ (bench 5 [] false).pins.sck = false ∧ (bench 5 [] false).pins.cs = .released ∧
      (bench 5 [] false).pins.hold = .inactive) ∧
    ((bench 5 [] false).Ready ∧ ∀ o : Opcode, Opcode.ofByte o.byte = some o) ∧
    (∀ q ∈ [Parser.command .wren, .command .wrdi, .status true, .ident 2, .statusWrite (some 0#8), .reading 0x10000,
      .command .chipErase, .eraseReady 0xFFFF#16, .programming 0#16 (List.replicate 32 0x80#8)],
      (inside q 5 [] false).InFrame ∧ (inside q 5 [] false).chip.parser = q ∧ (inside q 5 [] false).chip.wel = false) ∧
    ((inside (.reading 0xFFFF) 5 [(0xFFFF, 0x42#8)] false).Inv ∧
      (inside (.reading 0xFFFF) 5 [(0xFFFF, 0x42#8)] false).pins.cs = .asserted ∧ beginsTransaction .readStatus = true) ∧
    (bench 5 [] false).Inv ∧ (bench 5 [] false).pins.cs = .released := by
  refine ⟨⟨rfl, rfl, rfl, rfl⟩, ⟨ready_bench _ _ _, fun o => by cases o <;> rfl⟩,
    fun q hq => ⟨inFrame_inside ?_ ?_ _ _ _, rfl, rfl⟩, ⟨inv_inside, rfl, rfl⟩, inv_bench, rfl⟩ <;> rintro rfl <;> simp at hq

theorem witness_FrameAddressResult : ∀ cmd : AddressedCommand,
    (inside (.address0 cmd) 5 [] false).inited = true ∧ (inside (.address0 cmd) 5 [] false).InFrame ∧
      (inside (.address0 cmd) 5 [] false).chip.parser = .address0 cmd :=
  fun _ => ⟨rfl, inFrame_inside (by simp) (by simp) _ _ _, rfl⟩

/-- For WriteEnableResult, WriteDisableResult, ReadProductIdResult, ReadFrameResult and ReadResult, with no byte, one byte and a
clamped number of bytes. -/
theorem witness_ReadResult :
    (bench 5 cells true).Ready ∧ (bench 5 cells true).inited = true ∧ clampedLength 0x10#16 0#17 = 0 ∧
      clampedLength 0xFFFF#16 1#17 = 1 ∧ clampedLength 0xFFFF#16 0x1FFFF#17 = 1 :=
  ⟨ready_bench _ _ _, rfl, by decide, by decide, by decide⟩

theorem witness_ReadFrameResult : (bench 5 cells true).Ready ∧ (bench 5 cells true).inited = true := ⟨ready_bench _ _ _, rfl⟩

theorem witness_WriteEnableResult : (bench 5 cells false).Ready ∧ (bench 5 cells false).inited = true := ⟨ready_bench _ _ _, rfl⟩

theorem witness_WriteDisableResult : (bench 5 cells true).Ready ∧ (bench 5 cells true).inited = true := ⟨ready_bench _ _ _, rfl⟩

theorem witness_ReadProductIdResult : (bench 5 [] true).Ready ∧ (bench 5 [] true).inited = true := ⟨ready_bench _ _ _, rfl⟩

theorem witness_ReadStatusResult :
    (bench 5 [] true).Ready ∧ (bench 5 [] true).inited = true ∧ (bench 5 [] true).cfg.busyBit ≠ (bench 5 [] true).cfg.welBit ∧
      7 ≠ (bench 5 [] true).cfg.welBit.val ∧ 7 ≠ (bench 5 [] true).cfg.busyBit.val :=
  ⟨ready_bench _ _ _, rfl, by decide, by decide, by decide⟩

theorem witness_WriteStatusRegisterResult :
    (bench 5 [] true).Ready ∧ (bench 5 [] true).chip.wel = true ∧ (bench 5 [] false).Ready ∧
      (bench 5 [] false).chip.wel = false := ⟨ready_bench _ _ _, rfl, ready_bench _ _ _, rfl⟩

/-- The first and the last byte of the sector of 0x0010, and one outside it. -/
theorem witness_SectorEraseResult :
    (bench 1 cells true).Ready ∧ (bench 1 cells true).chip.wel = true ∧ (bench 1 cells false).Ready ∧
      (bench 1 cells false).chip.wel = false ∧ 0 < (bench 1 cells true).cfg.sectorSize ∧
      0x11 / (bench 1 cells true).cfg.sectorSize = 0x10 / (bench 1 cells true).cfg.sectorSize ∧
      0x12 / (bench 1 cells true).cfg.sectorSize ≠ 0x10 / (bench 1 cells true).cfg.sectorSize :=
  ⟨ready_bench _ _ _, rfl, ready_bench _ _ _, rfl, by decide, by decide, by decide⟩

theorem witness_ChipEraseResult :
    (bench 5 cells true).Ready ∧ (bench 5 cells true).chip.wel = true ∧ (bench 5 cells false).Ready ∧
      (bench 5 cells false).chip.wel = false := ⟨ready_bench _ _ _, rfl, ready_bench _ _ _, rfl⟩

theorem witness_MergedWindow :
    [0x40#8, 0x41#8].length = (bench 1 [] false).cfg.window ∧ 1 < (bench 1 [] false).cfg.window := by decide

theorem witness_ProgramResult : (bench 1 cells false).inited = true := rfl

/-- The latch set, W = S_CHIP, the address aligned, both cells of the window erased; and the latch clear. -/
theorem witness_ProgramFrameResult :
    (bench 1 cells true).cfg.granuleMatches ∧
    (bench 1 cells true).Ready ∧ (bench 1 cells true).chip.wel = true ∧ (bench 1 cells true).cfg.aligned 0x10#16 ∧
      (∀ x < (bench 1 cells true).cfg.window,
        (bench 1 cells true).chip.array.read ((0x10#16 : Addr).toNat + x) = (bench 1 cells true).cfg.erased) ∧
      (bench 1 cells false).Ready ∧ (bench 1 cells false).chip.wel = false :=
  ⟨by decide, ready_bench _ _ _, rfl, by decide, by decide, ready_bench _ _ _, rfl⟩

/-- In the last window of the array, with data that fills it. -/
theorem witness_ProgramMerges :
    (bench 1 cells false).Ready ∧ (bench 1 cells false).cfg.granuleMatches ∧ (bench 1 cells false).cfg.aligned 0xFFFE#16 ∧
      [0x80#8, 0x81#8].length = (2#17 : Count).toNat := ⟨ready_bench _ _ _, by decide, by decide, rfl⟩

theorem witness_ProgramThenRead :
    (bench 1 cells false).Ready ∧ (bench 1 cells false).cfg.granuleMatches ∧ (bench 1 cells false).cfg.aligned 0xFFFE#16 ∧
      [0x80#8, 0x81#8].length = (2#17 : Count).toNat ∧ (2#17 : Count).toNat ≤ (bench 1 cells false).cfg.window :=
  ⟨ready_bench _ _ _, by decide, by decide, rfl, by decide⟩

theorem witness_UnalignedProgramLosesArray :
    (bench 1 cells false).Ready ∧ ¬ (bench 1 cells false).cfg.aligned 0xFFFF#16 ∧ [0x80#8].length = (1#17 : Count).toNat :=
  ⟨ready_bench _ _ _, by decide, rfl⟩

/-- A window of `2 ^ w` bytes on a chip with sectors of `n` bytes. -/
def mismatched (w : Fin 17) (n : Nat) (l : Bool) : State :=
  { bench w cells l with cfg := { params w with sectorSize := n } }

/-- A window of two bytes in a sector of four, with a cell of the sector inside; and a window of four bytes over sectors of
two, with a cell of each kind: in the sector of the address, outside it and erased, outside it and not erased. -/
theorem witness_GranuleMismatchLosesRest :
    ((mismatched 1 4 true).Ready ∧ (mismatched 1 4 true).cfg.aligned 0x10#16 ∧ ¬ (mismatched 1 4 true).cfg.granuleMatches ∧
      (mismatched 1 4 true).chip.wel = true ∧ 0 < (mismatched 1 4 true).cfg.sectorSize ∧
      [0x80#8].length = (1#17 : Count).toNat ∧ 0x11 / 4 = 0x10 / 4) ∧
    (mismatched 2 2 false).Ready ∧ (mismatched 2 2 false).cfg.aligned 0x0C#16 ∧
      ¬ (mismatched 2 2 false).cfg.granuleMatches ∧ 0x0D / 2 = 0x0C / 2 ∧
      0x0E / 2 ≠ 0x0C / 2 ∧ (mismatched 2 2 false).chip.array.read 0x0E ≠ (mismatched 2 2 false).cfg.erased ∧
    (mismatched 2 2 false).cfg.aligned 0x10#16 ∧ 0x11 < 0x10 + (mismatched 2 2 false).cfg.window ∧
      (mismatched 2 1 false).Ready ∧ 0x11 / 1 ≠ 0x10 / 1 ∧
      (mismatched 2 1 false).chip.array.read 0x11 = (mismatched 2 1 false).cfg.erased :=
  ⟨⟨⟨rfl, rfl, rfl, rfl, rfl, rfl, rfl, rfl⟩, by decide⟩, ⟨rfl, rfl, rfl, rfl, rfl, rfl, rfl, rfl⟩, by decide, by decide,
    by decide, by decide, by decide, by decide, by decide, ⟨rfl, rfl, rfl, rfl, rfl, rfl, rfl, rfl⟩, by decide, by decide⟩

/-- Two bytes of data at the last byte of a window: only the first is looked at. -/
theorem witness_ProgramIgnoresExcessData :
    (bench 1 cells false).inited = true ∧
      (∀ j < min (2#17 : Count).toNat ((0x11#16 : Addr).toNat / (bench 1 cells false).cfg.window *
        (bench 1 cells false).cfg.window + (bench 1 cells false).cfg.window - (0x11#16 : Addr).toNat),
        [0x80#8, 0x81#8][j]? = [0x80#8, 0x7F#8][j]?) ∧ [0x80#8, 0x81#8] ≠ [0x80#8, 0x7F#8] := by decide

theorem witness_ProgramTransactions : (bench 1 cells false).inited = true := rfl

theorem witness_MutationWithoutLatchIsNoOp :
    (bench 5 cells false).Ready ∧ (bench 5 cells false).chip.wel = false ∧ mutates (.programFrame 0x10#16) = true :=
  ⟨ready_bench _ _ _, rfl, rfl⟩

theorem witness_LatchIsSingleUse :
    (bench 5 cells false).Ready ∧ mutates (.writeStatusRegister 0#8) = true ∧ mutates .chipErase = true ∧
      ∀ v, Instr.chipErase ≠ .writeStatusRegister v ∧ Instr.chipErase ≠ .wrsrFrame v :=
  ⟨ready_bench _ _ _, rfl, rfl, fun v => by simp⟩

theorem witness_ChipEraseThenRead : (bench 5 cells false).Ready := ready_bench _ _ _

theorem witness_ReadingChangesNothing :
    (bench 5 cells false).Ready ∧ (∀ a len, Instr.read 0xFFFF#16 1#17 = .read a len → len ≠ 0#17) ∧
      (∀ a, Instr.read 0xFFFF#16 1#17 = .readFrame a → (bench 5 cells false).opr.l ≠ 0#17) :=
  ⟨ready_bench _ _ _, by rintro a len ⟨⟩; decide, by rintro a ⟨⟩⟩

theorem witness_PausedReadContinues : (bench 5 cells false).Ready := ready_bench _ _ _

theorem witness_ConfigurationIsConstant :
    (bench 5 [] false).inited = true ∧ ∀ k, Instr.hold ≠ .configureClockPeriod k := ⟨rfl, by intro k; simp⟩

theorem witness_OperandsLatched :
    (bench 5 [] false).inited = true ∧ Instr.configureClockPeriod 1#16 ≠ .configureClockPeriod 0#16 ∧
      Instr.hold ≠ .configureClockPeriod 0#16 := by decide

theorem witness_ResultRegistersWritten :
    Instr.select ≠ .readProductId ∧ Instr.select ≠ .rdidFrame ∧ (∀ a len, Instr.select ≠ .read a len) ∧
      (∀ a, Instr.select ≠ .readFrame a) ∧ movesByte .select = false :=
  ⟨by simp, by simp, by intro a len; simp, by intro a; simp, rfl⟩

theorem witness_PinOwnership :
    Instr.select ≠ .init ∧ Instr.select ≠ .hold ∧ Instr.select ≠ .resume ∧ movesByte .select = false ∧
      (bench 5 [] false).pins.sck = false := by decide

theorem witness_ClockShape : (bench 5 [] false).pins.sck = false := rfl

theorem witness_ClockIdlesLow :
    (inside .opcode 5 [] false).inited = true ∧ (inside .opcode 5 [] false).pins.sck = false ∧
      disciplined (.transferByte 0x06#8) (inside .opcode 5 [] false) = true ∧
      disciplined .readStatus (bench 5 [] false) = true := by decide

theorem witness_RequestedWaits :
    (bench 5 [] false).inited = true ∧ (bench 5 [] false).tim.tBp.toNat * (bench 5 [] false).cfg.window < 2 ^ 32 := by decide

theorem witness_BlockIgnoresChip :
    (∀ a len data, Instr.readStatus ≠ .program a len data) ∧ Instr.readStatus ≠ .readProductId ∧
      Instr.readStatus ≠ .rdidFrame := ⟨by intro a len data; simp, by simp, by simp⟩

theorem witness_StepKeepsInv : (bench 5 [] false).Inv ∧ step (bench 5 [] false) = .next (bench 5 [] false) :=
  ⟨inv_bench, rfl⟩

theorem witness_ResetInv : Config.reference.wf := by decide

/-- From rest, inside a frame, at the last byte of one, and at its release. -/
theorem witness_DisciplineKeepsSync :
    (bench 5 [] false).cfg.granuleMatches ∧
    ((bench 5 [] false).InSync ∧ disciplined .readStatus (bench 5 [] false) = true ∧
      disciplined (.program 0xFFE0#16 1#17 [0x80#8]) (bench 5 [] false) = true) ∧
    ((inside (.reading 0xFFFF) 5 [] false).InSync ∧
      disciplined (.readByte false) (inside (.reading 0xFFFF) 5 [] false) = true) ∧
    ((inside (.status true) 5 [] false).InSync ∧ disciplined .release (inside (.status true) 5 [] false) = true) ∧
    (inside .opcode 5 [] false).InSync ∧ disciplined .hold (inside .opcode 5 [] false) = true ∧
      disciplined (.transferByte 0x06#8) (inside .opcode 5 [] false) = true :=
  ⟨by decide, ⟨inSync_bench _ _ _, by decide, by decide⟩, ⟨inSync_inside (by simp) (by simp) rfl (by simp) _ _ _, by decide⟩,
    ⟨inSync_inside (by simp) (by simp) rfl (by simp) _ _ _, by decide⟩,
    inSync_inside (by simp) (by simp) rfl (by simp) _ _ _, by decide, by decide⟩

theorem witness_OnlyMutationsChangeArray :
    (bench 5 [] false).InSync ∧ disciplined .writeEnable (bench 5 [] false) = true ∧ Instr.writeEnable ≠ .release ∧
      Instr.writeEnable ≠ .chipErase ∧ Instr.writeEnable ≠ .chipEraseFrame ∧
      (∀ a, Instr.writeEnable ≠ .sectorErase a ∧ Instr.writeEnable ≠ .sectorEraseFrame a ∧
        Instr.writeEnable ≠ .programFrame a) ∧ ∀ a len data, Instr.writeEnable ≠ .program a len data :=
  ⟨inSync_bench _ _ _, by decide, by simp, by simp, by simp, by intro a; simp, by intro a len data; simp⟩

theorem witness_InitSynchronises : (inside (.reading 0xFFFF) 5 [(0xFFFF, 0x42#8)] false).Inv := inv_inside

theorem witness_ReleaseSelectRecovers :
    (inside (.reading 0xFFFF) 5 [(0xFFFF, 0x42#8)] false).Inv ∧
      (inside (.reading 0xFFFF) 5 [(0xFFFF, 0x42#8)] false).inited = true ∧
      (inside (.reading 0xFFFF) 5 [(0xFFFF, 0x42#8)] false).pins.hold = .inactive := ⟨inv_inside, rfl, rfl⟩

end Sys2Proof.Tests
end

section
/-! SUPPORT. The state family (10_state.md): the invariant, what every operation leaves of parameters, registers and pins, and the
independence of the block from the chip. -/

namespace Sys2Proof.Machine

open Sys2Proof

variable {i : Instr} {s t : State}

/-! ## What the operations that move no byte leave of the block -/

/-- Parameters, latency registers, half period and `inited` (R29, R32, R33). -/
theorem Still.configuration (h : Still i s t) :
    t.cfg = s.cfg ∧ t.tim.tSe = s.tim.tSe ∧ t.tim.tCe = s.tim.tCe ∧ t.tim.tBp = s.tim.tBp ∧
      ((∀ k, i ≠ .configureClockPeriod k) → t.tim.halfPeriod = s.tim.halfPeriod) ∧ (s.inited = true → t.inited = true) := by
  rcases h with ⟨k, -, rfl, rfl⟩ | ⟨c, -, rfl⟩ | ⟨c, -, rfl⟩ | ⟨c, -, rfl⟩ | ⟨-, rfl⟩ | ⟨-, rfl⟩
  · exact ⟨rfl, rfl, rfl, rfl, fun hk => absurd rfl (hk k), id⟩
  · exact ⟨rfl, rfl, rfl, rfl, fun _ => rfl, fun _ => rfl⟩
  all_goals exact ⟨rfl, rfl, rfl, rfl, fun _ => rfl, id⟩

/-- Operands (R30). -/
theorem Still.operands (h : Still i s t) : t.opr = operandsAfter s.opr i := by
  rcases h with ⟨k, -, rfl, rfl⟩ | ⟨c, rfl, rfl⟩ | ⟨c, rfl, rfl⟩ | ⟨c, rfl, rfl⟩ | ⟨rfl, rfl⟩ | ⟨rfl, rfl⟩ <;> rfl

/-- The result registers and the buffer, and the sequencer position (R31, R35, R36). -/
theorem Still.registers (h : Still i s t) : t.res = s.res ∧ t.buf = s.buf ∧ t.pc = none := by
  rcases h with ⟨k, -, -, rfl⟩ | ⟨c, -, rfl⟩ | ⟨c, -, rfl⟩ | ⟨c, -, rfl⟩ | ⟨-, rfl⟩ | ⟨-, rfl⟩ <;> exact ⟨rfl, rfl, rfl⟩

/-- The half period stays at least one (R33, R132). -/
theorem Still.halfPeriod_pos (h : Still i s t) (hp : 1 ≤ s.tim.halfPeriod.toNat) : 1 ≤ t.tim.halfPeriod.toNat := by
  rcases h with ⟨k, -, -, rfl⟩ | ⟨c, -, rfl⟩ | ⟨c, -, rfl⟩ | ⟨c, -, rfl⟩ | ⟨-, rfl⟩ | ⟨-, rfl⟩
  · exact halfPeriodOf_pos k
  all_goals exact hp

/-! ## The invariant -/

/-- A refusal is recorded and nothing else (R231). -/
theorem refuse_keepsInv (h : s.Inv) (r : OpRefusal) : (s.refuse r).Inv :=
  ⟨h.idle, h.clockLow, h.halfPeriodPos, h.programWaitFits, h.bufferLength, h.doutLength, h.arrayWf, h.arrayFresh,
    h.byteBoundary, h.parserFollowsCs, h.parserBounded⟩

/-- The chip's part of the invariant and the block's make the whole. -/
theorem State.ChipSound.inv {e : Nat} (h : t.ChipSound e) (hpc : t.pc = none) (hp : 1 ≤ t.tim.halfPeriod.toNat)
    (hw : t.tim.tBp.toNat * t.cfg.window < 2 ^ 32) (hb : t.buf.length = t.cfg.window)
    (hd : t.res.dout.length = t.res.rn.toNat) : t.Inv :=
  ⟨hpc, h.clockLow, hp, hw, hb, hd, h.arrayWf, h.arrayFresh, h.byteBoundary, h.parserFollowsCs, h.parserBounded⟩

/-- Every operation keeps the invariant: `exec_sound` is the chip's part, `exec_cases` the block's. -/
theorem exec_keepsInv (h : s.Inv) (he : exec i s = .next t) : t.Inv := by
  have hc : t.ChipSound 0 := exec_sound i t h.chipSound he
  obtain ⟨t', he', hcase⟩ := exec_cases i s
  obtain rfl : t' = t := Host.Outcome.next.inj (he'.symm.trans he)
  rcases hcase with ⟨r, rfl, -⟩ | ⟨-, -, es, m⟩ | m
  · exact refuse_keepsInv h r
  · exact hc.inv m.pc (by rw [m.tim]; exact h.halfPeriodPos) (by rw [m.tim, m.cfg]; exact h.programWaitFits)
      (m.bufferLength h.bufferLength) (m.doutLength h.doutLength)
  · obtain ⟨hcfg, -, -, htBp, -, -⟩ := m.configuration
    obtain ⟨hres, hbuf, hpc⟩ := m.registers
    exact hc.inv hpc (m.halfPeriod_pos h.halfPeriodPos) (by rw [htBp, hcfg]; exact h.programWaitFits)
      (by rw [hbuf, hcfg]; exact h.bufferLength) (by rw [hres]; exact h.doutLength)

/-- Time the host lets pass changes the chip's busy condition alone (R273). -/
theorem hostWaits_keepsInv (h : s.Inv) : s.hostWaits.Inv :=
  (hostWaits_sound h.chipSound).inv h.idle h.halfPeriodPos h.programWaitFits h.bufferLength h.doutLength

/-- Whatever the host asks for. -/
theorem accept_keepsInv {r : Request} (h : s.Inv) (he : accept r s = .next t) : t.Inv := by
  unfold accept at he
  split at he
  · exact exec_keepsInv h he
  · cases he; exact refuse_keepsInv h _
  · cases he; exact hostWaits_keepsInv h
  · cases he

/-- The invariant does not look at the requests to come. -/
theorem inbox_keepsInv (h : s.Inv) (rest : List Request) : ({ s with inbox := rest } : State).Inv :=
  h.chipSound.congr (t := { s with inbox := rest }) rfl rfl rfl |>.inv h.idle h.halfPeriodPos h.programWaitFits h.bufferLength
    h.doutLength

/-- A step of an idle block takes the next request. -/
theorem step_request {r : Request} {rest : List Request} (hpc : s.pc = none) (hi : s.inbox = r :: rest) :
    step s = accept r { s with inbox := rest } := by
  simp [step, State.cmdReady, State.fetch, hpc, hi]

/-- A step of an idle block with nothing to do. -/
theorem step_empty (hpc : s.pc = none) (hi : s.inbox = []) : step s = .next s := by
  simp [step, State.cmdReady, State.fetch, hpc, hi]

/-- Settles O55: `exec_keepsInv` for the operations, and the other requests change too little. -/
theorem stepKeepsInv : Obligations.StepKeepsInv := by
  intro s t h he
  cases hi : s.inbox with
  | nil => rw [step_empty h.idle hi] at he; cases he; exact h
  | cons r rest => rw [step_request h.idle hi] at he; exact accept_keepsInv (inbox_keepsInv h rest) he

/-- Settles O56: the constraints on the parameters are the two arithmetic parts, the reset values the rest. -/
theorem resetInv : Obligations.ResetInv := by
  intro p hp
  obtain ⟨hHalf, hWait, -⟩ := hp
  exact
    { idle := rfl
      clockLow := rfl
      halfPeriodPos := hHalf
      programWaitFits := hWait
      bufferLength := List.length_replicate
      doutLength := rfl
      arrayWf := unspecified_wf 0
      arrayFresh := Nat.zero_lt_one
      byteBoundary := rfl
      parserFollowsCs := iff_of_true rfl rfl
      parserBounded := rfl }

/-- Settles O5: `step_request`, and `accept` of a request that decodes. -/
theorem stepRunsDecoded : Obligations.StepRunsDecoded := by
  intro s r rest i hpc hi hd
  rw [step_request hpc hi, accept, hd]

/-- Settles O8 by `exec_refused`. -/
theorem refusedBeforeInit : Obligations.RefusedBeforeInit :=
  fun i s hi h1 h2 => exec_refused i s hi h1 h2

/-! ## Registers and configuration -/

/-- Settles O47 by the three things an operation can be (`exec_cases`). -/
theorem configurationIsConstant : Obligations.ConfigurationIsConstant := by
  intro i s
  obtain ⟨t, he, ⟨r, rfl, -⟩ | ⟨-, -, es, m⟩ | m⟩ := exec_cases i s
  · exact ⟨_, he, rfl, rfl, rfl, rfl, fun _ => rfl, id⟩
  · exact ⟨t, he, m.cfg, by rw [m.tim], by rw [m.tim], by rw [m.tim], fun _ => by rw [m.tim], m.inited.trans⟩
  · exact ⟨t, he, m.configuration⟩

/-- Settles O48: an initialised block refuses `configureClockPeriod(0)` alone. -/
theorem operandsLatched : Obligations.OperandsLatched := by
  intro i s hin hk
  obtain ⟨t, he, ⟨r, rfl, h⟩ | ⟨-, -, es, m⟩ | m⟩ := exec_cases i s
  · rcases h with h | h
    · rw [hin] at h; cases h
    · exact absurd h hk
  · exact ⟨t, he, m.opr⟩
  · exact ⟨t, he, m.operands⟩

/-- Settles O49 by the three things an operation can be (`exec_cases`). -/
theorem resultRegistersWritten : Obligations.ResultRegistersWritten := by
  intro i s
  obtain ⟨t, he, ⟨r, rfl, -⟩ | ⟨hm, -, es, m⟩ | m⟩ := exec_cases i s
  · exact ⟨_, he, fun _ _ => rfl, fun _ _ => ⟨rfl, rfl⟩, fun _ => rfl⟩
  · exact ⟨t, he, m.rw, m.read, fun h => by rw [hm] at h; cases h⟩
  · obtain ⟨hres, -, -⟩ := m.registers
    exact ⟨t, he, fun _ _ => by rw [hres], fun _ _ => by rw [hres]; exact ⟨rfl, rfl⟩, fun _ => hres⟩

/-! ## Pins -/

@[simp] theorem afterEdges_misoDir (s : State) (es : List ByteEvent) (cs : ChipSelect) (c : Chip) :
    (s.afterEdges es cs c).pins.misoDir = s.pins.misoDir := rfl

/-- An operation that moves no byte writes `hold` only if it is `init`, `hold` or `resume`, the others but `init` neither `mosi`
nor the direction of `miso`; `configureClockPeriod`, `hold` and `resume` write neither chip-select nor the clock. -/
theorem Still.pins (h : Still i s t) :
    (i ≠ .init → i ≠ .hold → i ≠ .resume → t.pins.hold = s.pins.hold) ∧ (i ≠ .init → t.pins.mosi = s.pins.mosi) ∧
      (i ≠ .init → t.pins.misoDir = s.pins.misoDir) ∧ (i = .init ∨ i = .select ∨ i = .release ∨ t.pins.cs = s.pins.cs) ∧
      (i = .init ∨ i = .select ∨ i = .release ∨ t.pins.sck = s.pins.sck) ∧ (s.pins.sck = false → t.pins.sck = false) := by
  rcases h with ⟨k, -, rfl, rfl⟩ | ⟨c, rfl, rfl⟩ | ⟨c, rfl, rfl⟩ | ⟨c, rfl, rfl⟩ | ⟨rfl, rfl⟩ | ⟨rfl, rfl⟩ <;> simp

/-- A refused operation writes no pin, and one whose latching and body leave chip-select alone does so as a whole. -/
theorem operate_keepsCs {j : Instr} {latch body : State → State} (hl : ∀ u, (latch u).pins = u.pins)
    (hb : ∀ u, (body u).pins.cs = u.pins.cs) (he : s.operate j latch body = .next t) : t.pins.cs = s.pins.cs := by
  cases hi : s.inited
  · rw [operate_refused hi] at he; cases he; rfl
  · rw [operate_inited hi] at he; cases he
    calc (body (latch (s.start j))).pins.cs
      _ = (latch (s.start j)).pins.cs := hb _
      _ = s.pins.cs := by rw [hl, start_pins]

theorem doTransfer_cs (out : Byte) (s : State) : (s.doTransfer out).pins.cs = s.pins.cs := by
  obtain ⟨i, c, h⟩ := doTransfer_block out s
  rw [h, afterBytes_cs]

theorem doFrameAddress_cs (a : Addr) (s : State) : (s.doFrameAddress a).pins.cs = s.pins.cs := by
  obtain ⟨i, j, k, c, h⟩ := doFrameAddress_block a s
  rw [h, afterBytes_cs]

/-- The operations that move bytes inside an open transaction and leave it open (R22, R139 b, R140). -/
theorem exec_keepsCs (hi : (∃ b, i = .transferByte b) ∨ i = .readByte true ∨ ∃ a, i = .frameAddress a)
    (he : exec i s = .next t) : t.pins.cs = s.pins.cs := by
  rcases hi with ⟨b, rfl⟩ | rfl | ⟨a, rfl⟩
  · exact operate_keepsCs (latchB_pins · b) (doTransfer_cs b) he
  · exact operate_keepsCs (latchC_pins · true) (fun u => doTransfer_cs u.cfg.dummy u) he
  · exact operate_keepsCs (latch := id) (fun _ => rfl) (doFrameAddress_cs a) he

/-- Settles O50 by the three things an operation can be (`exec_cases`). -/
theorem pinOwnership : Obligations.PinOwnership := by
  intro i s
  obtain ⟨t, he, ⟨r, rfl, -⟩ | ⟨hm, -, es, m⟩ | m⟩ := exec_cases i s
  · exact ⟨_, he, fun _ _ _ => rfl, fun _ _ => rfl, fun _ => rfl, fun _ => rfl, fun _ => rfl, id⟩
  · refine ⟨t, he, fun _ _ _ => m.hold, fun _ h => ?_, fun _ => m.misoDir, ?_, ?_, fun _ => m.clockLow⟩
    · rw [hm] at h; cases h
    · rintro (⟨k, rfl⟩ | h | h | h | rfl | rfl)
      · cases hm
      · exact exec_keepsCs (.inl h) he
      · exact exec_keepsCs (.inr (.inl h)) he
      · exact exec_keepsCs (.inr (.inr h)) he
      · cases hm
      · cases hm
    · rintro (⟨k, rfl⟩ | rfl | rfl) <;> cases hm
  · obtain ⟨hhold, hmosi, hmiso, hcs, hsck, hlow⟩ := m.pins
    refine ⟨t, he, hhold, fun h _ => hmosi h, hmiso, fun h => ?_, fun h => ?_, hlow⟩
    · rcases h with ⟨k, rfl⟩ | ⟨b, rfl⟩ | rfl | ⟨a, rfl⟩ | rfl | rfl <;> simpa using hcs
    · rcases h with ⟨k, rfl⟩ | rfl | rfl <;> simpa using hsck

/-! ## The clock between transactions -/

/-- The clock does not go high in what an operation that moves no byte appends to the trace. -/
theorem Still.clockOnlySelected (h : Still i s t) :
    ∃ events, t.wireTrace = s.wireTrace ++ events ∧ clockOnlySelected s.pins.cs events = true := by
  rcases h with ⟨k, -, -, rfl⟩ | ⟨c, -, rfl⟩ | ⟨c, -, rfl⟩ | ⟨c, -, rfl⟩ | ⟨-, rfl⟩ | ⟨-, rfl⟩
  · exact ⟨[], (List.append_nil _).symm, rfl⟩
  · exact ⟨[.sck false, .mosi true, .cs .released, .hold .inactive], by simp [State.wireTrace], rfl⟩
  · exact ⟨ByteEvent.sel.expand s.tim.halfPeriod, by simp [State.wireTrace, State.logged, expandTrace], rfl⟩
  · exact ⟨ByteEvent.rel.expand s.tim.halfPeriod, by simp [State.wireTrace, State.logged, expandTrace], rfl⟩
  · exact ⟨[.hold .active], by simp [State.wireTrace], rfl⟩
  · exact ⟨[.hold .inactive], by simp [State.wireTrace], rfl⟩

/-- Settles O52: the bytes of a disciplined operation stand inside a transaction (`Moves.selected`), and then so do their clock
edges. -/
theorem clockIdlesLow : Obligations.ClockIdlesLow := by
  intro i s _ _ hd
  obtain ⟨t, he, ⟨r, rfl, -⟩ | ⟨-, -, es, m⟩ | m⟩ := exec_cases i s
  · exact ⟨_, [], he, (List.append_nil _).symm, rfl⟩
  · exact ⟨t, expandTrace s.tim.halfPeriod es, he, wireTrace_logged s es t m.wireLog,
      clockOnlySelected_expandTrace _ es _ (m.selected (.inr hd))⟩
  · obtain ⟨events, ht, hc⟩ := m.clockOnlySelected
    exact ⟨t, events, he, ht, hc⟩

end Sys2Proof.Machine
end

section
/-! SUPPORT. Two runs side by side whose chips differ: the block does the same but for the sampled bits (10_state.md R39; 00_scope.md
R2). -/

namespace Sys2Proof.Machine

open Sys2Proof

/-! ## States that agree but for the chip and the sampled bits -/

/-- The block of `u` is that of `s` but for the sampled bits in the trace and what holds sampled bits: `RB`, `RW`, the bytes of
`DOUT` and the shift register of in bits. The chips are any. -/
structure State.Alike (s u : State) : Prop where
  wireLog : u.wireLog.map maskSample = s.wireLog.map maskSample
  pins : u.pins = s.pins
  opr : u.opr = s.opr
  tim : u.tim = s.tim
  rn : u.res.rn = s.res.rn
  doutLength : u.res.dout.length = s.res.dout.length
  shOut : u.sh.out = s.sh.out
  shCnt : u.sh.cnt = s.sh.cnt
  draws : u.draws = s.draws
  buf : u.buf = s.buf
  pc : u.pc = s.pc
  inited : u.inited = s.inited
  inbox : u.inbox = s.inbox
  refusals : u.refusals = s.refusals
  cfg : u.cfg = s.cfg

/-- The operation `f` on the block does not read the chip but through the sampled bits. -/
def Blind (f : State → State) : Prop := ∀ ⦃s u : State⦄, s.Alike u → (f s).Alike (f u)

theorem blind_id : Blind id := fun _ _ h => h

/-- Another chip in its place. -/
theorem alike_chip (s : State) (c : Chip) : s.Alike { s with chip := c } :=
  ⟨rfl, rfl, rfl, rfl, rfl, rfl, rfl, rfl, rfl, rfl, rfl, rfl, rfl, rfl, rfl⟩

/-! ## Bus activity -/

/-- Byte traces that agree but for the sampled bits extend the logs alike. -/
theorem logged_alike {s u : State} (h : s.Alike u) {es fs : List ByteEvent}
    (he : (expandTrace s.tim.halfPeriod fs).map maskSample = (expandTrace s.tim.halfPeriod es).map maskSample) :
    (u.logged fs).map maskSample = (s.logged es).map maskSample := by
  simp only [State.logged, List.map_append, List.map_reverse, h.wireLog, h.tim, he]

/-- The same byte sent, other bits sampled. -/
theorem mask_exchange (h : BitVec 16) (out x y : Byte) :
    (expandTrace h [.x out y]).map maskSample = (expandTrace h [.x out x]).map maskSample := by
  simp only [expandTrace, ByteEvent.expand, bitEvents, List.map_append, List.map_cons, List.map_nil, maskSample]

theorem blind_doSelect : Blind State.doSelect := fun s u h =>
  { h with wireLog := logged_alike (es := [.sel]) h rfl, pins := by simp only [doSelect_eq, State.afterEdges, h.pins] }

theorem blind_doRelease : Blind State.doRelease := fun s u h =>
  { h with wireLog := logged_alike (es := [.rel]) h rfl, pins := by simp only [doRelease_eq, State.afterEdges, h.pins] }

/-- The same bytes moved: the bits that came back go into the sample events, the shift register of in bits and
`RB`, and nowhere else (R39). -/
theorem afterBytes_alike {s u : State} (h : s.Alike u) {es fs : List ByteEvent}
    (he : (expandTrace s.tim.halfPeriod fs).map maskSample = (expandTrace s.tim.halfPeriod es).map maskSample)
    (cs : ChipSelect) (out x y : Byte) (c d : Chip) : (s.afterBytes es cs out x c).Alike (u.afterBytes fs cs out y d) :=
  { h with
    wireLog := logged_alike h he
    pins := by simp only [State.afterBytes, h.pins]
    shOut := rfl
    shCnt := rfl }

theorem blind_doTransfer (out : Byte) : Blind (State.doTransfer out) := by
  intro s u h
  obtain ⟨x, c, hs⟩ := doTransfer_block out s
  obtain ⟨y, d, hu⟩ := doTransfer_block out u
  rw [hs, hu, h.pins]
  exact afterBytes_alike h (mask_exchange _ out x y) _ _ _ _ _ _

theorem blind_doReadByte (c : Bool) : Blind (State.doReadByte c) := by
  intro s u h
  simp only [State.doReadByte, h.cfg]
  cases c
  · exact blind_doRelease (blind_doTransfer _ h)
  · exact blind_doTransfer _ h

theorem blind_doSendBytes (bs : List Byte) : Blind (State.doSendBytes bs) := by
  induction bs with
  | nil => exact blind_id
  | cons b bs ih => exact fun _ _ h => ih (blind_doTransfer b h)

/-! ## The bodies of the operations -/

theorem blind_doCommand (op : Byte) : Blind (State.doCommand op) := fun _ _ h => blind_doTransfer op (blind_doSelect h)

theorem blind_doFrameAddress (a : Addr) : Blind (State.doFrameAddress a) := blind_doSendBytes _

theorem blind_doHeader (op : Byte) (a : Addr) : Blind fun s => (s.doCommand op).doFrameAddress a :=
  fun _ _ h => blind_doFrameAddress a (blind_doCommand op h)

theorem blind_doPlainCommand (o : Opcode) : Blind (State.doPlainCommand o) := fun _ _ h => blind_doRelease (blind_doCommand _ h)

theorem blind_doReadStatus : Blind State.doReadStatus := fun _ _ h => blind_doReadByte false (blind_doCommand _ h)

theorem blind_doWriteStatus (v : Byte) : Blind (State.doWriteStatus v) := fun _ _ h =>
  blind_doRelease (blind_doTransfer v (blind_doCommand _ h))

/-- Any two product IDs. -/
theorem withProductId_alike {s u : State} (h : s.Alike u) (v w : BitVec 16) :
    (s.withProductId v).Alike (u.withProductId w) := { h with }

theorem blind_doReadProductId : Blind State.doReadProductId := fun _ _ h =>
  withProductId_alike (blind_doReadByte false (blind_doReadByte true (blind_doCommand _ h))) _ _

theorem blind_latencyWait (m : Mutation) (unit : DelayUnit) (n : BitVec 32) : Blind (State.latencyWait m unit n) := fun _ _ h =>
  { h with wireLog := congrArg (Event.wait unit n :: ·) h.wireLog }

theorem blind_doSectorErase (a : Addr) : Blind (State.doSectorErase a) := by
  intro s u h
  have hr := blind_doRelease (blind_doHeader Opcode.sectorErase.byte a h)
  simp only [State.doSectorErase, hr.tim]
  exact blind_latencyWait _ _ _ hr

theorem blind_doChipErase : Blind State.doChipErase := by
  intro s u h
  have hr := blind_doPlainCommand .chipErase h
  simp only [State.doChipErase, hr.tim]
  exact blind_latencyWait _ _ _ hr

theorem doReadBytes_length (n : Nat) (s : State) : (s.doReadBytes n).1.length = n := by
  induction n generalizing s with
  | zero => rfl
  | succ n ih => exact congrArg (· + 1) (ih _)

theorem blind_doReadBytes (n : Nat) : Blind fun s => (s.doReadBytes n).2 := by
  induction n with
  | zero => exact blind_id
  | succ n ih => exact fun _ _ h => ih (blind_doReadByte _ h)

theorem doReadTransaction_length (a : Addr) (n : Nat) (s : State) : (s.doReadTransaction a n).1.length = n := by
  obtain ⟨i, j, k, l, ins, c, hl, h⟩ := doReadTransaction_block a n s
  rw [h, hl]

theorem blind_doReadTransaction (a : Addr) (n : Nat) : Blind fun s => (s.doReadTransaction a n).2 := by
  intro s u h
  have hh := blind_doHeader Opcode.read.byte a h
  simp only [State.doReadTransaction]
  split
  · exact blind_doRelease hh
  · exact blind_doReadBytes n hh

/-- `RN` and the number of bytes of `DOUT` are the length asked for, whatever the bytes are (R31). -/
theorem blind_doRead (a : Addr) (n : Nat) : Blind (State.doRead a n) := fun s u h =>
  { blind_doReadTransaction a n h with
    rn := rfl
    doutLength := (doReadTransaction_length a n u).trans (doReadTransaction_length a n s).symm }

theorem blind_forgetBuffer : Blind State.forgetBuffer := fun _ _ h =>
  { h with
    draws := congrArg (· + 2) h.draws
    buf := by simp only [State.forgetBuffer, h.cfg, h.draws] }

/-- The merged window is of registers and buffer, so PROGRAM sends the same bytes. -/
theorem blind_doProgramTransaction (a : Addr) : Blind (State.doProgramTransaction a) := by
  intro s u h
  have hr := blind_doRelease (blind_doSendBytes (s.mergedWindow a) (blind_doHeader Opcode.program.byte a h))
  have hw := congrArg₂ (fun (m : TimingRegs) (p : Config.Params) => m.tBp * BitVec.ofNat 32 p.window) hr.tim hr.cfg
  simp only [State.doProgramTransaction, mergedWindow_congr a h.cfg h.opr h.buf h.draws]
  refine blind_forgetBuffer ?_
  simp only [State.programWait, hw]
  exact blind_latencyWait _ _ _ hr

theorem blind_pinHold (v : HoldLine) : Blind (State.pinHold v) := fun _ _ h =>
  { h with
    wireLog := congrArg (Event.hold v :: ·) h.wireLog
    pins := by simp only [pinHold_pins, h.pins] }

/-- A breach changes the chip alone, whatever condition finds it. -/
theorem Blind.breachedIf {body : State → State} (hb : Blind body) (breach : State → Bool) :
    Blind fun s => (body s).breachedIf (breach s) := fun _ _ h => { hb h with }

theorem blind_doInit : Blind State.doInit := fun _ _ h =>
  { h with
    wireLog := congrArg ([Event.hold .inactive, .cs .released, .mosi true, .sck false] ++ ·) h.wireLog
    pins := rfl
    inited := rfl }

/-! ## Operands and the sequencer -/

theorem blind_start (i : Instr) : Blind (State.start i) := fun _ _ h => { h with pc := rfl }

theorem blind_finish : Blind State.finish := fun _ _ h => { h with pc := rfl }

theorem refuse_alike {s u : State} (h : s.Alike u) (r : OpRefusal) : (s.refuse r).Alike (u.refuse r) :=
  { h with refusals := congrArg (r :: ·) h.refusals }

theorem blind_latchA (a : Addr) : Blind (State.latchA a) := fun _ _ h =>
  { h with opr := congrArg (fun o : OperandRegs => { o with a := a }) h.opr }

theorem blind_latchB (b : Byte) : Blind (State.latchB b) := fun _ _ h =>
  { h with opr := congrArg (fun o : OperandRegs => { o with b := b }) h.opr }

theorem blind_latchC (c : Bool) : Blind (State.latchC c) := fun _ _ h =>
  { h with opr := congrArg (fun o : OperandRegs => { o with c := c }) h.opr }

theorem blind_latchAL (a : Addr) (len : Count) : Blind (State.latchAL a len) := fun _ _ h =>
  { h with opr := congrArg (fun o : OperandRegs => { o with a := a, l := len }) h.opr }

/-- Both runs answer a next state, and the two agree. -/
def RunAlike (x y : Host.Outcome State Fault Refusal) : Prop := ∃ t v, x = .next t ∧ y = .next v ∧ t.Alike v

variable {s u : State}

theorem operate_alike (h : s.Alike u) {i : Instr} {latch body : State → State} (hl : Blind latch) (hb : Blind body) :
    RunAlike (s.operate i latch body) (u.operate i latch body) := by
  cases hi : s.inited
  · exact ⟨_, _, operate_refused hi _ _ _, operate_refused (h.inited.trans hi) _ _ _, refuse_alike h _⟩
  · exact ⟨_, _, operate_inited hi _ _ _, operate_inited (h.inited.trans hi) _ _ _,
      blind_finish (hb (hl (blind_start i h)))⟩

theorem perform_alike (h : s.Alike u) {i : Instr} {body : State → State} (hb : Blind body) :
    RunAlike (s.perform i body) (u.perform i body) := operate_alike h blind_id hb

theorem execInit_alike (h : s.Alike u) : RunAlike (execInit s) (execInit u) :=
  ⟨_, _, rfl, rfl, blind_finish (blind_doInit.breachedIf (·.pins.cs == .asserted) (blind_start .init h))⟩

theorem execConfigureClockPeriod_alike (h : s.Alike u) (k : BitVec 16) :
    RunAlike (execConfigureClockPeriod k s) (execConfigureClockPeriod k u) := by
  unfold execConfigureClockPeriod
  split
  · exact ⟨_, _, rfl, rfl, refuse_alike h _⟩
  · exact ⟨_, _, rfl, rfl, { h with
      opr := congrArg (fun o : OperandRegs => { o with k := k }) h.opr
      tim := congrArg (fun m : TimingRegs => { m with halfPeriod := halfPeriodOf k }) h.tim
      pc := rfl }⟩

/-- Every operation but `program` does the same on the block in two states that agree. -/
theorem exec_alike (i : Instr) (hi : ∀ a len data, i ≠ .program a len data) (h : s.Alike u) :
    RunAlike (exec i s) (exec i u) := by
  cases i with
  | init => exact execInit_alike h
  | configureClockPeriod k => exact execConfigureClockPeriod_alike h k
  | select => exact perform_alike h blind_doSelect
  | release => exact perform_alike h (blind_doRelease.breachedIf (·.pins.cs == .released))
  | hold => exact perform_alike h ((blind_pinHold .active).breachedIf (!·.inTransaction))
  | resume => exact perform_alike h ((blind_pinHold .inactive).breachedIf (!·.paused))
  | transferByte b => exact operate_alike h (blind_latchB b) (blind_doTransfer b)
  | readByte c => exact operate_alike h (blind_latchC c) (blind_doReadByte c)
  | sendCommand b => exact operate_alike h (blind_latchB b) (blind_doCommand b)
  | writeEnable | wrenFrame => exact perform_alike h (blind_doPlainCommand .wren)
  | writeDisable | wrdiFrame => exact perform_alike h (blind_doPlainCommand .wrdi)
  | readStatus | rdsrFrame => exact perform_alike h blind_doReadStatus
  | readProductId | rdidFrame => exact perform_alike h blind_doReadProductId
  | writeStatusRegister v => exact operate_alike h (blind_latchB v) (blind_doWriteStatus v)
  | wrsrFrame v => exact perform_alike h (blind_doWriteStatus v)
  | frameAddress a => exact perform_alike h (blind_doFrameAddress a)
  | read a len => exact operate_alike h (blind_latchAL a len) (blind_doRead a _)
  | readFrame a =>
    simp only [exec, execReadFrame, h.opr]
    exact perform_alike h (blind_doRead a _)
  | sectorErase a => exact operate_alike h (blind_latchA a) (blind_doSectorErase a)
  | sectorEraseFrame a => exact perform_alike h (blind_doSectorErase a)
  | chipErase | chipEraseFrame => exact perform_alike h blind_doChipErase
  | programFrame a => exact perform_alike h (blind_doProgramTransaction a)
  | program a len data => exact absurd rfl (hi a len data)

/-- Settles O54: `exec_alike` from a state and the same with another chip; `RW` is kept in both runs by
`resultRegistersWritten`. -/
theorem blockIgnoresChip : Obligations.BlockIgnoresChip := by
  intro i s chip hi
  obtain ⟨t, u, ht, hu, h⟩ := exec_alike i hi (alike_chip s chip)
  have hrw : i ≠ .readProductId → i ≠ .rdidFrame → u.res.rw = t.res.rw := by
    intro h1 h2
    obtain ⟨t', ht', hrwt, -⟩ := resultRegistersWritten i s
    obtain ⟨u', hu', hrwu, -⟩ := resultRegistersWritten i { s with chip := chip }
    obtain rfl : t' = t := Host.Outcome.next.inj (ht'.symm.trans ht)
    obtain rfl : u' = u := Host.Outcome.next.inj (hu'.symm.trans hu)
    exact (hrwu h1 h2).trans (hrwt h1 h2).symm
  exact ⟨t, u, ht, hu, h.wireLog, h.pins, h.opr, h.tim, h.rn, h.doutLength, hrw, h.shOut, h.shCnt, h.draws, h.buf, h.pc,
    h.inited, h.inbox, h.refusals, h.cfg⟩

end Sys2Proof.Machine
end

section
/-! SUPPORT. The memory family (20_memory.md section 8): what one operation does to the chip on the far side of the pins,
inside a frame, at the two ends of a transaction and outside one. -/

namespace Sys2Proof.Machine

open Sys2Proof

/-! ## Running an operation without its latched operands -/

section
variable (o : OperandRegs) (q : Option Instr) (s : State)

@[simp] theorem relatch_inited : (s.relatch o q).inited = s.inited := rfl
@[simp] theorem relatch_opr : (s.relatch o q).opr = o := rfl

end

variable {s : State}

/-- An operation whose body looks at neither the operand registers nor the sequencer position (Laws/Latch.lean) is its body and
the registers written. -/
theorem operate_relatch {i : Instr} {latch body : State → State} (o : OperandRegs) (hi : s.inited = true)
    (hl : latch (s.start i) = s.relatch o (some i))
    (hb : body (s.relatch o (some i)) = (body s).relatch o (some i)) :
    s.operate i latch body = .next ((body s).relatch o none) := by
  rw [operate_inited hi, hl, hb]; rfl

theorem exec_transferByte (hi : s.inited = true) (b : Byte) :
    exec (.transferByte b) s = .next ((s.doTransfer b).relatch { s.opr with b := b } none) :=
  operate_relatch _ hi rfl (doTransfer_relatch _ _ s b)

theorem exec_select (hi : s.inited = true) : exec .select s = .next (s.doSelect.relatch s.opr none) :=
  operate_relatch (latch := id) _ hi rfl (doSelect_relatch _ _ s)

theorem exec_sendCommand (hi : s.inited = true) (op : Byte) :
    exec (.sendCommand op) s = .next ((s.doCommand op).relatch { s.opr with b := op } none) :=
  operate_relatch _ hi rfl (doCommand_relatch _ _ s op)

theorem exec_release (hi : s.inited = true) :
    exec .release s = .next ((s.doRelease.breachedIf (s.pins.cs == .released)).relatch s.opr none) :=
  operate_relatch (latch := id) (body := fun s => s.doRelease.breachedIf (s.pins.cs == .released)) _ hi rfl rfl

theorem exec_hold (hi : s.inited = true) :
    exec .hold s = .next (((s.pinHold .active).breachedIf (!s.inTransaction)).relatch s.opr none) :=
  operate_relatch (latch := id) (body := fun s => (s.pinHold .active).breachedIf (!s.inTransaction)) _ hi rfl rfl

theorem exec_resume (hi : s.inited = true) :
    exec .resume s = .next (((s.pinHold .inactive).breachedIf (!s.paused)).relatch s.opr none) :=
  operate_relatch (latch := id) (body := fun s => (s.pinHold .inactive).breachedIf (!s.paused)) _ hi rfl rfl

/-- Two operations, one after the other. -/
theorem execAll_pair {i j : Instr} {t u : State} (ht : exec i s = .next t) (hu : exec j t = .next u) :
    execAll [i, j] s = .next u := by
  simp [execAll, ht, hu]

/-! ## A byte inside a frame -/

/-- Supplying a byte changes the busy condition only in a status phase, where the next position does not depend on it. -/
theorem next_latch (p : Config.Params) (w : Nat) (c : Chip) (b : Byte) :
    (c.latch p).parser.next w (c.latch p).busy b = c.parser.next w c.busy b := by
  rw [latch_parser]
  cases hq : c.parser with
  | opcode =>
    have hb : (c.latch p).busy = c.busy := by simp [Chip.latch, Chip.supplyFree, hq]
    rw [hb]
  | statusWrite v => cases v <;> rfl
  | _ => rfl

/-- A byte the frame admits moves the parser and changes the busy condition at most as supplying a byte does. -/
theorem exchange_busy {p : Config.Params} {c : Chip} {out : Byte} {q : Parser}
    (h : c.parser.next p.window c.busy out = some q) : (c.exchange p out).busy = (c.latch p).busy := by
  simp only [Chip.exchange, Chip.advance, next_latch, h]

/-- A byte that breaks the framing loses the chip (R78). -/
theorem exchange_lost {p : Config.Params} {c : Chip} {out : Byte} (h : c.parser.next p.window c.busy out = none) :
    (c.exchange p out).parser = .desync ∧ (c.exchange p out).ArrayLost c.draws := by
  have he : c.exchange p out = ({ c.latch p with rx := out, bitCount := 0 } : Chip).lose := by
    simp only [Chip.exchange, Chip.advance, next_latch, h]
  rw [he]
  exact ⟨rfl, rfl, latch_draws p c⟩

/-- The chip after one byte inside a frame. -/
theorem State.InFrame.transfer_chip (h : s.InFrame) (b : Byte) : (s.doTransfer b).chip = s.chip.exchange s.cfg b := by
  rw [doTransfer_live b h.clockLow h.selected h.notHeld ((live_iff _).2 h.live) h.byteBoundary, afterBytes_chip]

/-- Settles O15: the byte sampled is the one the chip puts up (`doTransfer_follows`), and `latch_status` and its like say which
that is. -/
theorem transferFollowsFrame : Obligations.TransferFollowsFrame := by
  intro b s q h hn
  obtain ⟨f, -, hrb⟩ := doTransfer_follows h.session h.live hn
  have hbusy : (s.doTransfer b).chip.busy = (s.chip.latch s.cfg).busy := by rw [h.transfer_chip, exchange_busy hn]
  refine ⟨_, exec_transferByte h.inited b, f.parser, f.byteBoundary, f.kept, fun hc => ?_⟩
  simp only [relatch_res, relatch_chip, hrb, hbusy]
  refine ⟨fun x hq hb => latch_status hc hb hq, fun x m hq hb => ?_, (latch_ident hc).1, (latch_ident hc).2,
    fun x hq hx => latch_reading hc hq hx⟩
  obtain ⟨v, htx, hm⟩ | hdone := latch_busyStatus (p := s.cfg) hc hb hq
  · exact .inl ⟨by rw [htx, setBit_getLsbD, if_pos rfl], hm⟩
  · exact .inr hdone

/-- Settles O16 by `exchange_lost`. -/
theorem strayByteDesynchronises : Obligations.StrayByteDesynchronises := by
  intro b s h hn
  obtain ⟨hparser, hlost⟩ := exchange_lost hn
  refine ⟨_, exec_transferByte h.inited b, ?_⟩
  rw [relatch_chip, h.transfer_chip]
  exact ⟨hparser, hlost⟩

/-! ## The two ends of a transaction -/

/-- `select` from `Idle`, not held, as an operation (R78, R134). -/
theorem exec_select_idle (hi : s.inited = true) (hk : s.pins.sck = false) (hc : s.pins.cs = .released)
    (hh : s.pins.hold = .inactive) :
    exec .select s =
      .next ((s.afterEdges [.sel] .asserted { s.chip with parser := .opcode, bitCount := 0 }).relatch s.opr none) := by
  rw [exec_select hi, doSelect_idle hk hc hh]

/-- Whatever stands in the parser, a release leaves no transaction open (R78). -/
@[simp] theorem finish_parser (p : Config.Params) (c : Chip) : (c.finish p).parser = .closed := by
  unfold Chip.finish
  split
  case h_1 h => exact h
  case h_10 => split <;> rfl
  all_goals rfl

/-- Frames whose release changes no byte of the array, the latch being at `wel`: all but a broken one and, with the latch set,
SECTOR_ERASE, CHIP_ERASE and PROGRAM (R67, R79). -/
def Parser.sparesArray (w : Nat) (wel : Bool) (q : Parser) : Prop :=
  q = .command .wren ∨ q = .command .wrdi ∨ q = .status true ∨ q = .ident 2 ∨ (∃ v, q = .statusWrite (some v)) ∨
    (∃ n, q = .reading n) ∨
    ((q = .command .chipErase ∨ (∃ a, q = .eraseReady a) ∨ ∃ a ds, q = .programming a ds ∧ ds.length = w) ∧ wel = false)

theorem finish_keepsArray {p : Config.Params} {c : Chip} (h : c.parser.sparesArray p.window c.wel) :
    (c.finish p).array = c.array := by
  rcases h with hq | hq | hq | hq | ⟨v, hq⟩ | ⟨n, hq⟩ | ⟨hq | ⟨a, hq⟩ | ⟨a, ds, hq, hl⟩, hw⟩ <;>
    simp [Chip.finish, Chip.mutate, *]

/-- The chip at a release inside a frame (R78, R90). -/
theorem State.InFrame.release_chip (h : s.InFrame) :
    (s.doRelease.breachedIf (s.pins.cs == .released)).chip = s.chip.finish s.cfg := by
  simp [doRelease_selected h.clockLow h.selected h.notHeld h.byteBoundary, h.selected]

/-- The chip at a release from `Idle`, a breach (R137 a, R266; log 11). -/
theorem release_idle_chip (hk : s.pins.sck = false) (hc : s.pins.cs = .released) :
    (s.doRelease.breachedIf (s.pins.cs == .released)).chip = s.chip.loseClosed := by
  simp [doRelease_eq, hk, hc, Chip.onCs]

/-! ## A command begun in an open transaction -/

section
variable {e : Nat}

/-- A chip adrift meets the chip's part of the invariant, with nothing known from before `e`. -/
theorem State.Adrift.chipSound (h : s.Adrift e) : s.ChipSound e where
  clockLow := h.clockLow
  arrayWf := ⟨by rw [h.cells]; exact .nil, by simp [h.cells]⟩
  arrayFresh := h.fresh
  since := h.since
  byteBoundary := h.byteBoundary
  parserFollowsCs := by simp [h.desync, h.selected]
  parserBounded := by rw [h.desync]; rfl

theorem State.Adrift.lost (h : s.Adrift e) : s.chip.ArrayLost e := ⟨h.cells, h.since⟩

theorem doRelease_lost (h : s.Adrift e) : s.doRelease.chip.ArrayLost e := by
  obtain ⟨hcells, hsince, -⟩ := doRelease_adrift h
  exact ⟨hcells, hsince⟩

/-- The end of a mutation does not touch the array. -/
theorem settle_lost {c : Chip} (h : c.ArrayLost e) (m : Mutation) : (c.settle m).ArrayLost e := ⟨h.cells, h.since⟩

end

section
variable (hk : s.pins.sck = false) (hc : s.pins.cs = .asserted)
include hk hc

theorem doHeader_adrift (op : Byte) (a : Addr) : ((s.doCommand op).doFrameAddress a).Adrift s.chip.draws :=
  doSendBytes_adrift _ (doCommand_adrift op hk hc)

theorem doPlainCommand_lost (o : Opcode) : (s.doPlainCommand o).chip.ArrayLost s.chip.draws :=
  doRelease_lost (doCommand_adrift _ hk hc)

theorem doReadStatus_lost : s.doReadStatus.chip.ArrayLost s.chip.draws :=
  doRelease_lost (doTransfer_adrift _ (doCommand_adrift _ hk hc))

theorem doReadProductId_lost : s.doReadProductId.chip.ArrayLost s.chip.draws := by
  simp only [State.doReadProductId, withProductId_chip]
  exact doRelease_lost (doTransfer_adrift _ (doTransfer_adrift _ (doCommand_adrift _ hk hc)))

theorem doWriteStatus_lost (v : Byte) : (s.doWriteStatus v).chip.ArrayLost s.chip.draws :=
  doRelease_lost (doTransfer_adrift v (doCommand_adrift _ hk hc))

theorem doReadTransaction_lost (a : Addr) (n : Nat) : (s.doReadTransaction a n).2.chip.ArrayLost s.chip.draws := by
  have hh := doHeader_adrift hk hc Opcode.read.byte a
  cases n with
  | zero => simpa only [State.doReadTransaction, if_true] using doRelease_lost hh
  | succ n =>
    obtain ⟨hcells, hsince, -⟩ := doReadBytes_adrift n hh
    simpa only [State.doReadTransaction, Nat.succ_ne_zero, if_false] using ⟨hcells, hsince⟩

theorem doRead_lost (a : Addr) (n : Nat) : (s.doRead a n).chip.ArrayLost s.chip.draws := doReadTransaction_lost hk hc a n

theorem doSectorErase_lost (a : Addr) : (s.doSectorErase a).chip.ArrayLost s.chip.draws :=
  settle_lost (doRelease_lost (doHeader_adrift hk hc _ a)) _

theorem doChipErase_lost : s.doChipErase.chip.ArrayLost s.chip.draws :=
  settle_lost (doPlainCommand_lost hk hc .chipErase) _

theorem doProgramTransaction_lost (a : Addr) : (s.doProgramTransaction a).chip.ArrayLost s.chip.draws := by
  simp only [State.doProgramTransaction, forgetBuffer_chip, latencyWait_chip]
  exact settle_lost (doRelease_lost (doSendBytes_adrift _ (doHeader_adrift hk hc _ a))) _

/-- A READ transaction leaves the chip's part of the invariant, counted from before the transaction. -/
theorem doReadTransaction_since (a : Addr) (n : Nat) : (s.doReadTransaction a n).2.ChipSound s.chip.draws := by
  have hh := (doHeader_adrift hk hc Opcode.read.byte a).chipSound
  unfold State.doReadTransaction
  split
  · exact doRelease_sound hh
  · exact doReadBytes_sound n hh

/-- `program` loses the array in its first transaction and then goes on with what it finds. -/
theorem doProgram_since (a : Addr) : s.chip.draws ≤ (s.doProgram a).chip.array.epoch :=
  (doProgramTransaction_sound a (doPlainCommand_sound .wren (doSectorErase_sound a (doPlainCommand_sound .wren
    ((doReadTransaction_since hk hc _ _).congr (t := s.doReadWindow a) rfl rfl rfl))))).since

/-- An operation whose body loses the array in every open transaction loses it whatever it latches. -/
theorem operate_lost {i : Instr} {latch body : State → State} (hi : s.inited = true)
    (hp : (latch (s.start i)).pins = s.pins) (hd : (latch (s.start i)).chip = s.chip)
    (hb : ∀ u : State, u.pins.sck = false → u.pins.cs = .asserted → (body u).chip.ArrayLost u.chip.draws) :
    ∃ t, s.operate i latch body = .next t ∧ t.chip.ArrayLost s.chip.draws := by
  refine ⟨_, operate_inited hi i latch body, ?_⟩
  rw [finish_chip, ← hd]
  exact hb _ (by rw [hp, hk]) (by rw [hp, hc])

/-- Every operation that begins with `select` but `select`, `sendCommand` and `program`, begun in an open transaction. -/
theorem exec_begun_lost (hi : s.inited = true) {i : Instr} (hb : beginsTransaction i = true) (hsel : i ≠ .select)
    (hcmd : ∀ op, i ≠ .sendCommand op) (hprog : ∀ a len data, i ≠ .program a len data) :
    ∃ t, exec i s = .next t ∧ t.chip.ArrayLost s.chip.draws := by
  cases i with
  | init | configureClockPeriod _ | release | transferByte _ | readByte _ | hold | resume | frameAddress _ => cases hb
  | select => exact absurd rfl hsel
  | sendCommand op => exact absurd rfl (hcmd op)
  | program a len data => exact absurd rfl (hprog a len data)
  | writeEnable | writeDisable | wrenFrame | wrdiFrame =>
    exact operate_lost (latch := id) hk hc hi rfl rfl fun _ hk hc => doPlainCommand_lost hk hc _
  | readStatus | rdsrFrame => exact operate_lost (latch := id) hk hc hi rfl rfl fun _ hk hc => doReadStatus_lost hk hc
  | readProductId | rdidFrame => exact operate_lost (latch := id) hk hc hi rfl rfl fun _ hk hc => doReadProductId_lost hk hc
  | writeStatusRegister v => exact operate_lost hk hc hi rfl rfl fun _ hk hc => doWriteStatus_lost hk hc v
  | wrsrFrame v => exact operate_lost (latch := id) hk hc hi rfl rfl fun _ hk hc => doWriteStatus_lost hk hc v
  | read a len => exact operate_lost hk hc hi rfl rfl fun _ hk hc => doRead_lost hk hc a _
  | readFrame a => exact operate_lost (latch := id) hk hc hi rfl rfl fun _ hk hc => doRead_lost hk hc a _
  | sectorErase a => exact operate_lost hk hc hi rfl rfl fun _ hk hc => doSectorErase_lost hk hc a
  | sectorEraseFrame a => exact operate_lost (latch := id) hk hc hi rfl rfl fun _ hk hc => doSectorErase_lost hk hc a
  | chipErase | chipEraseFrame => exact operate_lost (latch := id) hk hc hi rfl rfl fun _ hk hc => doChipErase_lost hk hc
  | programFrame a => exact operate_lost (latch := id) hk hc hi rfl rfl fun _ hk hc => doProgramTransaction_lost hk hc a

/-- `select` and `sendCommand` begun in an open transaction leave the chip adrift (R135 b, R161 b). -/
theorem exec_begun_adrift (hi : s.inited = true) {i : Instr} (h : i = .select ∨ ∃ op, i = .sendCommand op) :
    ∃ t, exec i s = .next t ∧ t.chip.parser = .desync ∧ t.chip.ArrayLost s.chip.draws := by
  obtain rfl | ⟨op, rfl⟩ := h
  · have ha := doSelect_adrift hk hc
    exact ⟨_, exec_select hi, ha.desync, ha.lost⟩
  · have ha := doCommand_adrift op hk hc
    exact ⟨_, exec_sendCommand hi op, ha.desync, ha.lost⟩

/-- The clause of TransactionBoundaries about a command begun in an open transaction. -/
theorem exec_begun (hi : s.inited = true) (i : Instr) (hb : beginsTransaction i = true) :
    ∃ t, exec i s = .next t ∧ s.chip.draws ≤ t.chip.array.epoch ∧
      ((∀ a len data, i ≠ .program a len data) → t.chip.ArrayLost s.chip.draws) ∧
      (i = .select ∨ (∃ op, i = .sendCommand op) → t.chip.parser = .desync) := by
  by_cases h : i = .select ∨ ∃ op, i = .sendCommand op
  · obtain ⟨t, he, hq, hl⟩ := exec_begun_adrift hk hc hi h
    exact ⟨t, he, hl.since, fun _ => hl, fun _ => hq⟩
  · by_cases hp : ∃ a len data, i = .program a len data
    · obtain ⟨a, len, data, rfl⟩ := hp
      exact ⟨_, operate_inited hi _ _ _,
        doProgram_since (s := (s.start (.program a len data)).latchALD a len data) hk hc a,
        fun hn => absurd rfl (hn a len data), fun h' => absurd h' h⟩
    · simp only [not_or, not_exists] at h hp
      obtain ⟨t, he, hl⟩ := exec_begun_lost hk hc hi hb h.1 h.2 hp
      exact ⟨t, he, hl.since, fun _ => hl, fun h' => by simp [h] at h'⟩

end

/-! ## A byte outside a transaction, or while paused -/

theorem Lost.arrayLost {q : Parser} {c d : Chip} (h : Lost q c d) : d.ArrayLost c.draws := ⟨h.cells, h.fresh⟩

/-- A chip that has seen edges off the clock sees the release as none, or is lost again (R87, R137 a). -/
theorem doRelease_offClock {c : Chip} (hk : s.pins.sck = false) (ho : offClock s.pins.cs s.pins.hold)
    (h : Lost (lostAt s.pins.cs) c s.chip) : Lost .closed c s.doRelease.chip := by
  rw [doRelease_eq, hk, onSck_same, afterEdges_chip]
  rcases ho with hc | ⟨hc, hh⟩
  · rw [hc] at h
    simpa [Chip.onCs, hc, lostAt] using h
  · simpa [Chip.onCs, hc, hh] using h.trans (lost_loseClosed s.chip)

/-- Bytes moved off the clock, one after another. -/
theorem doSendBytes_offClock (b : Byte) (bs : List Byte) {s : State} (hk : s.pins.sck = false)
    (ho : offClock s.pins.cs s.pins.hold) : Lost (lostAt s.pins.cs) s.chip (s.doSendBytes (b :: bs)).chip := by
  have h := doTransfer_offClock b hk ho
  induction bs generalizing b s with
  | nil => exact h
  | cons b' bs ih =>
    obtain ⟨x, c, he⟩ := doTransfer_block b s
    have hk' : (s.doTransfer b).pins.sck = false := by rw [he]; rfl
    have ho' : offClock (s.doTransfer b).pins.cs (s.doTransfer b).pins.hold := by rw [he]; exact ho
    have h' := ih b' hk' ho' (doTransfer_offClock b' hk' ho')
    rw [doTransfer_cs] at h'
    exact h.trans h'

theorem doReadByte_offClock (c : Bool) (hk : s.pins.sck = false) (ho : offClock s.pins.cs s.pins.hold) :
    (s.doReadByte c).chip.ArrayLost s.chip.draws := by
  have h := doTransfer_offClock s.cfg.dummy hk ho
  cases c with
  | true => exact h.arrayLost
  | false =>
    obtain ⟨x, d, he⟩ := doTransfer_block s.cfg.dummy s
    have hk' : (s.doTransfer s.cfg.dummy).pins.sck = false := by rw [he]; rfl
    have ho' : offClock (s.doTransfer s.cfg.dummy).pins.cs (s.doTransfer s.cfg.dummy).pins.hold := by rw [he]; exact ho
    rw [← doTransfer_cs s.cfg.dummy s] at h
    exact (doRelease_offClock hk' ho' h).arrayLost

/-- The clause of TransactionBoundaries about bytes moved outside a transaction or while paused (R139 f, g). -/
theorem exec_offClock (hi : s.inited = true) (hk : s.pins.sck = false) (ho : offClock s.pins.cs s.pins.hold) {i : Instr}
    (h : (∃ b, i = .transferByte b) ∨ (∃ c, i = .readByte c) ∨ ∃ a, i = .frameAddress a) :
    ∃ t, exec i s = .next t ∧ t.chip.ArrayLost s.chip.draws := by
  rcases h with ⟨b, rfl⟩ | ⟨c, rfl⟩ | ⟨a, rfl⟩
  · exact ⟨_, exec_transferByte hi b, (doTransfer_offClock b hk ho).arrayLost⟩
  · exact ⟨_, operate_relatch _ hi rfl (doReadByte_relatch _ _ s c), doReadByte_offClock c hk ho⟩
  · exact ⟨_, operate_relatch (latch := id) _ hi rfl (doFrameAddress_relatch _ _ s a),
      (doSendBytes_offClock 0x00#8 [hiByte a, loByte a] hk ho).arrayLost⟩

theorem offClock_of_released_or_active (h : s.pins.cs = .released ∨ s.pins.hold = .active) :
    offClock s.pins.cs s.pins.hold := by
  cases hc : s.pins.cs with
  | released => exact .inl rfl
  | asserted =>
    rw [hc] at h
    exact .inr ⟨rfl, h.resolve_left (by simp)⟩

/-- Settles O21, clause by clause: `select` and `sendCommand` from `Idle`, `release`, a command begun in an open transaction
(`exec_begun`), a byte off the clock (`exec_offClock`). -/
theorem transactionBoundaries : Obligations.TransactionBoundaries := by
  intro s hi hk
  refine ⟨fun hc hh => ?_, fun h op o ho => ?_, ?_, fun _ hc => exec_begun hk hc hi,
    fun _ ho i => exec_offClock hi hk (offClock_of_released_or_active ho)⟩
  · exact ⟨_, exec_select_idle hi hk hc hh, rfl, rfl, rfl, fun _ => rfl, rfl, rfl⟩
  · obtain ⟨f, -⟩ := doCommand_follows h.rest ho (opcodeTaken_notBusy h.notBusy o)
    exact ⟨_, exec_sendCommand hi op, f.parser, f.byteBoundary, f.kept⟩
  · refine ⟨_, exec_release hi, fun h => ?_, fun h hq x => ?_, fun hc => ?_⟩ <;> rw [relatch_chip]
    · rw [h.release_chip]; exact ⟨rfl, finish_parser _ _⟩
    · rw [h.release_chip, finish_keepsArray hq]
    · rw [release_idle_chip hk hc]; exact ⟨rfl, rfl, Nat.le_refl _⟩

/-- Settles O60: `release` leaves the block `Idle`, and from there `select` brings any chip to its opcode. -/
theorem releaseSelectRecovers : Obligations.ReleaseSelectRecovers := by
  intro s _ hi hh
  exact ⟨_, execAll_pair (exec_release hi) (exec_select_idle hi rfl rfl hh), rfl, rfl, hi, rfl, rfl, hh, rfl, by simp,
    by simp⟩

/-- Settles O59: `init` keeps the chip's part of the invariant (`exec_sound`) and releases chip-select, so no transaction is
open. -/
theorem initSynchronises : Obligations.InitSynchronises := by
  intro s h
  refine ⟨_, rfl, ?_⟩
  have hsound := exec_sound .init _ h.chipSound rfl
  have hclosed := hsound.parserFollowsCs.2 rfl
  exact
    { inited := rfl
      clockLow := rfl
      byteBoundary := hsound.byteBoundary
      synchronised := by rw [hclosed]; simp
      parserFollowsCs := hsound.parserFollowsCs
      heldOnlySelected := fun _ => rfl
      parserBounded := hsound.parserBounded
      programmingAligned := by rw [hclosed]; simp }

end Sys2Proof.Machine
end

section
/-! SUPPORT. The memory family (20_memory.md section 4): reading changes nothing and, repeated, returns the same; and
outside the end of a mutation a well-sequenced host changes no byte of the array. -/

namespace Sys2Proof.Machine

open Sys2Proof

variable {i : Instr} {s t : State}

/-! ## Reading from rest -/

/-- `t` comes after a whole transaction that left everything the chip stores, from a chip at rest. -/
structure Reads (s t : State) : Prop where
  stored : After s.chip t.chip s.chip.array s.chip.wel s.chip.statusOther
  cfg : t.cfg = s.cfg
  ready : t.Ready

/-- An operation whose body is such a transaction, and neither latches nor looks at anything else. -/
theorem operate_reads {latch body : State → State} (o : OperandRegs) (hs : s.Ready)
    (hl : latch (s.start i) = s.relatch o (some i))
    (hb : body (s.relatch o (some i)) = (body s).relatch o (some i))
    (ha : After s.chip (body s).chip s.chip.array s.chip.wel s.chip.statusOther) (hr : Rest s.cfg (body s))
    (hi : (body s).inited = s.inited) :
    ∃ t, s.operate i latch body = .next t ∧ Reads s t ∧ t.res = (body s).res ∧ t.opr = o := by
  refine ⟨_, operate_relatch o hs.inited hl hb, ⟨ha, hr.cfg, ?_⟩, rfl, rfl⟩
  exact ha.ready (u := (body s).relatch o none) hs ⟨hr.cfg, hr.clockLow, hr.busIdle, hr.notHeld⟩ (hi.trans hs.inited)

@[simp] theorem afterBytes_res (s : State) (es : List ByteEvent) (cs : ChipSelect) (o x : Byte) (c : Chip) :
    (s.afterBytes es cs o x c).res = { s.res with rb := x } := rfl

@[simp] theorem withProductId_res (s : State) (w : BitVec 16) : (s.withProductId w).res = { s.res with rw := w } := rfl

/-- `readStatus` and RDSR leave the status byte in `RB` and write no other result (R81, R168). -/
theorem exec_readStatus (h : s.Ready) (hi : i = .readStatus ∨ i = .rdsrFrame) :
    ∃ t, exec i s = .next t ∧ Reads s t ∧ t.res = { s.res with rb := s.chip.statusByte s.cfg } := by
  obtain ⟨ha, hr, hrb⟩ := doReadStatus_after h.rest
  obtain ⟨x, v, c, hbody⟩ := doReadStatus_block s
  have hin : s.doReadStatus.inited = s.inited := by rw [hbody, afterBytes_inited]
  have hres : s.doReadStatus.res = { s.res with rb := s.chip.statusByte s.cfg } := by
    rw [← hrb h.conforming h.notBusy]
    simp only [hbody, afterBytes_res]
  rw [← hres]
  rcases hi with rfl | rfl
  all_goals
    obtain ⟨t, he, hrd, ht, -⟩ := operate_reads (latch := id) s.opr h rfl (doReadStatus_relatch _ _ s) ha hr hin
    exact ⟨t, he, hrd, ht⟩

/-- `readProductId` and RDID leave the ID in `RW`, its second byte in `RB` (R81, R170). -/
theorem exec_readProductId (h : s.Ready) (hi : i = .readProductId ∨ i = .rdidFrame) :
    ∃ t, exec i s = .next t ∧ Reads s t ∧
      t.res = { s.res with rw := productId s.chip.manufacturer s.chip.device, rb := s.chip.device } := by
  obtain ⟨ha, hr, hread⟩ := doReadProductId_after h.rest h.notBusy
  obtain ⟨hrw, hrb⟩ := hread h.conforming
  obtain ⟨x, b1, b2, c, hbody⟩ := doReadProductId_block s
  have hin : s.doReadProductId.inited = s.inited := by rw [hbody, withProductId_inited, afterBytes_inited]
  have hres : s.doReadProductId.res =
      { s.res with rw := productId s.chip.manufacturer s.chip.device, rb := s.chip.device } := by
    rw [← hrw, ← hrb]
    simp only [hbody, withProductId_res, afterBytes_res]
  rw [← hres]
  rcases hi with rfl | rfl
  all_goals
    obtain ⟨t, he, hrd, ht, -⟩ := operate_reads (latch := id) s.opr h rfl (doReadProductId_relatch _ _ s) ha hr hin
    exact ⟨t, he, hrd, ht⟩

/-- The `n` bytes of the array from `a` upward. -/
def Memory.readFrom (m : Memory) (a n : Nat) : List Byte := (List.range n).map fun k => m.read (a + k)

/-- What an array read of `n` bytes from `a` leaves in the result registers (R31, R190, R191): with no byte read `RB` holds
a bit pattern sampled during the header. -/
structure ReadResults (a : Addr) (n : Nat) (s t : State) : Prop where
  rw : t.res.rw = s.res.rw
  rn : t.res.rn = BitVec.ofNat 17 n
  dout : t.res.dout = s.chip.array.readFrom a.toNat n
  rb : n ≠ 0 → t.res.rb = lastByte (s.chip.array.readFrom a.toNat n)

/-- It speaks of the result registers alone. -/
theorem ReadResults.of_res {a : Addr} {n : Nat} {u : State} (h : ReadResults a n s t) (he : u.res = t.res) :
    ReadResults a n s u where
  rw := by rw [he, h.rw]
  rn := by rw [he, h.rn]
  dout := by rw [he, h.dout]
  rb h0 := by rw [he, h.rb h0]

theorem doRead_results (h : s.Ready) (a : Addr) {n : Nat} (hn : a.toNat + n ≤ arraySize) :
    After s.chip (s.doRead a n).chip s.chip.array s.chip.wel s.chip.statusOther ∧ Rest s.cfg (s.doRead a n) ∧
      (s.doRead a n).inited = s.inited ∧ ReadResults a n s (s.doRead a n) := by
  obtain ⟨ha, hr, hbytes⟩ := doReadTransaction_after h.rest h.notBusy a hn
  obtain ⟨x, y, z, l, ins, c, hl, hbody⟩ := doReadTransaction_block a n s
  have hins : ins = s.chip.array.readFrom a.toNat n := by
    have hb := hbytes h.conforming
    rwa [hbody] at hb
  have hread : s.doRead a n = (s.doReadTransaction a n).2.withReadData n ins := by rw [State.doRead, hbody]
  rw [hread]
  refine ⟨ha, ⟨hr.cfg, hr.clockLow, hr.busIdle, hr.notHeld⟩, by rw [hbody, withReadData_inited, afterBytes_inited],
    by rw [hbody, withReadData_rw, afterBytes_rw], rfl, hins, fun h0 => ?_⟩
  rw [hbody, withReadData_rb, afterBytes_rb, readLast_eq, if_neg (by rw [hl]; exact h0), ← hins]
  rfl

/-- `read` (R190, R191). -/
theorem exec_read (h : s.Ready) (a : Addr) (len : Count) :
    ∃ t, exec (.read a len) s = .next t ∧ Reads s t ∧ ReadResults a (clampedLength a len) s t := by
  obtain ⟨ha, hr, hin, hres⟩ := doRead_results h a (clampedLength_fits a len)
  obtain ⟨t, he, hrd, ht, -⟩ := operate_reads (i := .read a len) (latch := State.latchAL a len)
    { s.opr with a := a, l := len } h rfl (doRead_relatch _ _ s a _) ha hr hin
  exact ⟨t, he, hrd, hres.of_res ht⟩

/-- READ on the wire, its length from `L`, which it leaves (log 16). -/
theorem exec_readFrame (h : s.Ready) (a : Addr) :
    ∃ t, exec (.readFrame a) s = .next t ∧ Reads s t ∧ ReadResults a (clampedLength a s.opr.l) s t ∧ t.opr = s.opr := by
  obtain ⟨ha, hr, hin, hres⟩ := doRead_results h a (clampedLength_fits a s.opr.l)
  obtain ⟨t, he, hrd, ht, ho⟩ := operate_reads (i := .readFrame a) (latch := id) s.opr h rfl
    (doRead_relatch _ _ s a _) ha hr hin
  exact ⟨t, he, hrd, hres.of_res ht, ho⟩

/-- The same read again finds the same array. -/
theorem ReadResults.again {a : Addr} {n : Nat} {u : State} (h : ReadResults a n s t) (hr : Reads s t)
    (g : ReadResults a n t u) :
    u.res.rw = t.res.rw ∧ u.res.rn = t.res.rn ∧ u.res.dout = t.res.dout ∧ (n ≠ 0 → u.res.rb = t.res.rb) :=
  ⟨g.rw, g.rn.trans h.rn.symm, by rw [g.dout, h.dout, hr.stored.array],
    fun h0 => by rw [g.rb h0, h.rb h0, hr.stored.array]⟩

/-- A length other than zero stays one when clamped to the end of the array (R191). -/
theorem clampedLength_ne_zero (a : Addr) {len : Count} (h : len ≠ 0#17) : clampedLength a len ≠ 0 := by
  have ha := a.isLt
  have hl : len.toNat ≠ 0 := fun e => h (BitVec.eq_of_toNat_eq e)
  simp only [clampedLength, arraySize]
  omega

/-- Settles O44: each reading operation is done twice, the second time from the state of the first, where what it reads is
the same. -/
theorem readingChangesNothing : Obligations.ReadingChangesNothing := by
  intro i s h hi
  rcases or_assoc.2 hi with hst | hi
  · obtain ⟨t, ht, hr, hres⟩ := exec_readStatus h hst
    obtain ⟨u, hu, -, hres'⟩ := exec_readStatus hr.ready hst
    refine ⟨t, u, ht, execAll_pair ht hu, hr.stored.kept, hr.ready, by rw [hres'], by rw [hres'], by rw [hres'],
      fun _ _ => ?_⟩
    rw [hres', hres, statusByte_congr hr.stored.wel hr.stored.statusOther, hr.cfg]
  rcases or_assoc.2 hi with hid | hi
  · obtain ⟨t, ht, hr, hres⟩ := exec_readProductId h hid
    obtain ⟨u, hu, -, hres'⟩ := exec_readProductId hr.ready hid
    rw [hr.stored.manufacturer, hr.stored.device] at hres'
    exact ⟨t, u, ht, execAll_pair ht hu, hr.stored.kept, hr.ready, by rw [hres', hres], by rw [hres'], by rw [hres'],
      fun _ _ => by rw [hres', hres]⟩
  rcases hi with ⟨a, len, rfl⟩ | ⟨a, rfl⟩
  · obtain ⟨t, ht, hr, hres⟩ := exec_read h a len
    obtain ⟨u, hu, -, hres'⟩ := exec_read hr.ready a len
    obtain ⟨hrw, hrn, hdout, hrb⟩ := hres.again hr hres'
    exact ⟨t, u, ht, execAll_pair ht hu, hr.stored.kept, hr.ready, hrw, hrn, hdout,
      fun hl _ => hrb (clampedLength_ne_zero a (hl a len rfl))⟩
  · obtain ⟨t, ht, hr, hres, ho⟩ := exec_readFrame h a
    obtain ⟨u, hu, -, hres', -⟩ := exec_readFrame hr.ready a
    rw [ho] at hres'
    obtain ⟨hrw, hrn, hdout, hrb⟩ := hres.again hr hres'
    exact ⟨t, u, ht, execAll_pair ht hu, hr.stored.kept, hr.ready, hrw, hrn, hdout,
      fun _ hl => hrb (clampedLength_ne_zero a (hl a rfl))⟩

/-! ## A well-sequenced host -/

/-- At rest, and the chip not busy. -/
theorem State.InSync.notBusy (h : s.InSync) (hd : (s.atRest && s.chip.busy.isNone) = true) :
    Rest s.cfg s ∧ s.chip.busy = none := by
  obtain ⟨hr, hb⟩ := Bool.and_eq_true_iff.1 hd
  exact ⟨(h.rest hr).1, Option.isNone_iff_eq_none.1 hb⟩

/-- An operation whose body neither latches nor looks at anything else keeps the array if its body does. -/
theorem operate_keepsArray {latch body : State → State} (o : OperandRegs) (hi : s.inited = true)
    (hl : latch (s.start i) = s.relatch o (some i))
    (hb : body (s.relatch o (some i)) = (body s).relatch o (some i)) (ha : (body s).chip.array = s.chip.array) :
    ∃ t, s.operate i latch body = .next t ∧ t.chip.array = s.chip.array :=
  ⟨_, operate_relatch o hi hl hb, ha⟩

/-- A byte the discipline admits (R270). -/
theorem doTransfer_keepsArray (h : s.InSync) {b : Byte} (hd : disciplined (.transferByte b) s = true) :
    (s.doTransfer b).chip.array = s.chip.array := by
  obtain ⟨hin, ht⟩ := Bool.and_eq_true_iff.1 hd
  obtain ⟨hs, hlive⟩ := h.session hin
  obtain ⟨q, hq, -⟩ := takesOut_next ht h.programmingAligned
  exact (doTransfer_follows hs hlive hq).1.array

/-- A read byte the discipline admits: with `continuing` false the frame is whole after it, and its release applies nothing. -/
theorem doReadByte_keepsArray (h : s.InSync) {c : Bool} (hd : disciplined (.readByte c) s = true) :
    (s.doReadByte c).chip.array = s.chip.array := by
  obtain ⟨hin, hg⟩ := Bool.and_eq_true_iff.1 hd
  obtain ⟨hs, hlive⟩ := h.session hin
  obtain ⟨q, hq, hread, hwhole⟩ := givesIn_next (w := s.cfg.window) (busy := s.chip.busy) (b := s.cfg.dummy) hg
  obtain ⟨f, hs', -⟩ := doTransfer_follows hs hlive hq
  cases c with
  | true => exact f.array
  | false =>
    have hclose : q = .status true ∨ q = .ident 2 ∨ ∃ n, q = .reading n := by
      rcases hread with rfl | ⟨n, rfl⟩ | hn
      · exact .inl rfl
      · have hn : n = 2 := by simpa [Parser.complete] using hwhole rfl s.cfg
        exact .inr (.inl (by rw [hn]))
      · exact .inr (.inr hn)
    obtain ⟨hfin, -⟩ := doRelease_finishes hs'
    calc (s.doReadByte false).chip.array
      _ = ((s.doTransfer s.cfg.dummy).chip.finish s.cfg).array := congrArg Chip.array hfin
      _ = s.chip.array := (f.closes hclose).array

/-- The opcode of a command the discipline admits (R107, R273). -/
theorem doCommand_keepsArray (h : s.InSync) {op : Byte} (hd : disciplined (.sendCommand op) s = true) :
    (s.doCommand op).chip.array = s.chip.array := by
  obtain ⟨hrest, hop⟩ := Bool.and_eq_true_iff.1 hd
  obtain ⟨o, ho, ht⟩ := (Option.any_eq_true _ _).1 hop
  exact (doCommand_follows (h.rest hrest).1 ho ht).1.array

/-- The address frame after an addressed opcode (R103). -/
theorem doFrameAddress_keepsArray (h : s.InSync) {a : Addr} (hd : disciplined (.frameAddress a) s = true) :
    (s.doFrameAddress a).chip.array = s.chip.array := by
  obtain ⟨hin, hq⟩ := Bool.and_eq_true_iff.1 hd
  obtain ⟨hs, hlive⟩ := h.session hin
  obtain ⟨cmd, hcmd⟩ : ∃ cmd, s.chip.parser = .address0 cmd := by
    split at hq
    · next hp => exact ⟨_, hp⟩
    · next cmd _ hp => exact ⟨cmd, hp⟩
    · cases hq
  exact (doSendBytes_follows (bs := addressFrame a) hs hlive (by rw [hcmd]; exact run_addressFrame _ _ cmd a)).1.array

/-- `init` while `Idle` is no breach and makes no edge (R131 b). -/
theorem doInit_idle_chip (hk : s.pins.sck = false) (hc : s.pins.cs = .released) :
    (s.doInit.breachedIf (s.pins.cs == .asserted)).chip = s.chip := by
  simp [State.doInit, State.pinSck, State.pinMosi, State.pinCs, hk, hc, Chip.onCs]

/-- The operations that move no byte, but `release`: `init` and `select` from rest, `hold` and `resume` where they belong. -/
theorem still_keepsArray (h : s.InSync) (hd : disciplined i s = true) (hm : movesByte i = false) (hr : i ≠ .release) :
    ∃ t, exec i s = .next t ∧ t.chip.array = s.chip.array := by
  cases i with
  | init => exact ⟨_, rfl, congrArg Chip.array (doInit_idle_chip h.clockLow (h.rest hd).1.busIdle)⟩
  | configureClockPeriod k =>
    have hk : k ≠ 0#16 := by simpa [disciplined] using hd
    exact ⟨_, if_neg hk, rfl⟩
  | select =>
    exact operate_keepsArray (latch := id) s.opr h.inited rfl (doSelect_relatch _ _ s) (doSelect_follows (h.rest hd).1).1.array
  | release => exact absurd rfl hr
  | hold =>
    have hin : s.inTransaction = true := hd
    exact ⟨_, exec_hold h.inited, by simp [hin]⟩
  | resume =>
    have hp : s.paused = true := hd
    exact ⟨_, exec_resume h.inited, by simp [hp]⟩
  | _ => cases hm

/-- Settles O58: the operations that move no byte, the ones inside a frame, and whole transactions from rest, which leave
the array as it is. -/
theorem onlyMutationsChangeArray : Obligations.OnlyMutationsChangeArray := by
  intro i s h hd hrel hce hcef hse hprog
  suffices ha : ∃ t, exec i s = .next t ∧ t.chip.array = s.chip.array by
    obtain ⟨t, he, hc⟩ := ha
    exact ⟨t, he, fun x => by rw [hc]⟩
  cases i with
  | init | configureClockPeriod _ | select | hold | resume => exact still_keepsArray h hd rfl (by simp)
  | release => exact absurd rfl hrel
  | chipErase => exact absurd rfl hce
  | chipEraseFrame => exact absurd rfl hcef
  | sectorErase a | sectorEraseFrame a | programFrame a =>
    obtain ⟨h1, h2, h3⟩ := hse a
    contradiction
  | program a len data => exact absurd rfl (hprog a len data)
  | transferByte b =>
    exact operate_keepsArray _ h.inited rfl (doTransfer_relatch _ _ s b) (doTransfer_keepsArray h hd)
  | readByte c => exact operate_keepsArray _ h.inited rfl (doReadByte_relatch _ _ s c) (doReadByte_keepsArray h hd)
  | sendCommand op => exact operate_keepsArray _ h.inited rfl (doCommand_relatch _ _ s op) (doCommand_keepsArray h hd)
  | frameAddress a =>
    exact operate_keepsArray (latch := id) _ h.inited rfl (doFrameAddress_relatch _ _ s a) (doFrameAddress_keepsArray h hd)
  | readStatus | rdsrFrame =>
    exact operate_keepsArray (latch := id) _ h.inited rfl (doReadStatus_relatch _ _ s)
      (doReadStatus_after (h.rest hd).1).1.array
  | writeEnable | wrenFrame =>
    obtain ⟨hr, hb⟩ := h.notBusy hd
    obtain ⟨hwren, -⟩ := doPlainCommand_after hr hb
    exact operate_keepsArray (latch := id) _ h.inited rfl (doPlainCommand_relatch _ _ s _) hwren.array
  | writeDisable | wrdiFrame =>
    obtain ⟨hr, hb⟩ := h.notBusy hd
    obtain ⟨-, -, hwrdi, -⟩ := doPlainCommand_after hr hb
    exact operate_keepsArray (latch := id) _ h.inited rfl (doPlainCommand_relatch _ _ s _) hwrdi.array
  | readProductId | rdidFrame =>
    obtain ⟨hr, hb⟩ := h.notBusy hd
    exact operate_keepsArray (latch := id) _ h.inited rfl (doReadProductId_relatch _ _ s) (doReadProductId_after hr hb).1.array
  | writeStatusRegister v =>
    obtain ⟨hr, hb⟩ := h.notBusy hd
    exact operate_keepsArray _ h.inited rfl (doWriteStatus_relatch _ _ s v) (doWriteStatus_after hr hb v).1.array
  | wrsrFrame v =>
    obtain ⟨hr, hb⟩ := h.notBusy hd
    exact operate_keepsArray (latch := id) _ h.inited rfl (doWriteStatus_relatch _ _ s v) (doWriteStatus_after hr hb v).1.array
  | read a len =>
    obtain ⟨hr, hb⟩ := h.notBusy (Bool.and_eq_true_iff.1 hd).1
    exact operate_keepsArray _ h.inited rfl (doRead_relatch _ _ s a _)
      (doReadTransaction_after hr hb a (clampedLength_fits a len)).1.array
  | readFrame a =>
    obtain ⟨hr, hb⟩ := h.notBusy hd
    exact operate_keepsArray (latch := id) _ h.inited rfl (doRead_relatch _ _ s a _)
      (doReadTransaction_after hr hb a (clampedLength_fits a s.opr.l)).1.array

end Sys2Proof.Machine
end

section
/-! SUPPORT. The encoding family (30_encoding.md): decoder and encoder against each other, the closed opcode set, the reserved
host codes, and the two wire frames whose bytes come from the registers, READ and PROGRAM. -/

namespace Sys2Proof

open Laws.LegalEncoding (legal)

/-! ## The round trip -/

/-- The frame of an address decodes to it (R103). -/
@[simp] theorem decodeAddressFrame_addressFrame (a : Addr) : decodeAddressFrame (addressFrame a) = .ok a :=
  decodeAddressFrame_iff.2 rfl

/-- Settles O1: an address comes back from its frame, and every other operand stands in the request as it is. -/
theorem decodeOfEncode : Obligations.DecodeOfEncode := by
  intro i
  cases i with
  | readFrame a | programFrame a | sectorEraseFrame a | frameAddress a =>
    exact congrArg (Except.map _) (decodeAddressFrame_addressFrame a)
  | _ => rfl

/-! ## The closed opcode set -/

/-- A wire header that decodes is the encoding of what it decodes to (R100, R104). -/
theorem encode_of_decodeWire {header : List Byte} {i : Instr} (h : decodeWire header = .ok i) : encode i = .wire header := by
  match header with
  | [] => cases h
  | b :: rest =>
    cases ho : Opcode.ofByte b with
    | none => simp [decodeWire, ho] at h
    | some o =>
      obtain rfl := ofByte_iff.1 ho
      cases o with
      | wren | wrdi | rdsr | chipErase | rdid =>
        simp only [decodeWire, ofByte_byte] at h
        split at h
        · next hr => cases h; rw [hr]; rfl
        · cases h
      | wrsr =>
        match rest, h with
        | [v], h => cases h; rfl
      | read | program | sectorErase =>
        simp only [decodeWire, ofByte_byte] at h
        cases ha : decodeAddressFrame rest with
        | error e => rw [ha] at h; cases h
        | ok a =>
          obtain rfl := decodeAddressFrame_iff.1 ha
          rw [ha] at h; cases h; rfl

/-- Every encoding has the shape of the tables (`legal`, Laws/PerInstr.lean). -/
theorem legal_encode (i : Instr) : legal (encode i) = true := by
  cases i <;> rfl

/-- A wire header of the shape of the tables begins with an opcode, and only the header of an addressed command is as long as
four bytes (R100, R102, R103). -/
theorem opcode_of_legal {header : List Byte} (h : legal (.wire header) = true) :
    (∃ o rest, header = Opcode.byte o :: rest) ∧ (4 ≤ header.length → header.length = 4 ∧ header[1]? = some 0x00#8) := by
  match header with
  | [] => cases h
  | b :: rest =>
    simp only [legal] at h
    cases ho : Opcode.ofByte b with
    | none => simp [ho] at h
    | some o =>
      refine ⟨⟨o, rest, by rw [ofByte_iff.1 ho]⟩, fun hlen => ?_⟩
      rw [List.length_cons] at hlen
      cases o with
      | wren | wrdi | rdsr | chipErase | rdid =>
        have hrest : rest = [] := by simpa [ho] using h
        simp [hrest] at hlen
      | wrsr =>
        have hrest : rest.length = 1 := by simpa [ho] using h
        omega
      | read | program | sectorErase => simpa [ho, List.head?_eq_getElem?] using h

/-- Settles O4: a header that decodes is an encoding, and encodings have the shape of the tables. -/
theorem opcodeSetClosed : Obligations.OpcodeSetClosed := by
  refine ⟨fun _ _ => ofByte_iff, fun header i h => opcode_of_legal ?_⟩
  rw [← encode_of_decodeWire h]
  exact legal_encode i

/-! ## Reserved host codes -/

/-- The codes R113 reserves are the ones R112 does not assign. -/
theorem hostCodeAssigned_eq_false_iff : ∀ op : BitVec 5,
    hostCodeAssigned op.toNat = false ↔ op = 0x06#5 ∨ op = 0x07#5 ∨ 0x14 ≤ op.toNat := by
  decide

/-- A code R112 does not assign is no instruction, whatever stands on the ports (R113). -/
theorem decodeHost_reserved {op : BitVec 5} (h : hostCodeAssigned op.toNat = false) (ports : HostPorts) :
    decodeHost op ports = .error (.reservedHostCode op) := by
  unfold decodeHost
  split
  case h_19 => rfl
  all_goals next hop => rw [hop] at h; cases h

end Sys2Proof

namespace Sys2Proof.Machine

open Sys2Proof

/-- Settles O7: the step takes the request, and the decoder rejects the code by name. -/
theorem reservedCodesRefused : Obligations.ReservedCodesRefused := by
  intro s op ports rest hop hpc hi
  have hd : decode (.host op ports) = .error (.reservedHostCode op) :=
    decodeHost_reserved ((hostCodeAssigned_eq_false_iff op).2 hop) ports
  rw [step_request hpc hi, accept, hd]
  rfl

/-! ## READ on the wire -/

/-- The body of `read` in every state, with what it finds on a chip at rest (R82, R190, R191). -/
theorem doRead_result (a : Addr) {n : Nat} (hn : a.toNat + n ≤ arraySize) (s : State) :
    ∃ (i j k l : Byte) (bytes : List Byte) (last : Byte × Byte) (chip : Chip),
    bytes.length = n ∧ last = (if n = 0 then (loByte a, l) else (s.cfg.dummy, bytes.getLastD 0#8)) ∧
    s.doRead a n =
      (s.afterBytes (readFrameTrace s.cfg.dummy a i j k l bytes) .released last.1 last.2 chip).withReadData n bytes ∧
    (s.Ready → bytes = s.chip.array.readFrom a.toNat n ∧ s.chip.StoreKept chip ∧ s.chip.Rested chip) := by
  obtain ⟨i, j, k, l, bytes, chip, hl, hbody⟩ := doReadTransaction_block a n s
  refine ⟨i, j, k, l, bytes, readLast a l s.cfg.dummy bytes, chip, hl, by rw [readLast_eq, hl],
    by rw [State.doRead, hbody], fun hs => ?_⟩
  obtain ⟨hafter, -, hbytes⟩ := doReadTransaction_after hs.rest hs.notBusy a hn
  rw [hbody] at hafter hbytes
  exact ⟨hbytes hs.conforming, hafter.kept, hafter.rested hs.notBusy⟩

/-- Settles O29: the body of `read` with the clamp of the length register, and no operand latched. -/
theorem readFrameResult : Obligations.ReadFrameResult := by
  refine ⟨fun a => decodeOfEncode (.readFrame a), fun a s hi => ?_⟩
  obtain ⟨i, j, k, l, bytes, last, chip, hl, hlast, hbody, hready⟩ := doRead_result a (clampedLength_fits a s.opr.l) s
  refine ⟨clampedLength a s.opr.l, i, j, k, l, bytes, last, chip, rfl, hl, hlast, ?_, hready⟩
  calc exec (.readFrame a) s
    _ = .next ((s.doRead a (clampedLength a s.opr.l)).relatch s.opr none) :=
      operate_relatch (latch := id) s.opr hi rfl (doRead_relatch _ _ s a _)
    _ = _ := by rw [hbody]; rfl

/-! ## PROGRAM on the wire -/

section
variable {p : Config.Params} {m : Memory} {a : Addr} {ms : List Byte} (ha : p.aligned a) (hl : ms.length = p.window)
  (he : ∀ x < p.window, m.read (a.toNat + x) = p.erased) (d : Nat)
include ha hl he

/-- An accepted PROGRAM of W bytes into the erased cells of a window stores them (R84). -/
theorem read_program_window {x : Nat} (h1 : a.toNat ≤ x) (h2 : x < a.toNat + p.window) :
    (m.program p d a.toNat ms).read x = (ms[x - a.toNat]?).getD 0#8 := by
  have hin := aligned_fits p a.isLt ha (Nat.le_of_eq hl)
  have hstart : granuleStart p.window a.toNat = a.toNat := granuleStart_aligned ha
  rw [program_inside _ _ _ _ _ hin, read_restored _ _ _ _ (by omega) (by rw [windowEnd]; omega),
    programmedCells_erased _ _ _ _ _ (by rwa [hl]), read_write, dif_pos (by omega), List.getElem?_eq_getElem,
    Option.getD_some]

/-- With W = S_CHIP it leaves every other cell (R84, R222). -/
theorem read_program_outside (hg : p.granuleMatches) {x : Nat} (hx : x < a.toNat ∨ a.toNat + p.window ≤ x) :
    (m.program p d a.toNat ms).read x = m.read x := by
  have hin := aligned_fits p a.isLt ha (Nat.le_of_eq hl)
  rw [program_inside_matching _ _ _ _ _ hin hg, programmedCells_erased _ _ _ _ _ (by rwa [hl]),
    read_write_outside _ _ _ _ (by rwa [hl])]

end

/-- Settles O34: the PROGRAM transaction, and what it stores on a chip at rest (`doProgramTransaction_after`). -/
theorem programFrameResult : Obligations.ProgramFrameResult := by
  refine ⟨fun a => decodeOfEncode (.programFrame a), fun a s hi => ?_⟩
  obtain ⟨i, j, k, l, sampled, chip, hl, hbody⟩ := doProgramTransaction_block a (s.start (.programFrame a))
  refine ⟨i, j, k, l, sampled, chip, hl, ?_, fun hs => ?_⟩
  · calc exec (.programFrame a) s
      _ = .next ((s.start (.programFrame a)).doProgramTransaction a).finish := perform_inited hi _ _
      _ = _ := by rw [hbody]; rfl
  · obtain ⟨d, -, -, hafter, -⟩ := doProgramTransaction_after (hs.rest.start (.programFrame a)) hs.notBusy a
    rw [hbody] at hafter
    have harray : chip.array =
        if s.chip.wel then s.chip.array.program s.cfg d a.toNat (s.mergedWindow a) else s.chip.array := hafter.array
    have hlen := mergedWindow_length s a
    refine ⟨hafter.wel, hafter.statusOther, hafter.rested hs.notBusy, fun hw x => ?_, fun hw ha he x => ?_⟩
    · rw [harray, hw]; rfl
    · rw [harray, hw]
      exact ⟨read_program_window ha hlen he d, fun hg hx => read_program_outside ha hlen he d hg hx⟩

end Sys2Proof.Machine
end

section
/-! SUPPORT. The bus family (40_bus_primitives.md): what each bus operation writes on the pins and in the registers, the table of
the bus state machine, and the shape every operation gives the clock. -/

namespace Sys2Proof.Machine

open Sys2Proof

variable {i : Instr} {s t : State}

/-! ## The half period -/

/-- The half period of R132 fits its 16 bits. -/
theorem halfPeriodOf_toNat (k : BitVec 16) : (halfPeriodOf k).toNat = max 1 (500 / k.toNat) := by
  have : 500 / k.toNat ≤ 500 := Nat.div_le_self _ _
  simp only [halfPeriodOf, BitVec.toNat_ofNat]
  omega

theorem halfPeriodOf_le (k : BitVec 16) : (halfPeriodOf k).toNat ≤ 500 := by
  rw [halfPeriodOf_toNat]
  exact Nat.max_le.2 ⟨by decide, Nat.div_le_self _ _⟩

/-- A frequency of zero is refused (R133, X7). -/
theorem exec_configureClockPeriod_zero (s : State) :
    exec (.configureClockPeriod 0#16) s = .next (s.refuse .zeroFrequency) := rfl

theorem exec_configureClockPeriod {k : BitVec 16} (hk : k ≠ 0#16) (s : State) :
    exec (.configureClockPeriod k) s =
      .next { s with pc := none, opr := { s.opr with k := k }, tim := { s.tim with halfPeriod := halfPeriodOf k } } :=
  if_neg hk

/-- Settles O10: the half period is `halfPeriodOf k`, which is between 1 and 500. -/
theorem configureClockPeriodResult : Obligations.ConfigureClockPeriodResult := by
  refine ⟨fun _ => rfl, fun k s => ⟨?_, fun hk => ?_⟩⟩
  · rintro rfl
    exact exec_configureClockPeriod_zero s
  · exact ⟨halfPeriodOf k, halfPeriodOf_toNat k, halfPeriodOf_pos k, halfPeriodOf_le k, exec_configureClockPeriod hk s⟩

/-! ## The chip's free values at the end of a transaction -/

section
variable (p : Config.Params) (c : Chip)

/-- Whatever a whole byte does, no free value is drawn again. -/
theorem advance_draws (b : Byte) : c.draws ≤ (c.advance p b).draws := by
  unfold Chip.advance
  split
  · exact Nat.le_refl _
  · exact Nat.le_add_right _ 3

/-- The clock written low: a falling edge or none, which the chip takes, ignores or is lost by. -/
theorem onSck_low_draws (cs : ChipSelect) (hold : HoldLine) (old m : Bool) :
    c.draws ≤ (c.onSck p cs hold old false m).draws := by
  cases old with
  | false => rw [onSck_same]
  | true =>
    cases cs with
    | released => exact Nat.le_add_right _ 3
    | asserted =>
      cases hold with
      | active => exact Nat.le_add_right _ 3
      | inactive =>
        change c.draws ≤ (c.fall p).draws
        unfold Chip.fall
        split
        · exact advance_draws p c c.rx
        · exact Nat.le_refl _

/-- A release between two bytes: PROGRAM draws, and a broken frame loses the chip. -/
theorem finish_draws : c.draws ≤ (c.finish p).draws := by
  unfold Chip.finish
  split
  case h_10 =>
    split
    · exact Nat.le_add_right_of_le (Nat.le_add_right _ _)
    · exact Nat.le_add_right _ 3
  all_goals simp [Chip.mutate]

/-- Any release of an open transaction. -/
theorem onCs_release_draws (hold : HoldLine) : c.draws ≤ (c.onCs p hold .asserted .released).draws := by
  simp only [Chip.onCs]
  split
  · exact finish_draws p c
  · exact Nat.le_add_right _ 3

end

/-! ## The operations that move no byte -/

/-- `init` inside a transaction, in whatever byte and at whatever level of the clock: after the clock edge, if there is one, and
the release, the breach loses the chip (R131 c, d; log 11). -/
theorem init_selected_chip (hc : s.pins.cs = .asserted) : ∃ c : Chip, s.chip.draws ≤ c.draws ∧
    (s.doInit.breachedIf (s.pins.cs == .asserted)).chip = c.loseClosed := by
  refine ⟨(s.chip.onSck s.cfg .asserted s.pins.hold s.pins.sck false s.pins.mosi).onCs s.cfg s.pins.hold .asserted .released,
    (onSck_low_draws _ _ _ _ _ _).trans (onCs_release_draws _ _ _), ?_⟩
  rw [breachedIf_chip, if_pos (beq_iff_eq.2 hc), ← hc]
  rfl

/-- Settles O11: the four pin writes in order, and the chip as `doInit_idle_chip` and `init_selected_chip` say. -/
theorem initResult : Obligations.InitResult := by
  refine ⟨fun _ => rfl, fun s => ⟨(s.doInit.breachedIf (s.pins.cs == .asserted)).chip, rfl, doInit_idle_chip, fun hc => ?_⟩⟩
  obtain ⟨c, hdraws, hchip⟩ := init_selected_chip hc
  rw [hchip]
  exact ⟨rfl, rfl, rfl, hdraws⟩

/-- Settles O12: the pin writes of `doSelect` are its whole effect on the block. -/
theorem selectResult : Obligations.SelectResult :=
  ⟨fun _ => rfl, fun s hi => ⟨s.doSelect.chip, exec_select hi⟩⟩

/-- Settles O13: the pin writes of `doRelease` are its whole effect on the block, in breach of the discipline or not. -/
theorem releaseResult : Obligations.ReleaseResult :=
  ⟨fun _ => rfl, fun s hi => ⟨(s.doRelease.breachedIf (s.pins.cs == .released)).chip, exec_release hi⟩⟩

/-! ## The operations that move one byte -/

/-- The events of one byte, bit by bit (R138). -/
theorem expand_x (h : BitVec 16) (out inp : Byte) :
    (ByteEvent.x out inp).expand h = ([7, 6, 5, 4, 3, 2, 1, 0].map (bitEvents h out inp)).flatten ++ [.sck false] := rfl

/-- One byte, logged. -/
theorem logged_x (s : State) (out inp : Byte) :
    s.logged [.x out inp] = ((ByteEvent.x out inp).expand s.tim.halfPeriod).reverse ++ s.wireLog := by
  rw [State.logged, expandTrace, expandTrace, List.append_nil]

/-- Settles O14: the state `doTransfer_block` gives, its trace written out by `expand_x`. -/
theorem transferByteResult : Obligations.TransferByteResult := by
  refine ⟨fun _ => rfl, fun b s hi => ?_⟩
  obtain ⟨inp, chip, h⟩ := doTransfer_block b s
  refine ⟨inp, chip, (ByteEvent.x b inp).expand s.tim.halfPeriod, expand_x _ b inp, rfl, ?_⟩
  rw [exec_transferByte hi, h, ← logged_x]
  rfl

theorem exec_readByte (hi : s.inited = true) (c : Bool) :
    exec (.readByte c) s = .next ((s.doReadByte c).relatch { s.opr with c := c } none) :=
  operate_relatch _ hi rfl (doReadByte_relatch _ _ s c)

/-- Both forms of `readByte` move the same byte, and the second then releases (R140, R141 d). -/
theorem doReadByte_both (s : State) : ∃ inp chip chip',
    s.doReadByte true = s.afterBytes [.x s.cfg.dummy inp] s.pins.cs s.cfg.dummy inp chip ∧
      s.doReadByte false = s.afterBytes [.x s.cfg.dummy inp, .rel] .released s.cfg.dummy inp chip' := by
  obtain ⟨inp, chip, hx⟩ := doTransfer_block s.cfg.dummy s
  obtain ⟨chip', hr⟩ := doRelease_block (s.doTransfer s.cfg.dummy)
  refine ⟨inp, chip, chip', hx, ?_⟩
  calc s.doReadByte false
    _ = (s.doTransfer s.cfg.dummy).afterEdges [.rel] .released chip' := hr
    _ = _ := by rw [hx, afterBytes_afterEdges]; rfl

/-- Settles O17 by `doReadByte_both`. -/
theorem readByteResult : Obligations.ReadByteResult := by
  refine ⟨fun _ => rfl, fun s hi => ?_⟩
  obtain ⟨inp, chip, chip', htrue, hfalse⟩ := doReadByte_both s
  exact ⟨inp, chip, chip', by rw [exec_readByte hi, htrue]; rfl, by rw [exec_readByte hi, hfalse]; rfl⟩

/-! ## The bus state machine -/

/-- The bus state is a function of chip-select alone (R28). -/
theorem busState_congr (h : t.pins.cs = s.pins.cs) : t.busState = s.busState := by
  rw [State.busState, State.busState, h]

/-- Settles O18, operation by operation: what each leaves of chip-select. -/
theorem busStateTable : Obligations.BusStateTable := by
  rintro i s hi (rfl | ⟨k, rfl⟩ | rfl | ⟨b, rfl⟩ | ⟨c, rfl⟩ | rfl | rfl | rfl)
  · exact ⟨_, rfl, rfl⟩
  · by_cases hk : k = 0#16
    · subst hk
      exact ⟨_, exec_configureClockPeriod_zero s, rfl⟩
    · exact ⟨_, exec_configureClockPeriod hk s, rfl⟩
  · exact ⟨_, exec_select hi, rfl⟩
  · exact ⟨_, exec_transferByte hi b, busState_congr (doTransfer_cs b s)⟩
  · cases c with
    | true => exact ⟨_, exec_readByte hi true, busState_congr (doTransfer_cs s.cfg.dummy s)⟩
    | false => exact ⟨_, exec_readByte hi false, rfl⟩
  · exact ⟨_, exec_release hi, rfl⟩
  · exact ⟨_, exec_hold hi, rfl⟩
  · exact ⟨_, exec_resume hi, rfl⟩

/-! ## The shape of the clock -/

/-- What an operation that moves no byte can append to the wire trace: nothing, or the pin writes of `init`, `select`,
`release`, `hold` or `resume` (R130, R134, R136, R180, R182). -/
def stillTraces : List (List Event) :=
  [[], [.sck false, .mosi true, .cs .released, .hold .inactive], [.sck false, .cs .asserted], [.sck false, .cs .released],
    [.hold .active], [.hold .inactive]]

theorem Still.trace (h : Still i s t) : ∃ events ∈ stillTraces, t.wireTrace = s.wireTrace ++ events := by
  rcases h with ⟨k, -, -, rfl⟩ | ⟨c, -, rfl⟩ | ⟨c, -, rfl⟩ | ⟨c, -, rfl⟩ | ⟨-, rfl⟩ | ⟨-, rfl⟩
  · exact ⟨[], by decide, (List.append_nil _).symm⟩
  · exact ⟨[.sck false, .mosi true, .cs .released, .hold .inactive], by decide, by simp [State.wireTrace]⟩
  · exact ⟨[.sck false, .cs .asserted], by decide, wireTrace_logged s [.sel] _ rfl⟩
  · exact ⟨[.sck false, .cs .released], by decide, wireTrace_logged s [.rel] _ rfl⟩
  · exact ⟨[.hold .active], by decide, by simp [State.wireTrace]⟩
  · exact ⟨[.hold .inactive], by decide, by simp [State.wireTrace]⟩

/-- Each of them begins by writing the clock low, or moves neither `mosi` nor chip-select. -/
theorem clockAfter_stillTraces : ∀ events ∈ stillTraces, clockAfter false events = some false := by decide

/-- Settles O51: an operation that moves bytes appends a byte trace (`clockAfter_expandTrace`), any other one of
`stillTraces`. -/
theorem clockShape : Obligations.ClockShape := by
  intro i s _
  obtain ⟨t, he, ⟨r, rfl, -⟩ | ⟨-, -, es, m⟩ | m⟩ := exec_cases i s
  · exact ⟨_, [], he, (List.append_nil _).symm, rfl⟩
  · exact ⟨t, expandTrace s.tim.halfPeriod es, he, wireTrace_logged s es t m.wireLog, clockAfter_expandTrace _ es⟩
  · obtain ⟨events, hmem, ht⟩ := m.trace
    exact ⟨t, events, he, ht, clockAfter_stillTraces events hmem⟩

end Sys2Proof.Machine
end

section
/-! SUPPORT. The command family (41_flash_commands.md): what the commands without array access send and leave in the registers,
what a chip at rest makes of them, and the pause inside a transaction. -/

namespace Sys2Proof.Machine

open Sys2Proof

variable {i : Instr} {s t : State}

/-! ## Running a command -/

/-- `operate_relatch` for an operation that latches nothing. -/
theorem perform_relatch {body : State → State} (hi : s.inited = true)
    (hb : body (s.relatch s.opr (some i)) = (body s).relatch s.opr (some i)) :
    s.perform i body = .next ((body s).relatch s.opr none) :=
  operate_relatch (latch := id) s.opr hi rfl hb

theorem After.arrayKept {c d : Chip} {w : Bool} {v : Byte} (h : After c d c.array w v) : c.ArrayKept d :=
  fun x => by rw [h.array]

/-! ## The opcode and the address frame -/

/-- Settles O20: the opcode byte after `select`, as `doCommand_block` says. -/
theorem sendCommandResult : Obligations.SendCommandResult := by
  refine ⟨fun _ => rfl, fun op s hi => ?_⟩
  obtain ⟨inp, chip, hbody⟩ := doCommand_block op s
  exact ⟨inp, chip, by rw [exec_sendCommand hi, hbody]; rfl⟩

theorem exec_frameAddress (hi : s.inited = true) (a : Addr) :
    exec (.frameAddress a) s = .next ((s.doFrameAddress a).relatch s.opr none) :=
  perform_relatch hi (doFrameAddress_relatch _ _ s a)

/-- The address frame after the opcode of an addressed command: the chip takes the whole address and stores nothing (R103). -/
theorem doFrameAddress_follows (hs : Session s.cfg s) {cmd : AddressedCommand} (hq : s.chip.parser = .address0 cmd) (a : Addr) :
    Follows s.chip (s.doFrameAddress a).chip (Parser.afterAddress cmd a) := by
  have hlive : s.chip.parser.live := by simp [hq, Parser.live]
  exact (doSendBytes_follows hs hlive (by rw [hq]; exact run_addressFrame _ _ cmd a)).1

/-- Settles O22: the three bytes of `doFrameAddress_block`, and the chip by `doFrameAddress_follows`. -/
theorem frameAddressResult : Obligations.FrameAddressResult := by
  intro a s hi
  obtain ⟨i, j, k, chip, hbody⟩ := doFrameAddress_block a s
  refine ⟨i, j, k, chip, by rw [exec_frameAddress hi, hbody]; rfl, fun h cmd hcmd => ?_⟩
  have hfollows := doFrameAddress_follows h.session hcmd a
  rw [hbody, afterBytes_chip] at hfollows
  exact ⟨hfollows.parser, hfollows.byteBoundary, hfollows.kept⟩

/-! ## WREN and WRDI -/

/-- A command with no payload whose opcode byte is `op` and which the chip ends with its latch at `w` (R79). -/
theorem plainCommand_result {o : Opcode} {op : Byte} {w : Bool} (hop : o.byte = op)
    (hexec : exec i s = .next ((s.doPlainCommand o).relatch s.opr none))
    (hafter : s.Ready → After s.chip (s.doPlainCommand o).chip s.chip.array w s.chip.statusOther) :
    ∃ inp chip, exec i s = .next (s.afterBytes [.sel, .x op inp, .rel] .released op inp chip).finish ∧
      (s.Ready → chip.wel = w ∧ s.chip.ArrayKept chip ∧ chip.statusOther = s.chip.statusOther ∧ s.chip.Rested chip) := by
  obtain ⟨inp, chip, hbody⟩ := doPlainCommand_block o s
  rw [hbody, afterBytes_chip] at hafter
  refine ⟨inp, chip, by rw [hexec, hbody, hop]; rfl, fun hs => ?_⟩
  exact ⟨(hafter hs).wel, (hafter hs).arrayKept, (hafter hs).statusOther, (hafter hs).rested hs.notBusy⟩

/-- Settles O23 by `plainCommand_result`. -/
theorem writeEnableResult : Obligations.WriteEnableResult := by
  refine ⟨fun _ => rfl, decodeOfEncode .wrenFrame, fun i s h hi => plainCommand_result (o := .wren) rfl ?_ fun hs => ?_⟩
  · rcases h with rfl | rfl <;> exact perform_relatch hi (doPlainCommand_relatch _ _ s .wren)
  · exact (doPlainCommand_after hs.rest hs.notBusy).1

/-- Settles O24 by `plainCommand_result`. -/
theorem writeDisableResult : Obligations.WriteDisableResult := by
  refine ⟨fun _ => rfl, decodeOfEncode .wrdiFrame, fun i s h hi => plainCommand_result (o := .wrdi) rfl ?_ fun hs => ?_⟩
  · rcases h with rfl | rfl <;> exact perform_relatch hi (doPlainCommand_relatch _ _ s .wrdi)
  · obtain ⟨-, -, hwrdi, -⟩ := doPlainCommand_after hs.rest hs.notBusy
    exact hwrdi

/-! ## The status register -/

/-- The bits of the status byte of a chip that is not busy (R80, R90). -/
theorem statusByte_getLsbD (p : Config.Params) (c : Chip) (j : Fin 8) :
    (c.statusByte p).getLsbD j =
      if j = p.busyBit then false else if j = p.welBit then c.wel else c.statusOther.getLsbD j := by
  rw [Chip.statusByte, setBit_getLsbD, setBit_getLsbD]

/-- Settles O25: the second byte of `doReadStatus_block` is the chip's status byte (`doReadStatus_after`). -/
theorem readStatusResult : Obligations.ReadStatusResult := by
  refine ⟨fun _ => rfl, decodeOfEncode .rdsrFrame, fun i s h hi => ?_⟩
  have hexec : exec i s = .next (s.doReadStatus.relatch s.opr none) := by
    rcases h with rfl | rfl <;> exact perform_relatch hi (doReadStatus_relatch _ _ s)
  obtain ⟨inp, status, chip, hbody⟩ := doReadStatus_block s
  refine ⟨inp, status, chip, by rw [hexec, hbody]; rfl, fun hs => ?_⟩
  obtain ⟨hafter, -, hread⟩ := doReadStatus_after hs.rest
  rw [hbody, afterBytes_chip] at hafter
  rw [hbody, afterBytes_rb] at hread
  rw [hread hs.conforming hs.notBusy]
  refine ⟨hafter.kept, hafter.rested hs.notBusy, fun hne => ?_, ?_, fun k hk hwel hbusy => ?_⟩
  · rw [statusByte_getLsbD, if_neg hne.symm, if_pos rfl]
  · rw [statusByte_getLsbD, if_pos rfl]
  · have hbit := statusByte_getLsbD s.cfg s.chip ⟨k, hk⟩
    rwa [if_neg (Fin.ne_of_val_ne hbusy), if_neg (Fin.ne_of_val_ne hwel)] at hbit

/-- Settles O27: one body for both forms, and what an accepted or refused status write leaves (`doWriteStatus_after`). -/
theorem writeStatusRegisterResult : Obligations.WriteStatusRegisterResult := by
  refine ⟨fun _ => rfl, fun v => decodeOfEncode (.wrsrFrame v), fun v s hi => ?_⟩
  have hhost : exec (.writeStatusRegister v) s = .next ((s.doWriteStatus v).relatch { s.opr with b := v } none) :=
    operate_relatch _ hi rfl (doWriteStatus_relatch _ _ s v)
  have hwire : exec (.wrsrFrame v) s = .next ((s.doWriteStatus v).relatch s.opr none) :=
    perform_relatch hi (doWriteStatus_relatch _ _ s v)
  obtain ⟨i, j, chip, hbody⟩ := doWriteStatus_block v s
  refine ⟨i, j, chip, by rw [hhost, hbody]; rfl, by rw [hwire, hbody]; rfl, fun hs => ?_⟩
  obtain ⟨hafter, -, hbusy⟩ := doWriteStatus_after hs.rest hs.notBusy v
  rw [hbody, afterBytes_chip] at hafter hbusy
  exact ⟨hafter.arrayKept, hafter.wel, hafter.rested hs.notBusy, hbusy, hafter.statusOther⟩

/-! ## The product ID -/

/-- The product ID determines the two bytes it was joined from. -/
theorem productId_inj {a b c d : Byte} (h : productId a b = productId c d) : a = c ∧ b = d := by
  have hn := congrArg BitVec.toNat h
  rw [productId_toNat, productId_toNat] at hn
  have hb := b.isLt
  have hd := d.isLt
  exact ⟨BitVec.eq_of_toNat_eq (by omega), BitVec.eq_of_toNat_eq (by omega)⟩

/-- Settles O26: the two bytes of `doReadProductId_block`, and from `RW` which they are (`doReadProductId_after`). -/
theorem readProductIdResult : Obligations.ReadProductIdResult := by
  refine ⟨fun _ => rfl, decodeOfEncode .rdidFrame, fun i s h hi => ?_⟩
  have hexec : exec i s = .next (s.doReadProductId.relatch s.opr none) := by
    rcases h with rfl | rfl <;> exact perform_relatch hi (doReadProductId_relatch _ _ s)
  obtain ⟨inp, b1, b2, chip, hbody⟩ := doReadProductId_block s
  refine ⟨inp, b1, b2, productId b1 b2, chip, productId_toNat b1 b2, by rw [hexec, hbody]; rfl, fun hs => ?_⟩
  obtain ⟨hafter, -, hread⟩ := doReadProductId_after hs.rest hs.notBusy
  rw [hbody, withProductId_chip, afterBytes_chip] at hafter
  rw [hbody, withProductId_rw] at hread
  obtain ⟨h1, h2⟩ := productId_inj (hread hs.conforming).1
  exact ⟨h1, h2, hafter.kept, hafter.rested hs.notBusy⟩

/-! ## The hold line -/

theorem inTransaction_iff : s.inTransaction = true ↔ s.pins.cs = .asserted ∧ s.pins.hold = .inactive := by
  simp [State.inTransaction]

theorem paused_iff : s.paused = true ↔ s.pins.cs = .asserted ∧ s.pins.hold = .active := by
  simp [State.paused]

theorem inTransaction_eq_false (h : s.pins.cs = .released ∨ s.pins.hold = .active) : s.inTransaction = false := by
  rcases h with h | h <;> simp [State.inTransaction, h]

theorem paused_eq_false (h : s.pins.cs = .released ∨ s.pins.hold = .inactive) : s.paused = false := by
  rcases h with h | h <;> simp [State.paused, h]

/-- A breach leaves nothing known of the array, and a selected chip desynchronised (R181 c, d, R183 a, R266; log 11). -/
theorem breachedIf_lost (s : State) :
    (s.breachedIf true).chip.ArrayLost s.chip.draws ∧
      (s.breachedIf true).chip.parser = if s.pins.cs = .asserted then .desync else .closed := by
  have hlost : Lost (lostAt s.pins.cs) s.chip (s.breachedIf true).chip := lost_loseAt s.chip s.pins.cs
  refine ⟨hlost.arrayLost, hlost.parser.trans ?_⟩
  cases s.pins.cs <;> rfl

/-- Settles O19: the pin write, and `breachedIf_lost` where `hold` is not inside a transaction or `resume` not Paused. -/
theorem holdResumeResult : Obligations.HoldResumeResult := by
  refine ⟨fun _ => rfl, fun _ => rfl, fun s hi => ⟨?_, ?_⟩⟩
  · refine ⟨(s.breachedIf (!s.inTransaction)).chip, exec_hold hi, fun hc hh => ?_, fun h => ?_⟩
    · rw [inTransaction_iff.2 ⟨hc, hh⟩]; rfl
    · rw [inTransaction_eq_false h]; exact breachedIf_lost s
  · refine ⟨(s.breachedIf (!s.paused)).chip, exec_resume hi, fun hc hh => ?_, fun h => ?_⟩
    · rw [paused_iff.2 ⟨hc, hh⟩]; rfl
    · rw [paused_eq_false h]; exact breachedIf_lost s

/-- `hold` inside a transaction writes its pin and does nothing else (R180). -/
theorem exec_hold_inTransaction (hi : s.inited = true) (h : s.inTransaction = true) :
    exec .hold s = .next ((s.pinHold .active).relatch s.opr none) := by
  rw [exec_hold hi, h]; rfl

/-- `resume` while Paused writes its pin and does nothing else (R182). -/
theorem exec_resume_paused (hi : s.inited = true) (h : s.paused = true) :
    exec .resume s = .next ((s.pinHold .inactive).relatch s.opr none) := by
  rw [exec_resume hi, h]; rfl

/-! ## A host-built transaction -/

/-- `t` is inside a transaction begun in `s`, the parser at `q` and nothing stored changed. -/
structure State.Within (s t : State) (q : Parser) : Prop where
  inited : t.inited = true
  session : Session s.cfg t
  follows : Follows s.chip t.chip q

theorem execAll_cons {is : List Instr} (h : exec i s = .next t) : execAll (i :: is) s = execAll is t := by
  rw [execAll, h]

/-- What comes next for a chip further on, one byte of `Follows.run`. -/
theorem Follows.next {w : Nat} {c d : Chip} {q r : Parser} {b : Byte} (h : Follows c d q)
    (hn : q.next w c.busy b = some r) : d.parser.next w d.busy b = some r := by
  rw [h.parser]
  rcases h.busy with e | e <;> rw [e]
  · exact hn
  · exact next_mono hn

/-- A whole transaction that stores nothing, from where it is further on. -/
theorem Follows.after {c d e : Chip} {q : Parser} (h : Follows c d q) (g : After d e d.array d.wel d.statusOther) :
    After c e c.array c.wel c.statusOther where
  array := g.array.trans h.array
  wel := g.wel.trans h.wel
  statusOther := g.statusOther.trans h.statusOther
  notBusy hb := g.notBusy (h.notBusy hb)
  manufacturer := g.manufacturer.trans h.manufacturer
  device := g.device.trans h.device
  conforming := g.conforming.trans h.conforming
  parser := g.parser
  byteBoundary := g.byteBoundary
  draws := h.draws.trans g.draws

theorem doTransfer_inited (out : Byte) (s : State) : (s.doTransfer out).inited = s.inited := by
  obtain ⟨x, c, h⟩ := doTransfer_block out s
  rw [h, afterBytes_inited]

theorem doReadByte_inited (c : Bool) (s : State) : (s.doReadByte c).inited = s.inited := by
  obtain ⟨x, d, h⟩ := doReadByte_block c s
  rw [h, afterBytes_inited]

theorem State.Ready.relatch (h : s.Ready) (o : OperandRegs) (j : Option Instr) : (s.relatch o j).Ready :=
  ⟨h.inited, h.clockLow, h.busIdle, h.notHeld, h.conforming, h.notBusy, h.closed, h.byteBoundary⟩

theorem Session.relatch {p : Config.Params} (h : Session p s) (o : OperandRegs) (j : Option Instr) :
    Session p (s.relatch o j) :=
  ⟨h.cfg, h.clockLow, h.selected, h.notHeld, h.byteBoundary⟩

/-- `sendCommand` from rest (R160). -/
theorem State.Ready.sendCommand (hs : s.Ready) {op : Byte} {o : Opcode} (ho : Opcode.ofByte op = some o) :
    ∃ t, exec (.sendCommand op) s = .next t ∧ s.Within t (Parser.afterOpcode o) := by
  obtain ⟨f, h⟩ := doCommand_follows hs.rest ho (opcodeTaken_notBusy hs.notBusy o)
  have hi : (s.doCommand op).inited = true := (doTransfer_inited op s.doSelect).trans hs.inited
  exact ⟨_, exec_sendCommand hs.inited op, hi, h.relatch _ _, f⟩

/-- A byte the frame admits (R138). -/
theorem State.Within.transferByte {q r : Parser} {b : Byte} (h : s.Within t q) (hl : q.live)
    (hn : q.next s.cfg.window s.chip.busy b = some r) :
    ∃ u, exec (.transferByte b) t = .next u ∧ s.Within u r := by
  obtain ⟨f, g, -⟩ := doTransfer_follows h.session (by rwa [h.follows.parser]) (h.follows.next hn)
  exact ⟨_, exec_transferByte h.inited b, (doTransfer_inited b t).trans h.inited, g.relatch _ _, h.follows.trans f⟩

/-- A pause and its end leave the transaction where it was (R87, R181, R183). -/
theorem State.Within.hold_resume {q : Parser} (h : s.Within t q) :
    ∃ u v, exec .hold t = .next u ∧ exec .resume u = .next v ∧ s.Within v q := by
  obtain ⟨hi, ⟨hcfg, hk, hc, hh, hb⟩, hf⟩ := h
  have hhold := exec_hold_inTransaction hi (inTransaction_iff.2 ⟨hc, hh⟩)
  have hresume := exec_resume_paused (s := (t.pinHold .active).relatch t.opr none) hi (paused_iff.2 ⟨hc, rfl⟩)
  exact ⟨_, _, hhold, hresume, hi, ⟨hcfg, hk, hc, rfl, hb⟩, hf⟩

/-- A continuation read of one byte is `readByte(false)` (R141 a). -/
theorem doReadBytes_one (s : State) : s.doReadBytes 1 = ([(s.doReadByte false).res.rb], s.doReadByte false) := rfl

/-- The last byte of a READ transaction (R140, R141, R190). -/
theorem State.Within.readByte_last {a : Nat} (h : s.Within t (.reading a)) (hs : s.Ready) (ha : a < arraySize) :
    ∃ u, exec (.readByte false) t = .next u ∧ u.res.rb = s.chip.array.read a ∧ u.busState = .idle ∧
      s.chip.StoreKept u.chip ∧ u.Ready := by
  obtain ⟨hlast, hrest, hread⟩ := doReadBytes_after 0 h.session h.follows.parser ha
  rw [doReadBytes_one] at hlast hrest hread
  have hafter := h.follows.after hlast
  have hbytes := hread (h.follows.conforming.trans hs.conforming)
  rw [h.follows.array] at hbytes
  have hready := hafter.ready hs hrest ((doReadByte_inited false t).trans h.inited)
  refine ⟨_, exec_readByte h.inited false, List.head_eq_of_cons_eq hbytes, ?_, hafter.kept, hready.relatch _ _⟩
  rw [State.busState, relatch_pins, hrest.busIdle]

/-- Settles O45, operation by operation: the parser goes through the address frame, the pause leaves it in its middle, and the
byte read is the one at the address. -/
theorem pausedReadContinues : Obligations.PausedReadContinues := by
  intro a s hs
  obtain ⟨s1, e1, h1⟩ : ∃ t, exec (.sendCommand 0x03#8) s = .next t ∧ s.Within t (.address0 .read) :=
    hs.sendCommand (ofByte_byte .read)
  obtain ⟨s2, e2, h2⟩ : ∃ u, exec (.transferByte 0x00#8) s1 = .next u ∧ s.Within u (.address1 .read) :=
    h1.transferByte (by simp [Parser.live]) rfl
  obtain ⟨s3, e3, h3⟩ : ∃ u, exec (.transferByte (hiByte a)) s2 = .next u ∧ s.Within u (.address2 .read (hiByte a)) :=
    h2.transferByte (by simp [Parser.live]) rfl
  obtain ⟨s4, s5, e4, e5, h5⟩ := h3.hold_resume
  obtain ⟨s6, e6, h6⟩ : ∃ u, exec (.transferByte (loByte a)) s5 = .next u ∧ s.Within u (.reading a.toNat) :=
    h5.transferByte (by simp [Parser.live]) (by rw [Parser.next, joinBytes_split]; rfl)
  obtain ⟨s7, e7, hresult⟩ := h6.readByte_last hs a.isLt
  refine ⟨s7, ?_, hresult⟩
  rw [execAll_cons e1, execAll_cons e2, execAll_cons e3, execAll_cons e4, execAll_cons e5, execAll_cons e6,
    execAll_cons e7, execAll]

end Sys2Proof.Machine
end

section
/-! SUPPORT. The array family (42_array_access.md): `read`, and the two erases with what they leave on a chip at rest, each as a
host operation and as the wire frame of its format. -/

namespace Sys2Proof.Machine

open Sys2Proof

variable {s : State}

/-! ## read -/

/-- The clamp of R191 fits the 17 bits of `RN`. -/
theorem clampedLength_lt (a : Addr) (len : Count) : clampedLength a len < 2 ^ 17 :=
  (Nat.min_le_left _ _).trans_lt len.isLt

/-- Settles O28: the body of `read` with the clamp of the length port (`doRead_result`), `A` and `L` latched. -/
theorem readResult : Obligations.ReadResult := by
  refine ⟨fun _ => rfl, fun a len s hi => ?_⟩
  have hfits := clampedLength_fits a len
  obtain ⟨i, j, k, l, bytes, last, chip, hl, hlast, hbody, hready⟩ := doRead_result a hfits s
  refine ⟨clampedLength a len, i, j, k, l, bytes, last, chip, rfl, hl, hlast, ?_, clampedLength_lt a len, hfits, hready⟩
  calc exec (.read a len) s
    _ = .next ((s.doRead a (clampedLength a len)).relatch { s.opr with a := a, l := len } none) :=
      operate_relatch _ hi rfl (doRead_relatch _ _ s a _)
    _ = _ := by rw [hbody]; rfl

/-! ## The erases -/

/-- The registers put back after an operation that latched none, for bytes moved in between: `finish` alone. -/
theorem afterBytes_relatch (es : List ByteEvent) (cs : ChipSelect) (o x : Byte) (c : Chip) :
    (s.afterBytes es cs o x c).relatch s.opr none = (s.afterBytes es cs o x c).finish := rfl

/-- What an erase to the array `m` leaves once its wait is over, the cells of `m` being those of `f` (R79, R83). -/
theorem After.erased {c d : Chip} {m : Memory} (h : After c d (if c.wel then m else c.array) false c.statusOther)
    (hb : c.busy = none) {f : Nat → Byte} (hm : ∀ x < arraySize, m.read x = f x) :
    d.wel = false ∧ d.statusOther = c.statusOther ∧ c.Rested d ∧ (c.wel = false → c.ArrayKept d) ∧
      (c.wel = true → ∀ x < arraySize, d.array.read x = f x) := by
  refine ⟨h.wel, h.statusOther, h.rested hb, fun hw x => ?_, fun hw x hx => ?_⟩
  · rw [h.array, hw]; rfl
  · rw [h.array, if_pos hw, hm x hx]

/-- The cells of the array with the sector of `a` erased (R83, R90, R195). -/
theorem read_eraseSector_div (p : Config.Params) (m : Memory) (a : Nat) {x : Nat} (hx : x < arraySize) :
    (m.eraseSector p a).read x =
      if x / p.sectorSize = a / p.sectorSize ∧ 0 < p.sectorSize then p.erased else m.read x := by
  simp only [read_eraseSector, mem_sectorOf p a x hx]

/-- Settles O30: one body for both forms (`doSectorErase_block`), and the sector erased with the latch set
(`doSectorErase_after`). -/
theorem sectorEraseResult : Obligations.SectorEraseResult := by
  refine ⟨fun _ => rfl, fun a => decodeOfEncode (.sectorEraseFrame a), fun a s hi => ?_⟩
  have hhost : exec (.sectorErase a) s = .next ((s.doSectorErase a).relatch { s.opr with a := a } none) :=
    operate_relatch _ hi rfl (doSectorErase_relatch _ _ s a)
  have hwire : exec (.sectorEraseFrame a) s = .next ((s.doSectorErase a).relatch s.opr none) :=
    perform_relatch hi (doSectorErase_relatch _ _ s a)
  obtain ⟨i, j, k, l, chip, hbody⟩ := doSectorErase_block a s
  refine ⟨i, j, k, l, chip, by rw [hhost, hbody]; rfl, by rw [hwire, hbody, afterBytes_relatch], fun hs => ?_⟩
  obtain ⟨hafter, -⟩ := doSectorErase_after hs.rest hs.notBusy a
  rw [hbody, afterBytes_chip] at hafter
  exact hafter.erased hs.notBusy fun _ hx => read_eraseSector_div s.cfg s.chip.array a.toNat hx

/-- Settles O31: one body for both forms (`doChipErase_block`), and every byte erased with the latch set
(`doChipErase_after`). -/
theorem chipEraseResult : Obligations.ChipEraseResult := by
  refine ⟨fun _ => rfl, decodeOfEncode .chipEraseFrame, fun i s h hi => ?_⟩
  have hexec : exec i s = .next (s.doChipErase.relatch s.opr none) := by
    rcases h with rfl | rfl <;> exact perform_relatch hi (doChipErase_relatch _ _ s)
  obtain ⟨inp, chip, hbody⟩ := doChipErase_block s
  refine ⟨inp, chip, by rw [hexec, hbody, afterBytes_relatch], fun hs => ?_⟩
  obtain ⟨hafter, -⟩ := doChipErase_after hs.rest hs.notBusy
  rw [hbody, afterBytes_chip] at hafter
  exact hafter.erased hs.notBusy fun _ hx => read_eraseAll s.cfg s.chip.array hx

/-! ## A read after a chip erase -/

/-- Bytes moved from rest, the chip at rest again and chip-select released, end at rest. -/
theorem State.Ready.afterBytes (hs : s.Ready) (es : List ByteEvent) (o x : Byte) {c : Chip} (hc : s.chip.Rested c) :
    (s.afterBytes es .released o x c).finish.Ready :=
  hs.again hc rfl rfl rfl rfl

/-- `writeEnable` from rest sets the latch and ends at rest (R79, R164). -/
theorem State.Ready.writeEnable (hs : s.Ready) :
    ∃ t, exec .writeEnable s = .next t ∧ t.Ready ∧ t.cfg = s.cfg ∧ t.chip.wel = true := by
  obtain ⟨-, -, hresult⟩ := writeEnableResult
  obtain ⟨inp, chip, hexec, hchip⟩ := hresult .writeEnable s (.inl rfl) hs.inited
  obtain ⟨hwel, -, -, hrested⟩ := hchip hs
  exact ⟨_, hexec, hs.afterBytes _ _ _ hrested, by rw [finish_cfg, afterBytes_cfg], hwel⟩

/-- `chipErase` from rest with the latch set erases the array and ends at rest (R83, R197). -/
theorem State.Ready.chipErase (hs : s.Ready) (hw : s.chip.wel = true) :
    ∃ t, exec .chipErase s = .next t ∧ t.Ready ∧ ∀ x < arraySize, t.chip.array.read x = s.cfg.erased := by
  obtain ⟨-, -, hresult⟩ := chipEraseResult
  obtain ⟨inp, chip, hexec, hchip⟩ := hresult .chipErase s (.inl rfl) hs.inited
  obtain ⟨-, -, hrested, -, herased⟩ := hchip hs
  exact ⟨_, hexec, hs.afterBytes _ _ _ hrested, herased hw⟩

/-- A range whose cells all hold `b` reads as that many times `b`. -/
theorem readFrom_eq_replicate {m : Memory} {a n : Nat} {b : Byte} (h : ∀ k < n, m.read (a + k) = b) :
    m.readFrom a n = List.replicate n b := by
  simp only [Memory.readFrom, List.eq_replicate_iff, List.length_map, List.length_range, List.mem_map, List.mem_range,
    true_and]
  rintro _ ⟨k, hk, rfl⟩
  exact h k hk

/-- Settles O43: the latch set, then every byte of the array erased, and a read takes its bytes from inside the array. -/
theorem chipEraseThenRead : Obligations.ChipEraseThenRead := by
  intro a len s hs
  obtain ⟨s1, e1, h1, hcfg, hwel⟩ := hs.writeEnable
  obtain ⟨s2, e2, h2, herased⟩ := h1.chipErase hwel
  obtain ⟨s3, e3, -, hread⟩ := exec_read h2 a len
  refine ⟨s3, by rw [execAll_cons e1, execAll_pair e2 e3], ?_⟩
  rw [hread.dout]
  refine readFrom_eq_replicate fun k hk => ?_
  have hfits := clampedLength_fits a len
  change k < clampedLength a len at hk
  rw [herased _ (by omega), hcfg]

end Sys2Proof.Machine
end

section
/-! SUPPORT. The read-modify-write family (43_program_rmw.md): the merged window, the transactions of `program` with what
depends on its data, and what it leaves on a chip at rest. -/

namespace Sys2Proof.Machine

open Sys2Proof

variable {s : State}

/-! ## The merged window -/

theorem mergedWindow_getElem? (s : State) (a : Addr) {k : Nat} (hk : k < s.cfg.window) :
    (s.mergedWindow a)[k]? = some (s.mergedByte a (windowStart s.cfg a + k)) := by
  rw [List.getElem?_eq_getElem (by rwa [mergedWindow_length]), mergedWindow_getElem]

section
variable (s : State) (a : Addr) (len : Count) (data buf : List Byte)

/-- The merged byte of `program`'s operands and a buffer (R215). -/
theorem mergedByte_loaded (i : Nat) :
    ((s.latchALD a len data).withBuffer buf).mergedByte a i =
      if a.toNat ≤ i ∧ i < a.toNat + len.toNat then (data[i - a.toNat]?).getD (Config.dinByte s.draws (i - a.toNat))
      else (buf[i - windowStart s.cfg a]?).getD (Config.bufByte s.draws (i - windowStart s.cfg a)) := rfl

/-- Byte `k` of the merged window is the merged byte of address `ws + k`, whose place in the buffer is `k` (R215). -/
theorem mergedWindow_loaded_getElem? (hbuf : buf.length = s.cfg.window) {k : Nat} (hk : k < s.cfg.window) :
    (((s.latchALD a len data).withBuffer buf).mergedWindow a)[k]? =
      if a.toNat ≤ windowStart s.cfg a + k ∧ windowStart s.cfg a + k < a.toNat + len.toNat then
        some ((data[windowStart s.cfg a + k - a.toNat]?).getD
          (Config.dinByte s.draws (windowStart s.cfg a + k - a.toNat)))
      else buf[k]? := by
  have hkept (free : Byte) : some ((buf[windowStart s.cfg a + k - windowStart s.cfg a]?).getD free) = buf[k]? := by
    rw [Nat.add_sub_cancel_left, List.getElem?_eq_getElem (by rwa [hbuf]), Option.getD_some]
  refine (mergedWindow_getElem? ((s.latchALD a len data).withBuffer buf) a hk).trans ?_
  rw [mergedByte_loaded, apply_ite some]
  exact if_congr Iff.rfl rfl (hkept _)

end

/-- Settles O32: the window is an aligned granule inside the array, and its bytes are as `mergedWindow_loaded_getElem?` says. -/
theorem mergedWindow : Obligations.MergedWindow :=
  fun s a len data buf hbuf =>
    ⟨granuleStart_le _ _, lt_granuleEnd (window_pos s.cfg) _, windowStart_end s.cfg a, mergedWindow_length _ a,
      fun _ hk => mergedWindow_loaded_getElem? s a len data buf hbuf hk⟩

/-! ## program on the block -/

section
variable (o : OperandRegs) (q : Option Instr) (a : Addr)

theorem doReadWindow_relatch (s : State) : (s.relatch o q).doReadWindow a = (s.doReadWindow a).relatch o q := by
  simp only [State.doReadWindow, doReadTransaction_relatch]
  rfl

/-- The PROGRAM transaction looks at the operand registers only for the bytes it sends. -/
theorem doProgramTransaction_relatch {s : State} (hm : (s.relatch o q).mergedWindow a = s.mergedWindow a) :
    (s.relatch o q).doProgramTransaction a = (s.doProgramTransaction a).relatch o q := by
  simp only [State.doProgramTransaction, hm, doCommand_relatch, doFrameAddress_relatch, doSendBytes_relatch,
    doRelease_relatch]
  rfl

/-- What the last transaction of `program` sends is the window read in the first, merged. -/
theorem mergedWindow_before_program (s : State) :
    ((((s.doReadWindow a).doPlainCommand .wren).doSectorErase a).doPlainCommand .wren).mergedWindow a =
      (s.withBuffer (s.doReadWindow a).buf).mergedWindow a := by
  rw [doPlainCommand_mergedWindow, doSectorErase_mergedWindow, doPlainCommand_mergedWindow, doReadWindow_mergedWindow]

/-- Nor does the whole of `program` look at anything else of them, or at the sequencer position. -/
theorem doProgram_relatch {s : State}
    (hm : ∀ buf, ((s.relatch o q).withBuffer buf).mergedWindow a = (s.withBuffer buf).mergedWindow a) :
    (s.relatch o q).doProgram a = (s.doProgram a).relatch o q := by
  have hsent := mergedWindow_before_program a (s.relatch o q)
  simp only [doReadWindow_relatch, doPlainCommand_relatch, doSectorErase_relatch] at hsent
  simp only [State.doProgram, doReadWindow_relatch, doPlainCommand_relatch, doSectorErase_relatch]
  refine doProgramTransaction_relatch o q a ?_
  rw [hsent, mergedWindow_before_program]
  exact hm _

end

theorem relatch_finish (o : OperandRegs) (q : Option Instr) (s : State) : (s.relatch o q).finish = s.relatch o none := rfl

/-- `program` is its body, run with the operands latched, and the registers written. -/
theorem exec_program (hi : s.inited = true) (a : Addr) (len : Count) (data : List Byte) :
    exec (.program a len data) s =
      .next (((s.latchALD a len data).doProgram a).relatch (s.latchALD a len data).opr none) := by
  have hpc : ((s.start (.program a len data)).latchALD a len data).doProgram a =
      ((s.latchALD a len data).doProgram a).relatch (s.latchALD a len data).opr (some (.program a len data)) :=
    doProgram_relatch (s := s.latchALD a len data) _ _ a fun _ => rfl
  calc exec (.program a len data) s
    _ = .next (((s.start (.program a len data)).latchALD a len data).doProgram a).finish := operate_inited hi _ _ _
    _ = _ := by rw [hpc, relatch_finish]

/-- Settles O33: the five transactions of `doProgram_block`, with the operands latched. -/
theorem programResult : Obligations.ProgramResult := by
  refine ⟨fun _ => rfl, fun a len data s hi => ?_⟩
  obtain ⟨i1, j1, k1, l1, old, e1, i2, j2, k2, l2, e2, i3, j3, k3, l3, sampled, chip, hbuf, hsampled, hbody⟩ :=
    doProgram_block a (s.latchALD a len data)
  refine ⟨i1, j1, k1, l1, old, e1, i2, j2, k2, l2, e2, i3, j3, k3, l3, sampled, chip, _, hbuf, hsampled, rfl, ?_⟩
  rw [exec_program hi, hbody]
  rfl

/-! ## What depends on the data -/

/-- Data streams that agree inside the window merge to the same bytes (R217, R218). -/
theorem mergedWindow_data_congr {a : Addr} {len : Count} {data data' : List Byte}
    (h : ∀ j < min len.toNat (windowStart s.cfg a + s.cfg.window - a.toNat), data[j]? = data'[j]?) (buf : List Byte) :
    ((s.latchALD a len data').withBuffer buf).mergedWindow a = ((s.latchALD a len data).withBuffer buf).mergedWindow a := by
  refine List.map_congr_left fun k hk => ?_
  have hk' : k < s.cfg.window := List.mem_range.1 hk
  simp only [withBuffer_cfg, latchALD_cfg, mergedByte_loaded]
  refine ite_congr rfl (fun ⟨h1, h2⟩ => ?_) fun _ => rfl
  rw [h _ (by omega)]

/-- Settles O39: both runs send the same bytes, so the second is the first with its data register put in
(`doProgram_relatch`). -/
theorem programIgnoresExcessData : Obligations.ProgramIgnoresExcessData := by
  intro a len data data' s hi h
  have hrun : (s.latchALD a len data').doProgram a =
      ((s.latchALD a len data).doProgram a).relatch (s.latchALD a len data').opr s.pc :=
    doProgram_relatch (s := s.latchALD a len data) _ _ a (mergedWindow_data_congr h)
  rw [exec_program hi, exec_program hi, hrun]
  generalize (s.latchALD a len data).doProgram a = u
  exact ⟨u.relatch (s.latchALD a len data).opr none, rfl, rfl⟩

/-! ## The transactions on the wire -/

/-! What each stretch of a byte trace adds to `transactions`, the out bytes of the whole transactions. -/

section
variable (cur : List Byte) (a : Addr) (i j k l : Byte) (es : List ByteEvent)

theorem transactions_exchanges {os is : List Byte} (h : is.length = os.length) :
    transactions cur (exchanges os is ++ es) = transactions (os.reverse ++ cur) es := by
  induction os generalizing is cur with
  | nil => rfl
  | cons o os ih =>
    match is, h with
    | i :: is, h => simp [exchanges, transactions, ih _ (Nat.succ.inj h)]

/-- Reading sends one dummy byte for each byte read. -/
theorem map_x_eq_exchanges (d : Byte) (ins : List Byte) :
    ins.map (ByteEvent.x d) = exchanges (List.replicate ins.length d) ins := by
  induction ins with
  | nil => rfl
  | cons i ins ih => simp [List.replicate_succ, exchanges, ih]

theorem transactions_header (op : Byte) :
    transactions cur (headerTrace op a i j k l ++ es) = transactions (op :: addressFrame a).reverse es := rfl

theorem transactions_plain (op : Byte) : transactions cur (plainTrace op i ++ es) = [op] :: transactions [] es := rfl

theorem transactions_readFrame (d : Byte) (ins : List Byte) :
    transactions cur (readFrameTrace d a i j k l ins ++ es) =
      (0x03#8 :: (addressFrame a ++ List.replicate ins.length d)) :: transactions [] es := by
  rw [readFrameTrace, readTrace, map_x_eq_exchanges, List.append_assoc, List.append_assoc, transactions_header,
    transactions_exchanges _ _ List.length_replicate.symm]
  simp [transactions]

theorem transactions_erase (t : BitVec 32) :
    transactions cur (eraseTrace a i j k l t ++ es) = (0x52#8 :: addressFrame a) :: transactions [] es := rfl

theorem transactions_programFrame {ms outs : List Byte} (h : outs.length = ms.length) (t : BitVec 32) :
    transactions cur (programFrameTrace a i j k l ms outs t) = [0x02#8 :: (addressFrame a ++ ms)] := by
  rw [programFrameTrace, List.append_assoc, transactions_header, transactions_exchanges _ _ h]
  simp [transactions]

end

/-- The five transactions hold the bytes of R219 (e). -/
theorem programTransactions_bytes (p : Config.Params) (a : Addr) {ms : List Byte} (h : ms.length = p.window) :
    ((programTransactions p a ms).map List.length).sum = 14 + 2 * p.window := by
  simp [programTransactions, addressFrame, h]
  omega

/-- The erase and the PROGRAM stand each after a WREN, and nothing else mutates (R165, R213, R214). -/
theorem programTransactions_enabled (p : Config.Params) (a : Addr) (ms : List Byte) :
    writeEnableKept false (programTransactions p a ms) = true := by
  simp [programTransactions, writeEnableKept, mutatingOpcode]

/-- Settles O40 (the plain name is the model's own `programTransactions`): the trace of `programResult`, taken apart
transaction by transaction. -/
theorem programTransactions_sent : Obligations.ProgramTransactions := by
  intro a len data s hi
  obtain ⟨-, hresult⟩ := programResult
  obtain ⟨i1, j1, k1, l1, old, e1, i2, j2, k2, l2, e2, i3, j3, k3, l3, sampled, chip, merged, hbuf, hsampled, hmerged,
    hexec⟩ := hresult a len data s hi
  have hlen : merged.length = s.cfg.window := by rw [hmerged, mergedWindow_length]; rfl
  refine ⟨_, _, merged, hexec, wireTrace_logged _ _ _ rfl, hlen, ?_⟩
  rw [List.append_assoc, List.append_assoc, List.append_assoc, transactions_readFrame, transactions_plain,
    transactions_erase, transactions_plain, transactions_programFrame _ _ _ _ _ _ (hsampled.trans hlen.symm), hbuf]
  exact ⟨rfl, programTransactions_bytes _ _ hlen, programTransactions_enabled _ _ _⟩

/-! ## program on a chip at rest -/

/-- The W bytes that `program` sends to a chip at rest: its window, with the caller's bytes merged in (R211, R215). -/
def State.programBytes (s : State) (a : Addr) (len : Count) (data : List Byte) : List Byte :=
  ((s.latchALD a len data).withBuffer (s.chip.array.readFrom (windowStart s.cfg a) s.cfg.window)).mergedWindow a

@[simp] theorem readFrom_length (m : Memory) (a n : Nat) : (m.readFrom a n).length = n := by
  simp [Memory.readFrom]

@[simp] theorem readFrom_getElem (m : Memory) (a n k : Nat) (hk : k < (m.readFrom a n).length) :
    (m.readFrom a n)[k] = m.read (a + k) := by
  simp [Memory.readFrom]

theorem programBytes_length (s : State) (a : Addr) (len : Count) (data : List Byte) :
    (s.programBytes a len data).length = s.cfg.window := mergedWindow_length _ _

theorem doProgram_inited (a : Addr) (s : State) : (s.doProgram a).inited = s.inited := by
  obtain ⟨i1, j1, k1, l1, ins, e1, i2, j2, k2, l2, e2, i3, j3, k3, l3, outs, c, -, -, h⟩ := doProgram_block a s
  rw [h, forgetBuffer_inited, afterBytes_inited]

/-- `program` from rest (R210): it ends at rest, and the array is the one with the chip's sector erased and the merged window
programmed at the address. -/
theorem State.Ready.program (hs : s.Ready) (a : Addr) (len : Count) (data : List Byte) :
    ∃ t d, exec (.program a len data) s = .next t ∧ t.Ready ∧ s.chip.draws ≤ d ∧
      After s.chip t.chip
        ((s.chip.array.eraseSector s.cfg a.toNat).program s.cfg d a.toNat (s.programBytes a len data)) false
        s.chip.statusOther := by
  have hlatched : (s.latchALD a len data).Ready := hs.relatch (s.latchALD a len data).opr s.pc
  obtain ⟨d, buf, hd, -, hbuf, hafter, hend⟩ := doProgram_after hlatched.rest hlatched.notBusy a
  rw [hbuf hlatched.conforming] at hafter
  have hready := hafter.ready hlatched hend ((doProgram_inited a _).trans hlatched.inited)
  exact ⟨_, d, exec_program hs.inited a len data, hready.relatch _ _, hd, hafter⟩

section
variable {a : Addr} {len : Count} {data : List Byte} (ha : s.cfg.aligned a) (hd : data.length = len.toNat)
include ha hd

/-- At a window start the byte sent to a cell of the window is the caller's where it falls, and else the old one (R215,
R221). -/
theorem programBytes_getElem? {x : Nat} (h1 : a.toNat ≤ x) (h2 : x < a.toNat + s.cfg.window) :
    (s.programBytes a len data)[x - a.toNat]? =
      some (if x < a.toNat + len.toNat then (data[x - a.toNat]?).getD 0#8 else s.chip.array.read x) := by
  have hstart : windowStart s.cfg a = a.toNat := granuleStart_aligned ha
  have hx : a.toNat + (x - a.toNat) = x := by omega
  rw [State.programBytes, mergedWindow_loaded_getElem? _ _ _ _ _ (readFrom_length _ _ _) (by omega), hstart, hx]
  by_cases hin : x < a.toNat + len.toNat
  · have hj : x - a.toNat < data.length := by omega
    simp [hin, h1, hj]
  · have hk : x - a.toNat < s.cfg.window := by omega
    simp [hin, hk, hx]

/-- With W = S_CHIP the sector erased is the window, so every cell of it takes the byte sent (R221). -/
theorem read_program_programBytes (hg : s.cfg.granuleMatches) (d x : Nat) :
    ((s.chip.array.eraseSector s.cfg a.toNat).program s.cfg d a.toNat (s.programBytes a len data)).read x =
      if a.toNat ≤ x ∧ x < a.toNat + s.cfg.window ∧ x < a.toNat + len.toNat then (data[x - a.toNat]?).getD 0#8
      else s.chip.array.read x := by
  rw [program_merges hg ha (programBytes_length s a len data)]
  by_cases h : a.toNat ≤ x ∧ x < a.toNat + s.cfg.window
  · have hbyte := programBytes_getElem? ha hd h.1 h.2
    rw [dif_pos h, (List.getElem?_eq_some_iff.1 hbyte).2]
    simp [h.1, h.2]
  · rw [dif_neg h, if_neg (by tauto)]

end

/-- Settles O35: the array `program` leaves at rest, cell by cell (`read_program_programBytes`). -/
theorem programMerges : Obligations.ProgramMerges := by
  intro a len data s hs hg ha hdata
  obtain ⟨t, d, he, -, -, hafter⟩ := hs.program a len data
  refine ⟨t, he, hafter.wel, hafter.statusOther, hafter.rested hs.notBusy, fun x => ?_⟩
  rw [hafter.array, read_program_programBytes ha hdata hg]

/-- Settles O36: `program` ends at rest, and the read takes its bytes from inside the window, where they are the data. -/
theorem programThenRead : Obligations.ProgramThenRead := by
  intro a len data s hs hg ha hdata hfit
  obtain ⟨t, d, he, hready, -, hafter⟩ := hs.program a len data
  obtain ⟨u, hu, -, hread⟩ := exec_read hready a len
  have hend := (aligned_fits s.cfg a.isLt ha hfit).2
  have hn : clampedLength a len = len.toNat := Nat.min_eq_left (by omega)
  rw [hn] at hread
  refine ⟨u, execAll_pair he hu, ?_, by rw [hread.rn, BitVec.ofNat_toNat, BitVec.setWidth_eq]⟩
  rw [hread.dout, hafter.array]
  refine List.ext_getElem (by rw [readFrom_length, hdata]) fun k _ hk => ?_
  rw [readFrom_getElem, read_program_programBytes ha hdata hg, if_pos (by omega), Nat.add_sub_cancel_left,
    List.getElem?_eq_getElem hk, Option.getD_some]

/-- Settles O37: W bytes from inside a window pass its end. -/
theorem unalignedProgramLosesArray : Obligations.UnalignedProgramLosesArray := by
  intro a len data s hs ha
  obtain ⟨t, d, he, -, hd, hafter⟩ := hs.program a len data
  have hstart : granuleStart s.cfg.window a.toNat ≠ a.toNat := fun h => by
    have hmod := granuleStart_mod s.cfg.window a.toNat
    rw [h] at hmod
    exact ha hmod
  have hpast : ¬ a.toNat + (s.programBytes a len data).length ≤ windowEnd s.cfg a.toNat := by
    have := granuleStart_le s.cfg.window a.toNat
    rw [programBytes_length, windowEnd]
    omega
  have harray := hafter.array
  rw [program_outside _ _ _ _ _ fun h => hpast h.1] at harray
  exact ⟨t, he, by rw [harray], by rw [harray]; exact hd⟩

/-! ## W different from S_CHIP -/

section
variable {p : Config.Params} {a : Addr} (ha : p.aligned a) (m : Memory) (d : Nat) {ms : List Byte}
  (hl : ms.length = p.window)
include ha hl

/-- An accepted PROGRAM at a window start, W different from S_CHIP, leaves nothing known outside the window (93 U11). -/
theorem program_knownOnly (hg : ¬ p.granuleMatches) {n : Nat} (hn : n ≤ d) {c : Chip}
    (hc : c.array = m.program p d a.toNat ms) : c.KnownOnly a.toNat (a.toNat + p.window) n := by
  have hstart : granuleStart p.window a.toNat = a.toNat := granuleStart_aligned ha
  rw [program_inside_mismatched _ _ _ _ _ (aligned_fits p a.isLt ha (Nat.le_of_eq hl)) hg] at hc
  refine ⟨fun x hx => ?_, by rw [hc]; exact hn⟩
  rw [hc] at hx
  simpa only [windowEnd, hstart] using mem_keepWindow hx

/-- What an accepted PROGRAM at a window start leaves in a cell of the window, whatever S_CHIP (R84). -/
theorem read_program_cell {x : Nat} (h1 : a.toNat ≤ x) (h2 : x < a.toNat + p.window) :
    (m.program p d a.toNat ms).read x =
      if m.read x = p.erased then (ms[x - a.toNat]?).getD 0#8 else Config.chipByte (d + (x - a.toNat)) := by
  have hstart : granuleStart p.window a.toNat = a.toNat := granuleStart_aligned ha
  have hx : a.toNat + (x - a.toNat) = x := by omega
  have hms : ms[x - a.toNat]? = some ms[x - a.toNat] := List.getElem?_eq_getElem (by omega)
  have hcells := (programmedCells_length p m d a.toNat ms).trans hl
  have hcell := programmedCells_getElem? p m d a.toNat (x - a.toNat) ms
  rw [hms, hx, Option.map_some] at hcell
  rw [program_inside _ _ _ _ _ (aligned_fits p a.isLt ha (Nat.le_of_eq hl)),
    read_restored _ _ _ _ (by omega) (by rw [windowEnd]; omega), read_write,
    dif_pos (by omega), (List.getElem?_eq_some_iff.1 hcell).2, hms, Option.getD_some]

end

/-- Settles O38: nothing outside the window is known (`program_knownOnly`), and a cell of it takes the byte sent if the erase
reached it or it was erased before (`read_program_cell`). -/
theorem granuleMismatchLosesRest : Obligations.GranuleMismatchLosesRest := by
  intro a s hs ha hg
  refine ⟨fun len data => ?_, fun hw => ?_⟩
  · obtain ⟨t, d, he, -, hd, hafter⟩ := hs.program a len data
    have hlen := programBytes_length s a len data
    refine ⟨t, he, program_knownOnly ha _ d hlen hg hd hafter.array, fun hsector hdata x h1 h2 => ?_⟩
    have hx : x < arraySize := by
      have := (aligned_fits s.cfg a.isLt ha (Nat.le_refl _)).2
      omega
    rw [hafter.array, read_program_cell ha _ d hlen h1 h2, programBytes_getElem? ha hdata h1 h2, Option.getD_some,
      read_eraseSector_div _ _ _ hx]
    refine ⟨fun hknown => ?_, fun hout hkept => ⟨d + (x - a.toNat), by omega, ?_⟩⟩
    · rcases hknown with hsame | herased
      · simp [hsame, hsector]
      · simp [herased]
    · simp [hout, hkept]
  · obtain ⟨d, hd, -, hafter, -⟩ := doProgramTransaction_after (hs.rest.start (.programFrame a)) hs.notBusy a
    exact ⟨_, perform_inited hs.inited _ _,
      program_knownOnly ha _ d (mergedWindow_length _ a) hg hd (hafter.array.trans (if_pos hw))⟩

end Sys2Proof.Machine
end

section
/-! SUPPORT. The exceptions family (60_exceptions.md): the three answers of a step that runs no operation, every operation ends,
and a mutating command without the latch ends normally and changes nothing the chip stores. -/

namespace Sys2Proof.Machine

open Sys2Proof

variable {i : Instr} {s : State}

/-! ## Steps and ends -/

/-- Inside an operation the block never takes a request (R247). -/
theorem step_hung (hpc : s.pc ≠ none) : step s = .fault .hung := by
  have hbusy : s.cmdReady = false := Option.isNone_eq_false_iff.2 (Option.isSome_iff_ne_none.2 hpc)
  simp [step, hbusy]

/-- Settles O6 by `step_empty`, `step_request` and `step_hung`. -/
theorem stepIdleOrHung : Obligations.StepIdleOrHung :=
  ⟨fun _ hpc hi => step_empty hpc hi, fun _ _ hpc hi => step_request hpc hi, fun _ hpc => step_hung hpc⟩

/-- Settles O9 by the three things an operation can be (`exec_cases`). -/
theorem everyOperationFinishes : Obligations.EveryOperationFinishes := by
  intro i s hpc
  obtain ⟨t, he, ⟨r, rfl, -⟩ | ⟨-, -, es, m⟩ | m⟩ := exec_cases i s
  · exact ⟨_, he, hpc⟩
  · exact ⟨t, he, m.pc⟩
  · obtain ⟨-, -, hidle⟩ := m.registers
    exact ⟨t, he, hidle⟩

/-! ## A mutating command without the latch -/

/-- `i` runs from `s`, the chip stores afterwards what it stored before, and block and chip end at rest. -/
def RunsKeepingStore (i : Instr) (s : State) : Prop := ∃ t, exec i s = .next t ∧ s.chip.StoreKept t.chip ∧ t.Ready

theorem State.Ready.latchA (hs : s.Ready) (a : Addr) : (s.latchA a).Ready := hs.relatch { s.opr with a := a } s.pc

theorem State.Ready.latchB (hs : s.Ready) (b : Byte) : (s.latchB b).Ready := hs.relatch { s.opr with b := b } s.pc

/-- After PROGRAM the buffer is free, which a state at rest does not look at (R35). -/
theorem State.Ready.forgetBuffer (hs : s.finish.Ready) : s.forgetBuffer.finish.Ready :=
  ⟨hs.inited, hs.clockLow, hs.busIdle, hs.notHeld, hs.conforming, hs.notBusy, hs.closed, hs.byteBoundary⟩

/-- What the result of an erase or a PROGRAM says of the chip, with the latch clear before it. -/
theorem storeKept_of_unlatched {c d : Chip} {P : Prop} (hw : c.wel = false)
    (h : d.wel = false ∧ d.statusOther = c.statusOther ∧ c.Rested d ∧ (c.wel = false → c.ArrayKept d) ∧ P) :
    c.StoreKept d ∧ c.Rested d := by
  obtain ⟨hwel, hother, hrested, harray, -⟩ := h
  exact ⟨⟨harray hw, hwel.trans hw.symm, hother⟩, hrested⟩

section
variable (hs : s.Ready) (hw : s.chip.wel = false)
include hs hw

/-- WRSR: it is not accepted, so the chip is not busy after it (R85, R273). -/
theorem writeStatus_unlatched {v : Byte} (hi : i = .writeStatusRegister v ∨ i = .wrsrFrame v) : RunsKeepingStore i s := by
  obtain ⟨-, -, hresult⟩ := writeStatusRegisterResult
  obtain ⟨_, _, chip, hhost, hwire, hchip⟩ := hresult v s hs.inited
  obtain ⟨harray, hwel, hrested, hbusy, hother⟩ := hchip hs
  simp only [hw, Bool.false_eq_true, if_false] at hbusy hother
  rw [settled_self _ hbusy] at hrested
  have hkept : s.chip.StoreKept chip := ⟨harray, hwel.trans hw.symm, hother⟩
  rcases hi with rfl | rfl
  · exact ⟨_, hhost, hkept, (hs.latchB v).afterBytes _ _ _ hrested⟩
  · exact ⟨_, hwire, hkept, hs.afterBytes _ _ _ hrested⟩

theorem sectorErase_unlatched {a : Addr} (hi : i = .sectorErase a ∨ i = .sectorEraseFrame a) : RunsKeepingStore i s := by
  obtain ⟨-, -, hresult⟩ := sectorEraseResult
  obtain ⟨_, _, _, _, chip, hhost, hwire, hchip⟩ := hresult a s hs.inited
  obtain ⟨hkept, hrested⟩ := storeKept_of_unlatched hw (hchip hs)
  rcases hi with rfl | rfl
  · exact ⟨_, hhost, hkept, (hs.latchA a).afterBytes _ _ _ hrested⟩
  · exact ⟨_, hwire, hkept, hs.afterBytes _ _ _ hrested⟩

theorem chipErase_unlatched (hi : i = .chipErase ∨ i = .chipEraseFrame) : RunsKeepingStore i s := by
  obtain ⟨-, -, hresult⟩ := chipEraseResult
  obtain ⟨_, chip, he, hchip⟩ := hresult i s hi hs.inited
  obtain ⟨hkept, hrested⟩ := storeKept_of_unlatched hw (hchip hs)
  exact ⟨_, he, hkept, hs.afterBytes _ _ _ hrested⟩

theorem programFrame_unlatched (a : Addr) : RunsKeepingStore (.programFrame a) s := by
  obtain ⟨-, hresult⟩ := programFrameResult
  obtain ⟨_, _, _, _, _, chip, -, he, hchip⟩ := hresult a s hs.inited
  obtain ⟨hkept, hrested⟩ := storeKept_of_unlatched hw (hchip hs)
  exact ⟨_, he, hkept, (hs.afterBytes _ _ _ hrested).forgetBuffer⟩

end

/-- Settles O41, command by command, from what the results of the seven forms say of a chip whose latch is clear. -/
theorem mutationWithoutLatchIsNoOp : Obligations.MutationWithoutLatchIsNoOp := by
  intro i s hs hw hm
  cases i with
  | writeStatusRegister v => exact writeStatus_unlatched hs hw (.inl rfl)
  | wrsrFrame v => exact writeStatus_unlatched hs hw (.inr rfl)
  | sectorErase a => exact sectorErase_unlatched hs hw (.inl rfl)
  | sectorEraseFrame a => exact sectorErase_unlatched hs hw (.inr rfl)
  | chipErase => exact chipErase_unlatched hs hw (.inl rfl)
  | chipEraseFrame => exact chipErase_unlatched hs hw (.inr rfl)
  | programFrame a => exact programFrame_unlatched hs hw a
  | _ => exact absurd hm Bool.false_ne_true

end Sys2Proof.Machine
end

section
/-! SUPPORT. The family of reset and hazards (70_reset_and_hazards.md): what reset loads, the waits asked for, one `writeEnable`
for one mutation, and the call discipline, which keeps the chip in step with the block. -/

namespace Sys2Proof.Machine

open Sys2Proof

variable {i : Instr} {s t : State}

/-! ## Reset and waits -/

/-- Settles O46: each register is loaded by the definition of the reset state. -/
theorem resetLoadsConfiguration : Obligations.ResetLoadsConfiguration := fun _ => ⟨rfl, rfl, rfl, rfl⟩

/-- An operation that moves no byte asks for no wait (R276). -/
theorem Still.requestedWait_eq (h : Still i s t) : requestedWait s i = (0, 0) := by
  rcases h with ⟨k, -, rfl, -⟩ | ⟨c, rfl, -⟩ | ⟨c, rfl, -⟩ | ⟨c, rfl, -⟩ | ⟨rfl, -⟩ | ⟨rfl, -⟩ <;> rfl

theorem waitTotal_stillTraces : ∀ events ∈ stillTraces, waitTotal events = (0, 0) := by decide

/-- Settles O53: the waits of the bytes moved are in `Moves.waits`, and the other operations ask for none. -/
theorem requestedWaits : Obligations.RequestedWaits := by
  intro i s hi hfit
  obtain ⟨t, he, ⟨r, rfl, hrefused⟩ | ⟨-, -, es, m⟩ | m⟩ := exec_cases i s
  · obtain rfl : i = .configureClockPeriod 0#16 := hrefused.resolve_left (by simp [hi])
    exact ⟨_, [], he, (List.append_nil _).symm, rfl⟩
  · exact ⟨t, expandTrace s.tim.halfPeriod es, he, wireTrace_logged s es t m.wireLog, m.waits hfit⟩
  · obtain ⟨events, hmem, ht⟩ := m.trace
    exact ⟨t, events, he, ht, (waitTotal_stillTraces events hmem).trans m.requestedWait_eq.symm⟩

/-! ## The latch and two mutations -/

/-- With the chip done already, a wait of the host is nothing (R273). -/
theorem hostWaits_of_notBusy (h : t.chip.busy = none) : t.hostWaits = t := by
  rw [State.hostWaits, settled_self _ h]

section
variable (hs : s.Ready)
include hs

/-- SECTOR_ERASE and its wait end at rest with the latch clear (R79, R83). -/
theorem State.Ready.sectorErase {a : Addr} (hi : i = .sectorErase a ∨ i = .sectorEraseFrame a) :
    ∃ t, exec i s = .next t ∧ t.chip.wel = false ∧ t.Ready := by
  obtain ⟨-, -, hresult⟩ := sectorEraseResult
  obtain ⟨_, _, _, _, chip, hhost, hwire, hchip⟩ := hresult a s hs.inited
  obtain ⟨hwel, -, hrested, -⟩ := hchip hs
  rcases hi with rfl | rfl
  · exact ⟨_, hhost, hwel, (hs.latchA a).afterBytes _ _ _ hrested⟩
  · exact ⟨_, hwire, hwel, hs.afterBytes _ _ _ hrested⟩

/-- CHIP_ERASE and its wait; with the latch set before, `State.Ready.chipErase` says what it erases. -/
theorem State.Ready.chipErase_clears (hi : i = .chipErase ∨ i = .chipEraseFrame) :
    ∃ t, exec i s = .next t ∧ t.chip.wel = false ∧ t.Ready := by
  obtain ⟨-, -, hresult⟩ := chipEraseResult
  obtain ⟨_, chip, he, hchip⟩ := hresult i s hi hs.inited
  obtain ⟨hwel, -, hrested, -⟩ := hchip hs
  exact ⟨_, he, hwel, hs.afterBytes _ _ _ hrested⟩

/-- PROGRAM and its wait (R79, R84). -/
theorem State.Ready.programFrame (a : Addr) :
    ∃ t, exec (.programFrame a) s = .next t ∧ t.chip.wel = false ∧ t.Ready := by
  obtain ⟨-, hresult⟩ := programFrameResult
  obtain ⟨_, _, _, _, _, chip, -, he, hchip⟩ := hresult a s hs.inited
  obtain ⟨hwel, -, hrested, -⟩ := hchip hs
  exact ⟨_, he, hwel, (hs.afterBytes _ _ _ hrested).forgetBuffer⟩

/-- WRSR clears the latch too, and ends at rest once the chip has finished (R85, R273). -/
theorem State.Ready.writeStatus {v : Byte} (hi : i = .writeStatusRegister v ∨ i = .wrsrFrame v) :
    ∃ t, exec i s = .next t ∧ t.chip.wel = false ∧ t.hostWaits.Ready := by
  obtain ⟨-, -, hresult⟩ := writeStatusRegisterResult
  obtain ⟨_, _, chip, hhost, hwire, hchip⟩ := hresult v s hs.inited
  obtain ⟨-, hwel, hrested, -, -⟩ := hchip hs
  rcases hi with rfl | rfl
  · exact ⟨_, hhost, hwel, (hs.latchB v).afterBytes _ _ _ hrested⟩
  · exact ⟨_, hwire, hwel, hs.afterBytes _ _ _ hrested⟩

/-- Every mutating command uses up the latch (R79), and only after WRSR is there anything to wait for (R273). -/
theorem State.Ready.spendsLatch (hm : mutates i = true) :
    ∃ t, exec i s = .next t ∧ t.chip.wel = false ∧ t.hostWaits.Ready ∧
      ((∀ v, i ≠ .writeStatusRegister v ∧ i ≠ .wrsrFrame v) → t.hostWaits = t) := by
  suffices h : (∃ v, i = .writeStatusRegister v ∨ i = .wrsrFrame v) ∨
      ∃ t, exec i s = .next t ∧ t.chip.wel = false ∧ t.Ready by
    rcases h with ⟨v, hi⟩ | ⟨t, he, hwel, ht⟩
    · obtain ⟨t, he, hwel, ht⟩ := hs.writeStatus hi
      exact ⟨t, he, hwel, ht, fun hne => (hi.elim (hne v).1 (hne v).2).elim⟩
    · have hself := hostWaits_of_notBusy ht.notBusy
      exact ⟨t, he, hwel, by rwa [hself], fun _ => hself⟩
  cases i with
  | writeStatusRegister v => exact .inl ⟨v, .inl rfl⟩
  | wrsrFrame v => exact .inl ⟨v, .inr rfl⟩
  | sectorErase a => exact .inr (hs.sectorErase (.inl rfl))
  | sectorEraseFrame a => exact .inr (hs.sectorErase (.inr rfl))
  | chipErase => exact .inr (hs.chipErase_clears (.inl rfl))
  | chipEraseFrame => exact .inr (hs.chipErase_clears (.inr rfl))
  | programFrame a => exact .inr (hs.programFrame a)
  | _ => exact absurd hm Bool.false_ne_true

end

/-- Settles O42: the first mutating command uses up the latch (`spendsLatch`), and without it the second is none
(`mutationWithoutLatchIsNoOp`). -/
theorem latchIsSingleUse : Obligations.LatchIsSingleUse := by
  intro i j s hs hi hj
  obtain ⟨r, er, hr, -, hset⟩ := hs.writeEnable
  obtain ⟨t, et, hclear, ht, hself⟩ := hr.spendsLatch hi
  obtain ⟨u, eu, hkept, -⟩ := mutationWithoutLatchIsNoOp j t.hostWaits ht hclear hj
  exact ⟨r, t, u, er, hset, et, hclear, eu, ⟨hkept.array, hkept.wel, hkept.statusOther⟩, hself⟩

/-! ## What keeps block and chip in step -/

/-- It looks at the pins, the parser and the array alone. -/
theorem Keeps.congr {u : State} (h : Keeps s t) (hp : u.pins = t.pins) (hb : u.chip.bitCount = t.chip.bitCount)
    (hq : u.chip.parser = t.chip.parser) (ha : u.chip.array = t.chip.array) : Keeps s u where
  byteBoundary := by rw [hb, h.byteBoundary]
  synchronised := by rw [hq]; exact h.synchronised
  parserFollowsCs := by rw [hq, hp]; exact h.parserFollowsCs
  heldOnlySelected := by rw [hp]; exact h.heldOnlySelected
  parserBounded := by rw [hq, h.parserBounded]
  programmingAligned := by rw [hq]; exact h.programmingAligned
  epoch hg := by rw [ha, h.epoch hg]

theorem Keeps.trans {u : State} (h : Keeps s t) (hc : t.cfg = s.cfg) (g : Keeps t u) : Keeps s u where
  byteBoundary := g.byteBoundary
  synchronised := g.synchronised
  parserFollowsCs := g.parserFollowsCs
  heldOnlySelected := g.heldOnlySelected
  parserBounded := g.parserBounded
  programmingAligned := by rw [← hc]; exact g.programmingAligned
  epoch hg := (g.epoch (by rwa [hc])).trans (h.epoch hg)

/-- Nothing the chip sees: neither chip-select changes, nor does the block come to be held outside a transaction. -/
theorem State.InSync.keeps (h : s.InSync) (hchip : t.chip = s.chip) (hcs : t.pins.cs = s.pins.cs)
    (hh : t.pins.cs = .released → t.pins.hold = .inactive) : Keeps s t where
  byteBoundary := by rw [hchip, h.byteBoundary]
  synchronised := by rw [hchip]; exact h.synchronised
  parserFollowsCs := by rw [hchip, hcs]; exact h.parserFollowsCs
  heldOnlySelected := hh
  parserBounded := by rw [hchip, h.parserBounded]
  programmingAligned := by rw [hchip]; exact h.programmingAligned
  epoch _ := by rw [hchip]

/-- The parameters, `inited` and the low clock are kept by every operation, in or out of the discipline. -/
theorem State.InSync.of_keeps (h : s.InSync) (he : exec i s = .next t) (hk : Keeps s t) : t.InSync := by
  obtain ⟨t', he', hcfg, -, -, -, -, hinited⟩ := configurationIsConstant i s
  obtain rfl : t' = t := Host.Outcome.next.inj (he'.symm.trans he)
  obtain ⟨u, hu, -, -, -, -, -, hlow⟩ := pinOwnership i s
  obtain rfl : u = t' := Host.Outcome.next.inj (hu.symm.trans he)
  exact
    { inited := hinited h.inited
      clockLow := hlow h.clockLow
      byteBoundary := hk.byteBoundary
      synchronised := hk.synchronised
      parserFollowsCs := hk.parserFollowsCs
      heldOnlySelected := hk.heldOnlySelected
      parserBounded := hk.parserBounded
      programmingAligned := by rw [hcfg]; exact hk.programmingAligned }

/-- An operation whose body looks at neither the operand registers nor the sequencer position keeps block and chip in step if
its body does. -/
theorem operate_keeps {latch body : State → State} (o : OperandRegs) (hi : s.inited = true)
    (hl : latch (s.start i) = s.relatch o (some i))
    (hb : body (s.relatch o (some i)) = (body s).relatch o (some i)) (hk : Keeps s (body s)) :
    ∃ t, s.operate i latch body = .next t ∧ Keeps s t :=
  ⟨_, operate_relatch o hi hl hb, hk.congr rfl rfl rfl rfl⟩

/-! ## Inside a transaction -/

/-- A byte the discipline admits (R270). -/
theorem doTransfer_keeps (h : s.InSync) {b : Byte} (hd : disciplined (.transferByte b) s = true) :
    Keeps s (s.doTransfer b) := by
  obtain ⟨hin, ht⟩ := Bool.and_eq_true_iff.1 hd
  obtain ⟨hs, hlive⟩ := h.session hin
  obtain ⟨q, hq, haligned⟩ := takesOut_next ht h.programmingAligned
  obtain ⟨f, hs', -⟩ := doTransfer_follows hs hlive hq
  exact f.keeps hs' (next_live hq hlive) (next_bounded hq h.parserBounded) haligned

/-- The release of a whole frame (R78, R270). -/
theorem doRelease_keeps (hs : Session s.cfg s) (hcomp : s.chip.parser.complete s.cfg = true)
    (ha : ∀ a ds, s.chip.parser = .programming a ds → s.cfg.aligned a) : Keeps s s.doRelease := by
  obtain ⟨hfin, hrest⟩ := doRelease_finishes hs
  exact finish_keeps hfin hrest hs.byteBoundary hcomp ha

/-- An in byte where the format has one and, with `continuing` false, the release after the last (R140, R270). -/
theorem doReadByte_keeps (h : s.InSync) {c : Bool} (hd : disciplined (.readByte c) s = true) :
    Keeps s (s.doReadByte c) := by
  obtain ⟨hin, hg⟩ := Bool.and_eq_true_iff.1 hd
  obtain ⟨hs, hlive⟩ := h.session hin
  obtain ⟨q, hq, hread, hwhole⟩ := givesIn_next (w := s.cfg.window) (busy := s.chip.busy) (b := s.cfg.dummy) hg
  obtain ⟨f, hs', -⟩ := doTransfer_follows hs hlive hq
  have hnot : ∀ a ds, q ≠ .programming a ds := by
    rintro a ds rfl
    simp at hread
  have hbyte : Keeps s (s.doTransfer s.cfg.dummy) :=
    f.keeps hs' (next_live hq hlive) (next_bounded hq h.parserBounded) fun a ds e => absurd e (hnot a ds)
  cases c with
  | true => exact hbyte
  | false =>
    have hrelease : Keeps (s.doTransfer s.cfg.dummy) (s.doTransfer s.cfg.dummy).doRelease :=
      doRelease_keeps ⟨rfl, hs'.clockLow, hs'.selected, hs'.notHeld, hs'.byteBoundary⟩
        (by rw [f.parser]; exact hwhole rfl _) fun a ds e => absurd (f.parser.symm.trans e) (hnot a ds)
    exact hbyte.trans hs'.cfg hrelease

/-- Where the parser stands after an opcode. -/
theorem afterOpcode_inFrame (o : Opcode) : (Parser.afterOpcode o).live ∧ (Parser.afterOpcode o).bounded = true ∧
    ∀ a ds, Parser.afterOpcode o ≠ .programming a ds := by
  cases o <;> simp [Parser.afterOpcode, Parser.live, Parser.bounded]

/-- Where the parser stands after an address frame: no address is past the end of the array. -/
theorem afterAddress_inFrame (cmd : AddressedCommand) (a : Addr) :
    (Parser.afterAddress cmd a).live ∧ (Parser.afterAddress cmd a).bounded = true := by
  have ha := a.isLt
  cases cmd with
  | read => exact ⟨by simp [Parser.afterAddress, Parser.live], decide_eq_true (Nat.le_of_lt ha)⟩
  | program | sectorErase => exact ⟨by simp [Parser.afterAddress, Parser.live], rfl⟩

/-- The address frame after an addressed opcode, at a window start for PROGRAM (R103, R272). -/
theorem doFrameAddress_keeps (h : s.InSync) {a : Addr} (hd : disciplined (.frameAddress a) s = true) :
    Keeps s (s.doFrameAddress a) := by
  obtain ⟨hin, hq⟩ := Bool.and_eq_true_iff.1 hd
  obtain ⟨hs, hlive⟩ := h.session hin
  obtain ⟨cmd, hcmd, haligned⟩ : ∃ cmd, s.chip.parser = .address0 cmd ∧ (cmd = .program → s.cfg.aligned a) := by
    split at hq
    · next hp => exact ⟨.program, hp, fun _ => by simpa using hq⟩
    · next cmd hne hp => exact ⟨cmd, hp, fun e => absurd e hne⟩
    · cases hq
  obtain ⟨f, hs'⟩ := doSendBytes_follows (bs := addressFrame a) hs hlive
    (by rw [hcmd]; exact run_addressFrame _ _ cmd a)
  obtain ⟨hlive', hbounded⟩ := afterAddress_inFrame cmd a
  refine f.keeps hs' hlive' hbounded fun b ds e => ?_
  cases cmd with
  | program => cases e; exact haligned rfl
  | read | sectorErase => cases e

/-! ## From rest -/

/-- The opcode of a command the discipline admits (R107, R273). -/
theorem doCommand_keeps (h : s.InSync) {op : Byte} (hd : disciplined (.sendCommand op) s = true) :
    Keeps s (s.doCommand op) := by
  obtain ⟨hrest, hop⟩ := Bool.and_eq_true_iff.1 hd
  obtain ⟨o, ho, ht⟩ := (Option.any_eq_true _ _).1 hop
  obtain ⟨f, hs⟩ := doCommand_follows (h.rest hrest).1 ho ht
  obtain ⟨hlive, hbounded, hnot⟩ := afterOpcode_inFrame o
  exact f.keeps hs hlive hbounded fun a ds e => absurd e (hnot a ds)

/-- A whole transaction that leaves the array as it is. -/
theorem After.keepsArray {w : Bool} {v : Byte} (h : After s.chip t.chip s.chip.array w v) (hr : Rest s.cfg t) : Keeps s t :=
  h.keeps hr fun _ => rfl

/-- WRSR may leave the chip busy, which is no matter of the frame (R273). -/
theorem doWriteStatus_keeps (hs : Rest s.cfg s) (hb : s.chip.busy = none) (v : Byte) : Keeps s (s.doWriteStatus v) := by
  obtain ⟨hafter, hrest, -⟩ := doWriteStatus_after hs hb v
  have hdone : Keeps s (s.doWriteStatus v).hostWaits :=
    hafter.keepsArray ⟨hrest.cfg, hrest.clockLow, hrest.busIdle, hrest.notHeld⟩
  exact hdone.congr rfl rfl rfl rfl

theorem doRead_keeps (hs : Rest s.cfg s) (hb : s.chip.busy = none) (a : Addr) (len : Count) :
    Keeps s (s.doRead a (clampedLength a len)) := by
  obtain ⟨hafter, hrest, -⟩ := doReadTransaction_after hs hb a (clampedLength_fits a len)
  exact (hafter.keepsArray hrest).congr rfl rfl rfl rfl

theorem doSectorErase_keeps (hs : Rest s.cfg s) (hb : s.chip.busy = none) (a : Addr) : Keeps s (s.doSectorErase a) := by
  obtain ⟨hafter, hrest⟩ := doSectorErase_after hs hb a
  exact hafter.keeps hrest fun _ => ite_epoch _ (eraseSector_epoch _ _ _)

theorem doChipErase_keeps (hs : Rest s.cfg s) (hb : s.chip.busy = none) : Keeps s s.doChipErase := by
  obtain ⟨hafter, hrest⟩ := doChipErase_after hs hb
  exact hafter.keeps hrest fun _ => ite_epoch _ (eraseAll_epoch _ _)

/-- PROGRAM at a window start (R272, R274). -/
theorem doProgramTransaction_keeps (hs : Rest s.cfg s) (hb : s.chip.busy = none) {a : Addr} (ha : s.cfg.aligned a) :
    Keeps s (s.doProgramTransaction a) := by
  obtain ⟨d, -, -, hafter, hrest⟩ := doProgramTransaction_after hs hb a
  exact hafter.keeps hrest fun hg => ite_epoch _ (program_epoch hg _ d a _ ha (Nat.le_of_eq (mergedWindow_length s a)))

/-- `program` at a window start: the erase and the PROGRAM both leave the array known (R221, R272, R274). -/
theorem doProgram_keeps (hs : Rest s.cfg s) (hb : s.chip.busy = none) {a : Addr} (ha : s.cfg.aligned a) :
    Keeps s (s.doProgram a) := by
  obtain ⟨d, buf, -, -, -, hafter, hrest⟩ := doProgram_after hs hb a
  refine hafter.keeps hrest fun hg => ?_
  rw [program_epoch hg _ d a _ ha (Nat.le_of_eq (mergedWindow_length (s.withBuffer buf) a)), eraseSector_epoch]

/-! ## The call discipline -/

/-- Every operation that keeps the call discipline keeps block and chip in step. -/
theorem exec_keeps (h : s.InSync) (hd : disciplined i s = true) : ∃ t, exec i s = .next t ∧ Keeps s t := by
  have hi := h.inited
  cases i with
  | init =>
    have hrest := (h.rest hd).1
    exact ⟨_, rfl, h.keeps (doInit_idle_chip h.clockLow hrest.busIdle) hrest.busIdle.symm fun _ => rfl⟩
  | configureClockPeriod k =>
    have hk : k ≠ 0#16 := by simpa [disciplined] using hd
    exact ⟨_, exec_configureClockPeriod hk s, h.keeps rfl rfl h.heldOnlySelected⟩
  | hold =>
    have hin := inTransaction_iff.1 hd
    exact ⟨_, exec_hold_inTransaction hi hd, h.keeps rfl rfl fun e => absurd (hin.1.symm.trans e) (by simp)⟩
  | resume => exact ⟨_, exec_resume_paused hi hd, h.keeps rfl rfl fun _ => rfl⟩
  | select =>
    obtain ⟨f, hs⟩ := doSelect_follows (h.rest hd).1
    exact operate_keeps (latch := id) _ hi rfl (doSelect_relatch _ _ s)
      (f.keeps hs (by simp [Parser.live]) rfl (by simp))
  | release =>
    obtain ⟨hin, hcomp⟩ := Bool.and_eq_true_iff.1 hd
    have hs := (h.session hin).1
    have he := exec_release hi
    rw [hs.selected] at he
    exact ⟨_, he, (doRelease_keeps hs hcomp h.programmingAligned).congr rfl rfl rfl rfl⟩
  | transferByte b => exact operate_keeps _ hi rfl (doTransfer_relatch _ _ s b) (doTransfer_keeps h hd)
  | readByte c => exact operate_keeps _ hi rfl (doReadByte_relatch _ _ s c) (doReadByte_keeps h hd)
  | frameAddress a =>
    exact operate_keeps (latch := id) _ hi rfl (doFrameAddress_relatch _ _ s a) (doFrameAddress_keeps h hd)
  | sendCommand op => exact operate_keeps _ hi rfl (doCommand_relatch _ _ s op) (doCommand_keeps h hd)
  | readStatus | rdsrFrame =>
    obtain ⟨hafter, hrest, -⟩ := doReadStatus_after (h.rest hd).1
    exact operate_keeps (latch := id) _ hi rfl (doReadStatus_relatch _ _ s) (hafter.keepsArray hrest)
  | writeEnable | wrenFrame =>
    obtain ⟨hr, hb⟩ := h.notBusy hd
    obtain ⟨hafter, hrest, -, -⟩ := doPlainCommand_after hr hb
    exact operate_keeps (latch := id) _ hi rfl (doPlainCommand_relatch _ _ s _) (hafter.keepsArray hrest)
  | writeDisable | wrdiFrame =>
    obtain ⟨hr, hb⟩ := h.notBusy hd
    obtain ⟨-, -, hafter, hrest⟩ := doPlainCommand_after hr hb
    exact operate_keeps (latch := id) _ hi rfl (doPlainCommand_relatch _ _ s _) (hafter.keepsArray hrest)
  | readProductId | rdidFrame =>
    obtain ⟨hr, hb⟩ := h.notBusy hd
    obtain ⟨hafter, hrest, -⟩ := doReadProductId_after hr hb
    exact operate_keeps (latch := id) _ hi rfl (doReadProductId_relatch _ _ s) (hafter.keepsArray hrest)
  | writeStatusRegister v =>
    obtain ⟨hr, hb⟩ := h.notBusy hd
    exact operate_keeps _ hi rfl (doWriteStatus_relatch _ _ s v) (doWriteStatus_keeps hr hb v)
  | wrsrFrame v =>
    obtain ⟨hr, hb⟩ := h.notBusy hd
    exact operate_keeps (latch := id) _ hi rfl (doWriteStatus_relatch _ _ s v) (doWriteStatus_keeps hr hb v)
  | read a len =>
    obtain ⟨hr, hb⟩ := h.notBusy (Bool.and_eq_true_iff.1 hd).1
    exact operate_keeps _ hi rfl (doRead_relatch _ _ s a _) (doRead_keeps hr hb a len)
  | readFrame a =>
    obtain ⟨hr, hb⟩ := h.notBusy hd
    exact operate_keeps (latch := id) _ hi rfl (doRead_relatch _ _ s a _) (doRead_keeps hr hb a s.opr.l)
  | sectorErase a =>
    obtain ⟨hr, hb⟩ := h.notBusy hd
    exact operate_keeps _ hi rfl (doSectorErase_relatch _ _ s a) (doSectorErase_keeps hr hb a)
  | sectorEraseFrame a =>
    obtain ⟨hr, hb⟩ := h.notBusy hd
    exact operate_keeps (latch := id) _ hi rfl (doSectorErase_relatch _ _ s a) (doSectorErase_keeps hr hb a)
  | chipErase | chipEraseFrame =>
    obtain ⟨hr, hb⟩ := h.notBusy hd
    exact operate_keeps (latch := id) _ hi rfl (doChipErase_relatch _ _ s) (doChipErase_keeps hr hb)
  | programFrame a =>
    obtain ⟨hrest, ha⟩ := Bool.and_eq_true_iff.1 hd
    obtain ⟨hr, hb⟩ := h.notBusy hrest
    exact operate_keeps (latch := id) _ hi rfl (doProgramTransaction_relatch s.opr _ a rfl)
      (doProgramTransaction_keeps hr hb (beq_iff_eq.1 ha))
  | program a len data =>
    obtain ⟨hrest, ha⟩ := Bool.and_eq_true_iff.1 hd
    obtain ⟨hr, hb⟩ := h.notBusy hrest
    have hr' : Rest s.cfg (s.latchALD a len data) := ⟨hr.cfg, hr.clockLow, hr.busIdle, hr.notHeld⟩
    have hk := doProgram_keeps (s := s.latchALD a len data) hr' hb (beq_iff_eq.1 ha)
    have hlatch : Keeps s (s.latchALD a len data) := h.keeps rfl rfl h.heldOnlySelected
    exact ⟨_, exec_program hi a len data, (hlatch.trans rfl hk).congr rfl rfl rfl rfl⟩

/-- Settles O57: what every operation of a well-sequenced host keeps (`exec_keeps`), with what every operation keeps anyway. -/
theorem disciplineKeepsSync : Obligations.DisciplineKeepsSync := by
  intro i s h hd
  obtain ⟨t, he, hk⟩ := exec_keeps h hd
  exact ⟨t, he, h.of_keeps he hk, hk.epoch⟩

end Sys2Proof.Machine
end

section
/-! SUPPORT. The converse of the round trip: what decodes is the encoding of what it decodes to, and well formed
(30_encoding.md R100 to R104, R110, R112). -/

namespace Sys2Proof

/-- An address frame that decodes is the encoding of what it decodes to (R103). -/
theorem encode_of_decodeInternal {bytes : List Byte} {i : Instr} (h : decode (.internal bytes) = .ok i) :
    encode i = .internal bytes := by
  cases ha : decodeAddressFrame bytes with
  | error e => rw [decode, ha] at h; cases h
  | ok a =>
    obtain rfl := decodeAddressFrame_iff.1 ha
    rw [decode, ha] at h
    cases h
    rfl

/-- A host request that decodes is the encoding of what it decodes to, on the ports the operation latches (R112). -/
theorem encode_of_decodeHost {op : BitVec 5} {ports : HostPorts} {i : Instr} (h : decodeHost op ports = .ok i) :
    encode i = .host op (ports.latchedBy i) := by
  unfold decodeHost at h
  split at h
  case h_19 => cases h
  all_goals
    next hop =>
      obtain ⟨-, rfl⟩ := BitVec.toNat_eq_nat.1 hop
      cases h
      rfl

/-- Only `program` can be ill formed; its data and length are the ports' own, since its encoding is the request (R110). -/
theorem wellFormed_of_decode {request : Request} {i : Instr}
    (hlen : ∀ op ports, request = .host op ports → ports.din.length = ports.len.toNat) (h : decode request = .ok i) :
    i.wellFormed = true := by
  cases i with
  | program a len data =>
    cases request with
    | host op ports =>
      cases encode_of_decodeHost h
      exact beq_iff_eq.2 (hlen _ ports rfl)
    | wire header => cases encode_of_decodeWire h
    | internal bytes => cases encode_of_decodeInternal h
    | hostWait => cases h
  | _ => rfl

/-- Settles O2, one lemma per kind of request. -/
theorem encodeOfDecode : Obligations.EncodeOfDecode := fun _ =>
  ⟨fun _ hlen h => wellFormed_of_decode hlen h, fun _ h => encode_of_decodeWire h,
    fun _ h => encode_of_decodeInternal h, fun _ _ h => encode_of_decodeHost h⟩

/-- Settles O3: each word is the encoding of the instruction it stands for, and encodings decode (`decodeOfEncode`). -/
theorem decodedWords : Obligations.DecodedWords :=
  ⟨decodeOfEncode .wrenFrame, decodeOfEncode .wrdiFrame, decodeOfEncode .rdsrFrame, decodeOfEncode (.wrsrFrame 0x8C#8),
    decodeOfEncode (.readFrame 0x1234#16), decodeOfEncode (.programFrame 0xFFF8#16),
    decodeOfEncode (.sectorEraseFrame 0x0011#16), decodeOfEncode .chipEraseFrame, decodeOfEncode .rdidFrame,
    decodeOfEncode (.frameAddress 0x8000#16), decodeOfEncode (.configureClockPeriod 250#16),
    decodeOfEncode (.readByte true), decodeOfEncode (.read 0xFFF8#16 16#17),
    decodeOfEncode (.program 0#16 1#17 [0x80#8]), decodeOfEncode .resume⟩

end Sys2Proof
end
